-- ==== Sys2Proof/Word.lean ====
section
/-! DEFINITION. The word types of the core and the fixed-size arrays built from them (spec/00_scope.md R6, R9, R10). -/

namespace Sys2Proof

/-- A `u8` of R9. -/
abbrev Byte := BitVec 8

/-- A `u32` of R9: registers, host data and the words of SHA-256. `+` on it is the `+32` of R11. -/
abbrev Word := BitVec 32

/-- A HashState of R15: eight words. -/
abbrev HashState := Vector Word 8

/-- A MessageSchedule of R15: 64 words. -/
abbrev Schedule := Vector Word 64

/-- A block of R15: 64 bytes. -/
abbrev Block := Vector Byte 64

/-- A digest, Tag or FinalMAC of R15: 32 bytes. -/
abbrev Digest := Vector Byte 32

/-- A PaddedKey of R15: 64 bytes. -/
abbrev PaddedKey := Vector Byte 64

/-- The concatenation of three tags (R6): 96 bytes. -/
abbrev TagCat := Vector Byte 96

/-- The working state `a, b, c, d, e, f, g, h` of one compression: `V[u][0..7]` in that order
(spec/10_state.md R23). -/
structure Working where
  a : Word
  b : Word
  c : Word
  d : Word
  e : Word
  f : Word
  g : Word
  h : Word
deriving DecidableEq, Repr

end Sys2Proof
end

