-- ==== Sys2Proof/Config.lean ====
section
/-! DEFINITION. What an implementation of the core fixes (spec/00_scope.md R7), the names of its units and buffer
spaces, and the free values: uninterpreted constants that stand for what the spec leaves unspecified. -/

namespace Sys2Proof

/-- The hash units HU1, HU2, HU3, numbered as the lanes (spec/60_exceptions.md R247). -/
inductive UnitId where
  | u1
  | u2
  | u3
deriving DecidableEq, Repr

/-- The six buffer spaces of spec/10_state.md R51: the values `HU[u].SRC` can take. -/
inductive Space where
  | key
  | msg
  | lane1
  | lane2
  | lane3
  | tagcat
deriving DecidableEq, Repr

/-- Which implementation of the compression step is built: the parameter `ACCEL` of R7. No register reports it
(spec/10_state.md R57). -/
inductive Accel where
  | accelerated
  | portable
deriving DecidableEq, Repr

/-- The parameters of one instance of the core (R7). `LANE_MAX` is derived, and `BUS_PROTOCOL` is not modelled. -/
structure Params where
  /-- `KEY_MAX`: capacity of the key buffer in bytes. -/
  keyMax : Nat
  /-- `MSG_MAX`: capacity of the message buffer in bytes. -/
  msgMax : Nat
  /-- `BASE`: bus address of the core's byte offset 0. -/
  base : Nat
  /-- `ACCEL`: which compression step is built. -/
  accel : Accel
deriving DecidableEq, Repr

namespace Params

/-- The default instance of R7. -/
def default : Params := { keyMax := 4096, msgMax := 65536, base := 0, accel := .accelerated }

/-- `LANE_MAX = MSG_MAX / 2` (R7). -/
def laneMax (p : Params) : Nat := p.msgMax / 2

/-- The constraints that R7 puts on the parameters. -/
abbrev wf (p : Params) : Prop :=
  (p.keyMax % 4 = 0 ∧ 64 ≤ p.keyMax ∧ p.keyMax ≤ 4096) ∧
  (p.msgMax % 128 = 0 ∧ 128 ≤ p.msgMax ∧ p.msgMax ≤ 2 ^ 24) ∧
  p.base % 2 ^ 27 = 0

end Params

/-- Where an unspecified value is drawn: the location that has none, or the datum of a host read (log 1). -/
inductive FreeSite where
  /-- Word `i` of `HREG` after reset (R59). -/
  | hreg (i : Nat)
  /-- Byte `i` of `BREG` after reset (R59). -/
  | breg (i : Nat)
  /-- Byte `i` of `OUT` after reset (R59). -/
  | out (i : Nat)
  /-- Byte `i` of `PK` after reset (R59). -/
  | pk (i : Nat)
  /-- Byte `i` of `TAGCAT` after reset (R59). -/
  | tagcat (i : Nat)
  /-- Word `i` of `H[u]` after reset (R59). -/
  | unitH (u : UnitId) (i : Nat)
  /-- Word `i` of `V[u]` after reset (R59) and between compressions (R23). -/
  | unitV (u : UnitId) (i : Nat)
  /-- Word `i` of `W[u]` after reset (R59). -/
  | unitW (u : UnitId) (i : Nat)
  /-- Byte `i` of `BLK[u]` after reset (R59). -/
  | unitBlk (u : UnitId) (i : Nat)
  /-- Byte `i` of `IDIG[u]` after reset (R59). -/
  | unitIdig (u : UnitId) (i : Nat)
  /-- Byte `i` of `TAG[u]` after reset (R59). -/
  | unitTag (u : UnitId) (i : Nat)
  /-- Byte `off` of a buffer that nothing has written since reset, at one read of it (R59). -/
  | buffer (space : Space) (off : Nat)
  /-- The unspecified datum of a host read (R65, R70). -/
  | datum
deriving DecidableEq, Repr

/-- The agents that take steps (R13). -/
inductive Agent where
  | host
  | ctrl
  | hu (u : UnitId)
deriving DecidableEq, Repr

/-- The five agents. -/
def Agent.all : List Agent := [.host, .ctrl, .hu .u1, .hu .u2, .hu .u3]

namespace Config

/-- DESIGN CHOICE (log 1), safe for one run: the unspecified word drawn at move number `tick` for `site`. No
body: nothing can prove a value of it. -/
opaque freeWord (tick : Nat) (site : FreeSite) : Word

/-- DESIGN CHOICE (log 1), safe for one run: the unspecified byte drawn at move number `tick` for `site`. No body. -/
opaque freeByte (tick : Nat) (site : FreeSite) : Byte

/-- DESIGN CHOICE (log 4), safe: the turns that open the round drawn at move number `tick`. The relative speed of the
agents is free (spec/44_mac.md R208, R211; spec/70_reset_and_hazards.md R272). No body. -/
opaque round (tick : Nat) : List Agent

end Config

end Sys2Proof
end

