-- ==== Sys2Proof/Machine/Bytes.lean ====
section
/-! DEFINITION. Byte order and byte sequences: the notation of spec/00_scope.md R10 and R11, big-endian throughout
(spec/20_memory.md R71). -/

namespace Sys2Proof.Machine

/-- `be32`: four bytes as a big-endian word (R11). -/
def be32 (b0 b1 b2 b3 : Byte) : Word := b0 ++ b1 ++ b2 ++ b3

/-- `ser32`: the four bytes of a word, most significant first (R11). -/
def ser32 (w : Word) : List Byte :=
  [w.extractLsb' 24 8, w.extractLsb' 16 8, w.extractLsb' 8 8, w.extractLsb' 0 8]

/-- `ser64`: the eight bytes of a `u64`, most significant first (R11). -/
def ser64 (n : BitVec 64) : List Byte :=
  [n.extractLsb' 56 8, n.extractLsb' 48 8, n.extractLsb' 40 8, n.extractLsb' 32 8,
    n.extractLsb' 24 8, n.extractLsb' 16 8, n.extractLsb' 8 8, n.extractLsb' 0 8]

/-- `rep(c, n)`: `n` copies of byte `c` (R10). -/
def rep (c : Byte) (n : Nat) : List Byte := List.replicate n c

/-- `zeros(n)` (R10). -/
def zeros (n : Nat) : List Byte := rep 0x00 n

/-- `s XOR t`, byte by byte (R10). -/
def xorBytes (s t : List Byte) : List Byte := List.zipWith (· ^^^ ·) s t

/-- The byte sequence `s` held in an array of `n` bytes. It is used where `s` has length `n`; a shorter one is filled
with zeros on the right and a longer one is cut. -/
def bytesOf (n : Nat) (s : List Byte) : Vector Byte n := ⟨⟨(s ++ zeros n).take n⟩, by simp [zeros, rep]⟩

/-- `s[i]` (R10), `0x00` past the end: `m'[x]` of spec/43_split.md R187. -/
def byteAt (s : List Byte) (i : Nat) : Byte := s.getD i 0x00

/-- The four bytes of `s` from offset `4i`, as one big-endian word (spec/92_eei_decisions.md D28). -/
def wordAt (s : List Byte) (i : Nat) : Word :=
  be32 (byteAt s (4 * i)) (byteAt s (4 * i + 1)) (byteAt s (4 * i + 2)) (byteAt s (4 * i + 3))

/-- `s` with the bytes from offset `4i` replaced by `ser32(d)` (spec/20_memory.md R72). -/
def putWord (s : List Byte) (i : Nat) (d : Word) : List Byte :=
  s.take (4 * i) ++ ser32 d ++ s.drop (4 * i + 4)

end Sys2Proof.Machine
end

