-- ==== Sys2Proof/Machine/Engine.lean ====
section
/-! DEFINITION. The SHA-256 compression engine (spec/40_compress.md R110 to R122). -/

namespace Sys2Proof.Machine

/-- `ROTR(x, n)` (spec/00_scope.md R11). -/
def rotr (x : Word) (n : Nat) : Word := x.rotateRight n

/-- `SHR(x, n)` (spec/00_scope.md R11). -/
def shr (x : Word) (n : Nat) : Word := x >>> n

/-- `σ0` (R113). -/
def smallSigma0 (x : Word) : Word := rotr x 7 ^^^ rotr x 18 ^^^ shr x 3

/-- `σ1` (R113). -/
def smallSigma1 (x : Word) : Word := rotr x 17 ^^^ rotr x 19 ^^^ shr x 10

/-- `Σ0` (R114). -/
def bigSigma0 (x : Word) : Word := rotr x 2 ^^^ rotr x 13 ^^^ rotr x 22

/-- `Σ1` (R114). -/
def bigSigma1 (x : Word) : Word := rotr x 6 ^^^ rotr x 11 ^^^ rotr x 25

/-- `Ch` (R114). -/
def ch (x y z : Word) : Word := (x &&& y) ^^^ (~~~x &&& z)

/-- `Maj` (R114). -/
def maj (x y z : Word) : Word := (x &&& y) ^^^ (x &&& z) ^^^ (y &&& z)

/-- The round constants `K[0..63]` (R115). -/
def roundConstants : List Word :=
  [0x428a2f98, 0x71374491, 0xb5c0fbcf, 0xe9b5dba5, 0x3956c25b, 0x59f111f1, 0x923f82a4, 0xab1c5ed5] ++
  [0xd807aa98, 0x12835b01, 0x243185be, 0x550c7dc3, 0x72be5d74, 0x80deb1fe, 0x9bdc06a7, 0xc19bf174] ++
  [0xe49b69c1, 0xefbe4786, 0x0fc19dc6, 0x240ca1cc, 0x2de92c6f, 0x4a7484aa, 0x5cb0a9dc, 0x76f988da] ++
  [0x983e5152, 0xa831c66d, 0xb00327c8, 0xbf597fc7, 0xc6e00bf3, 0xd5a79147, 0x06ca6351, 0x14292967] ++
  [0x27b70a85, 0x2e1b2138, 0x4d2c6dfc, 0x53380d13, 0x650a7354, 0x766a0abb, 0x81c2c92e, 0x92722c85] ++
  [0xa2bfe8a1, 0xa81a664b, 0xc24b8b70, 0xc76c51a3, 0xd192e819, 0xd6990624, 0xf40e3585, 0x106aa070] ++
  [0x19a4c116, 0x1e376c08, 0x2748774c, 0x34b0bcb5, 0x391c0cb3, 0x4ed8aa4a, 0x5b9cca4f, 0x682e6ff3] ++
  [0x748f82ee, 0x78a5636f, 0x84c87814, 0x8cc70208, 0x90befffa, 0xa4506ceb, 0xbef9a3f7, 0xc67178f2]

/-- The initialisation vector `IV[0..7]` (R116). -/
def iv : HashState :=
  ⟨#[0x6a09e667, 0xbb67ae85, 0x3c6ef372, 0xa54ff53a, 0x510e527f, 0x9b05688c, 0x1f83d9ab, 0x5be0cd19], rfl⟩

/-- The next schedule word from the words so far, the newest first (R112): `W[t-2]`, `W[t-7]`, `W[t-15]` and `W[t-16]`
stand at places 1, 6, 14 and 15. -/
def nextScheduleWord (ws : List Word) : Word :=
  smallSigma1 (ws.getD 1 0) + ws.getD 6 0 + smallSigma0 (ws.getD 14 0) + ws.getD 15 0

/-- `n` more schedule words, the newest first (R112). -/
def extendSchedule : Nat → List Word → List Word
  | 0, ws => ws
  | n + 1, ws => extendSchedule n (nextScheduleWord ws :: ws)

/-- The block's sixteen big-endian words (R111). -/
def blockWords (b : Block) : List Word := (List.range 16).map (wordAt b.toList)

/-- `W[0..63]` as a list, `W[0]` first (R111, R112). -/
def scheduleWords (b : Block) : List Word := (extendSchedule 48 (blockWords b).reverse).reverse

/-- The message schedule of a block (R111, R112), as the register `W[u]` holds it. -/
def schedule (b : Block) : Schedule := ⟨⟨(scheduleWords b ++ List.replicate 64 0).take 64⟩, by simp⟩

/-- The working state at the start of a compression (R117). -/
def Working.ofState (s : HashState) : Working :=
  { a := s[0], b := s[1], c := s[2], d := s[3], e := s[4], f := s[5], g := s[6], h := s[7] }

/-- One round with constant `k` and schedule word `w` (R118). -/
def sha256Round (v : Working) (k w : Word) : Working :=
  let t1 := v.h + bigSigma1 v.e + ch v.e v.f v.g + k + w
  let t2 := bigSigma0 v.a + maj v.a v.b v.c
  { a := t1 + t2, b := v.a, c := v.b, d := v.c, e := v.d + t1, f := v.e, g := v.f, h := v.g }

/-- The rounds one after another (R118), each pair of the list a `K[t]` and a `W[t]`. -/
def portableRounds : Working → List (Word × Word) → Working
  | v, [] => v
  | v, (k, w) :: rest => portableRounds (sha256Round v k w) rest

/-- The rounds in groups of two (R119): group `g` applies round `2g` and then round `2g + 1`. -/
def groupedRounds : Working → List (Word × Word) → Working
  | v, [] => v
  | v, [(k, w)] => sha256Round v k w
  | v, (k0, w0) :: (k1, w1) :: rest => groupedRounds (sha256Round (sha256Round v k0 w0) k1 w1) rest

/-- The post-round working state added to the input state, word by word (R120). -/
def addWorking (s : HashState) (v : Working) : HashState :=
  ⟨#[s[0] + v.a, s[1] + v.b, s[2] + v.c, s[3] + v.d, s[4] + v.e, s[5] + v.f, s[6] + v.g, s[7] + v.h], rfl⟩

/-- `compress(S, B)` (R110 to R120). It is total: a block is 64 bytes by its type (R121). -/
def compress (s : HashState) (b : Block) : HashState :=
  addWorking s (portableRounds (Working.ofState s) (roundConstants.zip (scheduleWords b)))

/-- The compression step that an instance builds: groups of two rounds in the accelerated engine, single rounds in the
portable one (R119, R122). -/
def engine (accel : Accel) (s : HashState) (b : Block) : HashState :=
  match accel with
  | .portable => compress s b
  | .accelerated => addWorking s (groupedRounds (Working.ofState s) (roundConstants.zip (scheduleWords b)))

end Sys2Proof.Machine
end

