-- ==== Sys2Proof/Machine/Padding.lean ====
section
/-! DEFINITION. The block padding unit and the hash function (spec/41_hash.md R140 to R148). -/

namespace Sys2Proof.Machine

/-- `nblocks(n)`: the number of blocks of the padded stream of an `n`-byte sequence (R145). -/
def nblocks (n : Nat) : Nat := if n % 64 ≤ 55 then n / 64 + 1 else n / 64 + 2

/-- `ser64(8 * n)`: the length field (R142; spec/20_memory.md R73). -/
def lengthField (n : Nat) : List Byte := ser64 (BitVec.ofNat 64 (8 * n))

/-- `PadBlock(s, i)` as a byte sequence, the four cases of R146 in their order. -/
def padBytes (s : List Byte) (i : Nat) : List Byte :=
  let n := s.length
  let q := n / 64
  let used := n % 64
  let tail := s.drop (64 * q)
  if i < q then (s.drop (64 * i)).take 64
  else if used ≤ 55 then tail ++ [0x80] ++ zeros (55 - used) ++ lengthField n
  else if i = q then tail ++ [0x80] ++ zeros (63 - used)
  else zeros 56 ++ lengthField n

/-- `PadBlock(s, i)` (R146): every block is exactly 64 bytes. -/
def padBlock (s : List Byte) (i : Nat) : Block := bytesOf 64 (padBytes s i)

/-- The digest of a HashState: its words in big-endian byte order, word 0 first (R148). -/
def digestBytes (s : HashState) : List Byte :=
  ser32 s[0] ++ ser32 s[1] ++ ser32 s[2] ++ ser32 s[3] ++ ser32 s[4] ++ ser32 s[5] ++ ser32 s[6] ++ ser32 s[7]

/-- `digest(S)` (R148): 32 bytes. -/
def digest (s : HashState) : Digest := bytesOf 32 (digestBytes s)

/-- The multi-block drive from block `i` on, `fuel` blocks in increasing order (R147). -/
def driveBlocks (s : List Byte) : Nat → Nat → HashState → HashState
  | 0, _, st => st
  | fuel + 1, i, st => driveBlocks s fuel (i + 1) (compress st (padBlock s i))

/-- `hash(s)` (R140, R147, R148). -/
def sha256 (s : List Byte) : Digest := digest (driveBlocks s (nblocks s.length) 0 iv)

end Sys2Proof.Machine
end

