-- ==== Sys2Proof/Machine/HmacFunction.lean ====
section
/-! DEFINITION. The HMAC construction as a function (spec/42_hmac.md R160 to R165). -/

namespace Sys2Proof.Machine

/-- The PaddedKey of a key that is not hashed, `len(k) ≤ 64`: zero-padded on the right (R161, second branch). -/
def padKey (k : List Byte) : PaddedKey := bytesOf 64 (k ++ zeros (64 - k.length))

/-- The PaddedKey from the digest of a long key: `hash(k) || zeros(32)` (R161, first branch). -/
def padKeyDigest (d : Digest) : PaddedKey := bytesOf 64 (d.toList ++ zeros 32)

/-- `normalize(k)` (R161). -/
def normalize (k : List Byte) : PaddedKey :=
  if k.length > 64 then padKeyDigest (sha256 k) else padKey k

/-- `ipad(pk) = pk XOR rep(0x36, 64)` (R163). -/
def ipad (pk : PaddedKey) : List Byte := xorBytes pk.toList (rep 0x36 64)

/-- `opad(pk) = pk XOR rep(0x5C, 64)` (R163). -/
def opad (pk : PaddedKey) : List Byte := xorBytes pk.toList (rep 0x5C 64)

/-- `inner(m, pk)`: the inner digest (R164). -/
def innerDigest (m : List Byte) (pk : PaddedKey) : Digest := sha256 (ipad pk ++ m)

/-- `hmac_pk(m, pk)`: the Tag under a PaddedKey (R165). -/
def hmacPk (m : List Byte) (pk : PaddedKey) : Digest := sha256 (opad pk ++ (innerDigest m pk).toList)

/-- `hmac(m, k)` (R160). -/
def hmac (m k : List Byte) : Digest := hmacPk m (normalize k)

end Sys2Proof.Machine
end

