-- ==== Sys2Proof/Machine/LaneSplit.lean ====
section
/-! DEFINITION. The lane splitter as a function (spec/43_split.md R180 to R189). -/

namespace Sys2Proof.Machine

/-- The three lanes of one message (R180). -/
structure Lanes where
  lane1 : List Byte
  lane2 : List Byte
  lane3 : List Byte
deriving DecidableEq, Repr

/-- `lanelen(L)` (R181). -/
def laneLength (len : Nat) : Nat := if len = 0 then 64 else 64 * ((len + 127) / 128)

/-- The chunks of `q` full macro-blocks of `m`, from its front (R183). -/
def fullChunks : Nat → List Byte → Lanes
  | 0, _ => { lane1 := [], lane2 := [], lane3 := [] }
  | q + 1, m =>
    let x := m.take 64
    let y := (m.drop 64).take 64
    let rest := fullChunks q (m.drop 128)
    { lane1 := x ++ rest.lane1, lane2 := y ++ rest.lane2, lane3 := xorBytes x y ++ rest.lane3 }

/-- The last chunk of each lane, from the trailing remainder of length `r` (R184, R185, R186), zero where nothing is
copied (R182). -/
def lastChunks (rem : List Byte) : Lanes :=
  let r := rem.length
  if r < 64 then
    { lane1 := rem ++ zeros (64 - r), lane2 := zeros 64, lane3 := rem ++ zeros (64 - r) }
  else
    let x := rem.take 64
    let y := rem.drop 64 ++ zeros (128 - r)
    { lane1 := x, lane2 := y, lane3 := xorBytes x y }

/-- `split(m)` (R180): the full macro-blocks, then the remainder's chunk where there is one. There is none when `r = 0`
and the message is not empty (R184). -/
def split (m : List Byte) : Lanes :=
  let q := m.length / 128
  let full := fullChunks q m
  if m.length % 128 = 0 ∧ m.length ≠ 0 then full
  else
    let last := lastChunks (m.drop (128 * q))
    { lane1 := full.lane1 ++ last.lane1, lane2 := full.lane2 ++ last.lane2, lane3 := full.lane3 ++ last.lane3 }

end Sys2Proof.Machine
end

