-- ==== Sys2Proof/Machine/MacFunction.lean ====
section
/-! DEFINITION. The L-Lane MAC as a function (spec/44_mac.md R200). -/

namespace Sys2Proof.Machine

/-- `Tag1 || Tag2 || Tag3`, in that order (R204). -/
def catTags (t1 t2 t3 : Digest) : TagCat := bytesOf 96 (t1.toList ++ t2.toList ++ t3.toList)

/-- The concatenated tags of a message under a PaddedKey (R200; steps 2 to 4). -/
def laneTags (m : List Byte) (pk : PaddedKey) : TagCat :=
  let l := split m
  catTags (hmacPk l.lane1 pk) (hmacPk l.lane2 pk) (hmacPk l.lane3 pk)

/-- `computeMAC(m, k)` (R200). -/
def computeMAC (m k : List Byte) : Digest :=
  let pk := normalize k
  hmacPk (laneTags m pk).toList pk

end Sys2Proof.Machine
end

