-- ==== Sys2Proof/Syntax.lean ====
section
/-! DEFINITION. The commands of the core, one constructor per row of spec/opcode_table.json, and the one command
format (spec/30_encoding.md R90, R92). -/

namespace Sys2Proof

/-- The eight commands (R92). A command has no operand field: its operands are implicit (R95). -/
inductive Instr where
  /-- `INIT` (spec/40_compress.md R123). -/
  | init
  /-- `COMPRESS` (spec/40_compress.md R124). -/
  | compress
  /-- `HASH` (spec/41_hash.md R149). -/
  | hash
  /-- `KEYNORM` (spec/42_hmac.md R168). -/
  | keynorm
  /-- `HMAC` (spec/42_hmac.md R169). -/
  | hmac
  /-- `SPLIT` (spec/43_split.md R190). -/
  | split
  /-- `MAC` (spec/44_mac.md R207). -/
  | mac
  /-- `CLEAR` (spec/45_system.md R223). -/
  | clear
deriving DecidableEq, Repr

/-- A command word cut into the fields of format `C` (R90). -/
structure CmdWord where
  /-- `RSVD`, bits 31:4. -/
  rsvd : BitVec 28
  /-- `OP`, bits 3:0. -/
  op : BitVec 4
deriving DecidableEq, Repr

end Sys2Proof
end

