-- ==== Sys2Proof/WellFormed.lean ====
section
/-! DEFINITION. Which command words are well formed (spec/30_encoding.md R92, R93, R94). -/

namespace Sys2Proof

namespace CmdWord

/-- The check of R93: the reserved field must be zero. -/
def rsvdOk (c : CmdWord) : Bool := c.rsvd == 0

/-- The check of R92 and R94: the opcode is one of `0x1` to `0x8`. -/
def opOk (c : CmdWord) : Bool := decide (1 ≤ c.op.toNat) && decide (c.op.toNat ≤ 8)

/-- A legal command word: every other word is illegal (R94). -/
def wellFormed (c : CmdWord) : Bool := c.rsvdOk && c.opOk

end CmdWord

/-- A command term has no operand (R95), so every term is well formed. What can be ill formed is a command word:
`CmdWord.wellFormed`. -/
def Instr.wellFormed : Instr → Bool
  | .init => true
  | .compress => true
  | .hash => true
  | .keynorm => true
  | .hmac => true
  | .split => true
  | .mac => true
  | .clear => true

end Sys2Proof
end

