-- ==== Sys2Proof/Decode.lean ====
section
/-! DEFINITION. The decoder of command words, total on every 32-bit word and rejecting by name, and the encoder
(spec/30_encoding.md R90 to R94). -/

namespace Sys2Proof

/-- Why a command word is illegal. Both reasons lead to the one error entry `ILLEGAL_CMD` (R94). -/
inductive DecodeError where
  /-- A bit of `RSVD` is set (R93). -/
  | reservedBitsSet
  /-- The opcode is `0x0` or one of `0x9` to `0xF` (R92). -/
  | noSuchOpcode
deriving DecidableEq, Repr

/-- The fields of a command word (R90). -/
def CmdWord.ofWord (w : Word) : CmdWord := { rsvd := w.extractLsb' 4 28, op := w.extractLsb' 0 4 }

/-- The word whose fields are `c` (R90). -/
def CmdWord.toWord (c : CmdWord) : Word := c.rsvd ++ c.op

/-- The opcode map of R92, read from left to right. -/
def decodeOp (op : BitVec 4) : Option Instr :=
  match op.toNat with
  | 1 => some .init
  | 2 => some .compress
  | 3 => some .hash
  | 4 => some .keynorm
  | 5 => some .hmac
  | 6 => some .split
  | 7 => some .mac
  | 8 => some .clear
  | _ => none

/-- The decoder of a command word (R91: it needs the whole word and nothing else). -/
def decode (w : Word) : Except DecodeError Instr :=
  let c := CmdWord.ofWord w
  if c.rsvdOk then
    match decodeOp c.op with
    | some i => .ok i
    | none => .error .noSuchOpcode
  else .error .reservedBitsSet

/-- The opcode of a command (R92). -/
def Instr.opcode : Instr → BitVec 4
  | .init => 0x1
  | .compress => 0x2
  | .hash => 0x3
  | .keynorm => 0x4
  | .hmac => 0x5
  | .split => 0x6
  | .mac => 0x7
  | .clear => 0x8

/-- The encoder: the command word of R92, its reserved field zero (R93). -/
def encode (i : Instr) : Word := CmdWord.toWord { rsvd := 0, op := i.opcode }

/-- The command word given by the low `nbits` bits of `w`; every other bit is 0. A command is the 32-bit datum of one
bus write (R90), so there is no byte order to apply. -/
def commandWord (nbits w : Nat) : Word := BitVec.ofNat 32 (w % 2 ^ nbits)

/-- The instruction the decoder reads from a row's `nbits` bits `w`. -/
def decodeTableWord (nbits w : Nat) : Option Instr :=
  match decode (commandWord nbits w) with
  | .ok i => some i
  | .error _ => none

end Sys2Proof
end

