-- ==== Sys2Proof/Machine/State.lean ====
section
/-! DEFINITION. The state of the core (spec/10_state.md R20), its reset values (R58, R59), the host's events and
replies, and the reasons a step can stop. -/

namespace Sys2Proof.Machine

/-- The state of CTRL's sequencer, in place of a program counter (R25). -/
inductive Phase where
  /-- No command in progress. -/
  | idle
  /-- A command has been accepted and its first action is pending. -/
  | exec
  /-- HU1 is hashing a key longer than 64 bytes. -/
  | knhash
  /-- `PK` holds the PaddedKey. -/
  | kndone
  /-- HU1 is running the hash or HMAC of a HASH or HMAC command. -/
  | run
  /-- The three workers are running. -/
  | fanout
  /-- HU1 is running the final HMAC over `TAGCAT`. -/
  | final
deriving DecidableEq, Repr

/-- The state of a hash unit's sequencer, `HU[u].PHASE` (R26). -/
inductive UnitPhase where
  /-- No job. -/
  | idle
  /-- A plain hash is in progress. -/
  | hash
  /-- The inner hash of an HMAC is in progress. -/
  | inner
  /-- The outer hash of an HMAC is in progress. -/
  | outer
  /-- The job has ended and `TAG[u]` holds its result, not yet collected by CTRL. -/
  | done
deriving DecidableEq, Repr

/-- The fields of `STATUS` (R36). The reserved bits 31:12 hold nothing. -/
structure Status where
  /-- `BUSY` (R30). -/
  busy : Bool
  /-- `DONE` (R31), also the level of the output `done` (spec/60_exceptions.md R239). -/
  done : Bool
  /-- `ERR` (R32). -/
  err : Bool
  /-- `HAZ` (R33). -/
  haz : Bool
  /-- `ERRCODE` (spec/60_exceptions.md R231). -/
  errcode : BitVec 4
  /-- `LASTOP`: the opcode of the last accepted command. -/
  lastop : BitVec 4
deriving DecidableEq, Repr

/-- One hash unit: an engine, a padding unit and an HMAC state machine (R21, R23, R24, R26, R28, R49, R50). -/
structure HashUnit where
  /-- `H[u]`: the HashState of the hash in progress (R21). -/
  h : HashState
  /-- `V[u]`: the working state of the engine (R23). -/
  v : Working
  /-- `W[u]`: the message schedule of the engine (R24). -/
  w : Schedule
  /-- `BLK[u]`: the block being compressed (R49). -/
  blk : Block
  /-- `IDIG[u]`: the inner digest of the HMAC in progress (R50). -/
  idig : Digest
  /-- `TAG[u]`: the unit's output (R50). -/
  tag : Digest
  /-- `HU[u].PHASE` (R26). -/
  phase : UnitPhase
  /-- `HU[u].SRC`: the buffer that holds the body (R28). -/
  src : Space
  /-- `HU[u].BLEN`: the body's length in bytes (R28). -/
  blen : Word
  /-- `HU[u].BIDX`: the index of the next block of the padded stream (R28). -/
  bidx : Word
deriving DecidableEq, Repr

/-- A buffer: the bytes written since reset as (offset, byte) pairs, offsets strictly rising (`Memory.wf`). A byte
that is not listed holds no value (R59): `Memory.get` answers `none`, and each read of it draws a free value (log 3). -/
abbrev Memory := List Host.Cell

/-- The response of a bus transaction (spec/20_memory.md R63). -/
inductive Resp where
  | okay
  | error
deriving DecidableEq, Repr

/-- What one transaction of HOST returned: its response and, for a read, its datum (R63). -/
structure Reply where
  resp : Resp
  datum : Option Word
deriving DecidableEq, Repr

/-- One event from outside the core: a transaction of HOST (R63), one turn of the host script's `WAIT`
(spec/30_encoding.md R100), or the hardware input `rst` (spec/70_reset_and_hazards.md R260). -/
inductive HostEvent where
  /-- `HostWr32(a, d)`. -/
  | wr (a : Nat) (d : Word)
  /-- `HostRd32(a)`. -/
  | rd (a : Nat)
  /-- Read `STATUS` until it shows `BUSY = 0`; each turn is one read. -/
  | wait
  /-- The hardware reset. -/
  | rst
deriving DecidableEq, Repr

/-- The whole state: what R20 lists, and the model's own fields (the last five and `params`). -/
structure State where
  /-- The parameters of this instance (spec/00_scope.md R7), returned by `CAP_KEYMAX` and `CAP_MSGMAX` (R40). No step
  changes them (log 6). -/
  params : Params
  /-- `STATUS` (R36). -/
  status : Status
  /-- `KEYLEN` (R37). -/
  keylen : Word
  /-- `MSGLEN` (R38). -/
  msglen : Word
  /-- `LANELEN` (R39). -/
  lanelen : Word
  /-- `KLEN`: `KEYLEN` latched at acceptance (R27). -/
  klen : Word
  /-- `MLEN`: `MSGLEN` latched at acceptance (R27). -/
  mlen : Word
  /-- `PHASE` (R25). -/
  phase : Phase
  /-- `HREG[0..7]` (R22). -/
  hreg : HashState
  /-- `BREG[0..63]` (R46). -/
  breg : Block
  /-- `OUT[0..31]` (R45). -/
  out : Digest
  /-- `PK[0..63]` (R47). -/
  pk : PaddedKey
  /-- `TAGCAT[0..95]` (R48). -/
  tagcat : TagCat
  /-- `KEY[0..KEY_MAX-1]` (R52). -/
  key : Memory
  /-- `MSG[0..MSG_MAX-1]` (R53). -/
  msg : Memory
  /-- `LANE1[0..LANE_MAX-1]` (R54). -/
  lane1 : Memory
  /-- `LANE2[0..LANE_MAX-1]` (R54). -/
  lane2 : Memory
  /-- `LANE3[0..LANE_MAX-1]` (R54). -/
  lane3 : Memory
  /-- HU1. -/
  hu1 : HashUnit
  /-- HU2. -/
  hu2 : HashUnit
  /-- HU3. -/
  hu3 : HashUnit
  /-- The model's own: the events still to come from outside, oldest first (log 5). -/
  host : List HostEvent
  /-- The model's own: what HOST's transactions have returned, newest first (spec/00_scope.md R14; log 11). -/
  replies : List Reply
  /-- The model's own: the agents whose turns come next, first to move first (log 4). -/
  schedule : List Agent
  /-- The model's own: how many moves have been made; the index of the free values (log 1). -/
  tick : Nat
deriving DecidableEq, Repr

/-- Why the machine stops. A command the core refuses is no fault: it takes the error entry of
spec/60_exceptions.md R241 and the machine goes on. -/
inductive Fault where
  /-- Raised by a host transaction (`hostWrite`, `hostRead`) whose address lies outside the core's range
  (spec/20_memory.md R60): no location of the core has it. Safe: the machine stops where hardware would leave the
  transaction to the platform (log 10). -/
  | outsideCore
deriving DecidableEq, Repr

/-- Why the machine has no meaning for an instruction. -/
inductive Refusal where
  /-- Raised by an arm of `exec` for a command that has no meaning yet; there is none. Safe: the machine stops. -/
  | notModelled (mnemonic : String)
deriving DecidableEq, Repr

/-- An array of `n` free values: entry `i` is `f i`. -/
def freeArray {α : Type} (n : Nat) (f : Nat → α) : Vector α n := ⟨⟨(List.range n).map f⟩, by simp⟩

/-- A working state whose eight words hold no defined value (R23, R59). -/
def freeWorking (tick : Nat) (u : UnitId) : Working where
  a := Config.freeWord tick (.unitV u 0)
  b := Config.freeWord tick (.unitV u 1)
  c := Config.freeWord tick (.unitV u 2)
  d := Config.freeWord tick (.unitV u 3)
  e := Config.freeWord tick (.unitV u 4)
  f := Config.freeWord tick (.unitV u 5)
  g := Config.freeWord tick (.unitV u 6)
  h := Config.freeWord tick (.unitV u 7)

/-- A unit after reset (R58): idle, its job registers zero, its storage unspecified (R59; log 2). -/
def HashUnit.afterReset (tick : Nat) (u : UnitId) : HashUnit where
  h := freeArray 8 fun i => Config.freeWord tick (.unitH u i)
  v := freeWorking tick u
  w := freeArray 64 fun i => Config.freeWord tick (.unitW u i)
  blk := freeArray 64 fun i => Config.freeByte tick (.unitBlk u i)
  idig := freeArray 32 fun i => Config.freeByte tick (.unitIdig u i)
  tag := freeArray 32 fun i => Config.freeByte tick (.unitTag u i)
  phase := .idle
  src := .msg
  blen := 0
  bidx := 0

/-- The core of parameters `p` after a reset at move number `tick` (R58, R59): everything idle, every control register
0, every storage array unspecified, and nothing placed from outside. DESIGN CHOICE (log 2), unsafe: a register array
holds one free value, the same at each read until it is written. -/
def State.afterReset (p : Params) (tick : Nat) : State where
  params := p
  status := { busy := false, done := false, err := false, haz := false, errcode := 0, lastop := 0 }
  keylen := 0
  msglen := 0
  lanelen := 0
  klen := 0
  mlen := 0
  phase := .idle
  hreg := freeArray 8 fun i => Config.freeWord tick (.hreg i)
  breg := freeArray 64 fun i => Config.freeByte tick (.breg i)
  out := freeArray 32 fun i => Config.freeByte tick (.out i)
  pk := freeArray 64 fun i => Config.freeByte tick (.pk i)
  tagcat := freeArray 96 fun i => Config.freeByte tick (.tagcat i)
  key := []
  msg := []
  lane1 := []
  lane2 := []
  lane3 := []
  hu1 := HashUnit.afterReset tick .u1
  hu2 := HashUnit.afterReset tick .u2
  hu3 := HashUnit.afterReset tick .u3
  host := []
  replies := []
  schedule := []
  tick := tick

/-- The machine right after reset: the default instance (R7; log 6), with nothing placed. -/
def State.reset : State := State.afterReset Params.default 0

end Sys2Proof.Machine
end

