-- ==== Sys2Proof/Machine/Flags.lean ====
section
/-! DEFINITION. The status register: its word, and every update of its fields that the spec gives
(spec/10_state.md R30 to R36). The core has no arithmetic flags. -/

namespace Sys2Proof.Machine

/-- The causes of an error entry (spec/60_exceptions.md R231). -/
inductive ErrCause where
  /-- The command word is not one of the eight (R232). -/
  | illegalCmd
  /-- `KEYLEN > KEY_MAX` (R233). -/
  | keyLen
  /-- `MSGLEN > MSG_MAX` (R234). -/
  | msgLen
  /-- Reserved for a worker failure; never raised (R235). -/
  | worker
deriving DecidableEq, Repr

/-- The code stored in `ERRCODE` (R231). -/
def ErrCause.code : ErrCause → BitVec 4
  | .illegalCmd => 0x1
  | .keyLen => 0x2
  | .msgLen => 0x3
  | .worker => 0x4

/-- The 32-bit word a read of `STATUS` returns (R36). -/
def Status.word (t : Status) : Word :=
  (0 : BitVec 20) ++ t.lastop ++ t.errcode ++ BitVec.ofBool t.haz ++ BitVec.ofBool t.err ++
    BitVec.ofBool t.done ++ BitVec.ofBool t.busy

/-- The flags at the acceptance of the command of opcode `op` (spec/45_system.md R220, case 7). -/
def Status.accepted (t : Status) (op : BitVec 4) : Status := { t with lastop := op, done := false, busy := true }

/-- The flags after the completion step (spec/45_system.md R222). -/
def Status.completed (t : Status) : Status := { t with busy := false, done := true }

/-- The flags after an error entry (spec/60_exceptions.md R241). -/
def Status.raised (t : Status) (c : ErrCause) : Status := { t with err := true, errcode := c.code, done := false }

/-- The flags after CLEAR (spec/45_system.md R223). -/
def Status.cleared (t : Status) : Status :=
  { t with err := false, errcode := 0, haz := false, done := false, lastop := Instr.clear.opcode }

/-- The flags after a host write during a run (spec/20_memory.md R69). -/
def Status.hazarded (t : Status) : Status := { t with haz := true }

/-- The level of the output `done` (spec/60_exceptions.md R239). -/
def State.doneOutput (s : State) : Bool := s.status.done

end Sys2Proof.Machine
end

