-- ==== Sys2Proof/Machine/Memory.lean ====
section
/-! DEFINITION. The buffers as lists of (offset, byte) pairs in one canonical form, offsets strictly rising
(spec/10_state.md R51, R59; log 3). -/

namespace Sys2Proof.Machine

namespace Memory

/-- The canonical form: offsets strictly rising. An unlisted byte has no value, so no entry can equal what an unlisted
offset reads as. -/
abbrev wf (m : Memory) : Prop := m.Pairwise fun x y => x.1 < y.1

/-- The byte written last at offset `a`, or `none` where nothing has been written since reset (R59). -/
def get : Memory → Nat → Option Byte
  | [], _ => none
  | (k, b) :: m, a => if k = a then some b else get m a

/-- The bytes `bs` as entries from offset `off` upward. -/
def cells : Nat → List Byte → Memory
  | _, [] => []
  | off, b :: bs => (off, b) :: cells (off + 1) bs

/-- `MemWrite`: store `bs` at offsets `off .. off + length - 1` (spec/00_scope.md R12); every other byte is kept. -/
def write (m : Memory) (off : Nat) (bs : List Byte) : Memory :=
  m.filter (fun c => decide (c.1 < off)) ++ cells off bs ++
    m.filter (fun c => decide (off + bs.length ≤ c.1))

end Memory

end Sys2Proof.Machine
end

