-- ==== Sys2Proof/Machine/Operands.lean ====
section
/-! DEFINITION. Where operands lie and how they are read and written: internal accesses by (space, offset), and the
host's address map (spec/10_state.md R34, R51; spec/20_memory.md R60 to R72). -/

namespace Sys2Proof.Machine

/-- The byte that a buffer space holds at `off`: `none` where nothing has been written since reset (R59). -/
def State.held (s : State) (space : Space) (off : Nat) : Option Byte :=
  match space with
  | .key => s.key.get off
  | .msg => s.msg.get off
  | .lane1 => s.lane1.get off
  | .lane2 => s.lane2.get off
  | .lane3 => s.lane3.get off
  | .tagcat => some (byteAt s.tagcat.toList off)

/-- One byte read from a space: the byte held, or a free value where there is none (R59; log 3). -/
def readByte (s : State) (space : Space) (off : Nat) : Byte :=
  (s.held space off).getD (Config.freeByte s.tick (.buffer space off))

/-- `MemRead(space, off, n)` (spec/00_scope.md R12). -/
def memRead (s : State) (space : Space) (off n : Nat) : List Byte :=
  (List.range' off n).map (readByte s space)

/-- `MemWrite(space, off, n, bs)` with `n` the length of `bs` (spec/00_scope.md R12). -/
def memWrite (s : State) (space : Space) (off : Nat) (bs : List Byte) : State :=
  match space with
  | .key => { s with key := s.key.write off bs }
  | .msg => { s with msg := s.msg.write off bs }
  | .lane1 => { s with lane1 := s.lane1.write off bs }
  | .lane2 => { s with lane2 := s.lane2.write off bs }
  | .lane3 => { s with lane3 := s.lane3.write off bs }
  | .tagcat =>
    let t := s.tagcat.toList
    { s with tagcat := bytesOf 96 (t.take off ++ bs ++ t.drop (off + bs.length)) }

/-- The running command's key, `KEY[0 .. KLEN-1]` (spec/30_encoding.md R95, R96). -/
def keyOperand (s : State) : List Byte := memRead s .key 0 s.klen.toNat

/-- The running command's message, `MSG[0 .. MLEN-1]` (spec/30_encoding.md R95, R96). -/
def msgOperand (s : State) : List Byte := memRead s .msg 0 s.mlen.toNat

/-- The lane that belongs to a unit (spec/44_mac.md R206). -/
def laneOf : UnitId → Space
  | .u1 => .lane1
  | .u2 => .lane2
  | .u3 => .lane3

/-- Whether command `i` reads the key, so that acceptance checks `KEYLEN` (spec/45_system.md R220, case 5). -/
def usesKey : Instr → Bool
  | .init => false
  | .compress => false
  | .hash => false
  | .keynorm => true
  | .hmac => true
  | .split => false
  | .mac => true
  | .clear => false

/-- Whether command `i` reads the message, so that acceptance checks `MSGLEN` (spec/45_system.md R220, case 6). -/
def usesMsg : Instr → Bool
  | .init => false
  | .compress => false
  | .hash => true
  | .keynorm => false
  | .hmac => true
  | .split => true
  | .mac => true
  | .clear => false

/-- A 32-bit location of the core, named (R34, R61). -/
inductive Loc where
  | cmd
  | status
  | keylen
  | msglen
  | lanelen
  | capKeymax
  | capMsgmax
  /-- `OUTi`. -/
  | out (i : Nat)
  /-- `HREGi`. -/
  | hreg (i : Nat)
  /-- `BREGi`. -/
  | breg (i : Nat)
  /-- `PKi`. -/
  | pk (i : Nat)
  /-- `TAGCATi`. -/
  | tagcat (i : Nat)
  /-- The word at offset `off` of a window, below the buffer's capacity. -/
  | window (space : Space) (off : Nat)
  /-- Any other offset (R62, R67). -/
  | reserved
deriving DecidableEq, Repr

/-- The register at a 4-byte-aligned offset of the register page (R34). -/
def registerAt (o : Nat) : Loc :=
  if o = 0x000 then .cmd
  else if o = 0x004 then .status
  else if o = 0x008 then .keylen
  else if o = 0x00C then .msglen
  else if o = 0x010 then .lanelen
  else if o = 0x014 then .capKeymax
  else if o = 0x018 then .capMsgmax
  else if 0x020 ≤ o ∧ o < 0x040 then .out ((o - 0x020) / 4)
  else if 0x040 ≤ o ∧ o < 0x060 then .hreg ((o - 0x040) / 4)
  else if 0x080 ≤ o ∧ o < 0x0C0 then .breg ((o - 0x080) / 4)
  else if 0x100 ≤ o ∧ o < 0x140 then .pk ((o - 0x100) / 4)
  else if 0x140 ≤ o ∧ o < 0x1A0 then .tagcat ((o - 0x140) / 4)
  else .reserved

/-- The word at window offset `off` of a buffer of `cap` bytes; at or past the capacity it is reserved (R62). -/
def windowAt (space : Space) (cap off : Nat) : Loc := if off < cap then .window space off else .reserved

/-- The address map (R61), for a 4-byte-aligned byte offset from `BASE`. -/
def locate (p : Params) (o : Nat) : Loc :=
  if o < 0x00001000 then registerAt o
  else if o < 0x00002000 then windowAt .key p.keyMax (o - 0x00001000)
  else if o < 0x01000000 then .reserved
  else if o < 0x02000000 then windowAt .msg p.msgMax (o - 0x01000000)
  else if o < 0x03000000 then windowAt .lane1 p.laneMax (o - 0x02000000)
  else if o < 0x04000000 then windowAt .lane2 p.laneMax (o - 0x03000000)
  else if o < 0x05000000 then windowAt .lane3 p.laneMax (o - 0x04000000)
  else .reserved

/-- Where a host address leads. -/
inductive Route where
  /-- Outside `BASE .. BASE + 0x04FF_FFFF`: no location of the core (R60; log 10). -/
  | outside
  /-- In the core's range and not a multiple of 4 (R65). -/
  | misaligned
  /-- The aligned byte offset `o` from `BASE`. -/
  | offset (o : Nat)
deriving DecidableEq, Repr

/-- The route of byte address `a` (R60, R65). -/
def route (p : Params) (a : Nat) : Route :=
  if a < p.base ∨ p.base + 0x05000000 ≤ a then .outside
  else if a % 4 ≠ 0 then .misaligned
  else .offset (a - p.base)

/-- The value a read of a location returns while `BUSY = 0` (R67, R68), and of the locations that answer normally
during a run (R70). Word `i` of a multi-word register is the big-endian image of its bytes `4i .. 4i+3`. -/
def loadWord (s : State) : Loc → Word
  | .cmd => 0
  | .status => s.status.word
  | .keylen => s.keylen
  | .msglen => s.msglen
  | .lanelen => s.lanelen
  | .capKeymax => BitVec.ofNat 32 s.params.keyMax
  | .capMsgmax => BitVec.ofNat 32 s.params.msgMax
  | .out i => wordAt s.out.toList i
  | .hreg i => s.hreg.toList.getD i 0
  | .breg i => wordAt s.breg.toList i
  | .pk i => wordAt s.pk.toList i
  | .tagcat i => wordAt s.tagcat.toList i
  | .window space off => wordAt (memRead s space off 4) 0
  | .reserved => 0

/-- Whether a location answers its normal value during a run (R70). -/
def Loc.readableWhileBusy : Loc → Bool
  | .cmd => true
  | .status => true
  | .keylen => true
  | .msglen => true
  | .lanelen => false
  | .capKeymax => true
  | .capMsgmax => true
  | .out _ => false
  | .hreg _ => false
  | .breg _ => false
  | .pk _ => false
  | .tagcat _ => false
  | .window _ _ => false
  | .reserved => true

/-- The effect of a host write of `d` to a location other than `CMD` while `BUSY = 0`: a writable word takes it (R66),
every other location ignores it (R67). -/
def storeWord (s : State) (loc : Loc) (d : Word) : State :=
  match loc with
  | .keylen => { s with keylen := d }
  | .msglen => { s with msglen := d }
  | .hreg i => { s with hreg := s.hreg.setIfInBounds i d }
  | .breg i => { s with breg := bytesOf 64 (putWord s.breg.toList i d) }
  | .window .key off => memWrite s .key off (ser32 d)
  | .window .msg off => memWrite s .msg off (ser32 d)
  | .window _ _ => s
  | .cmd => s
  | .status => s
  | .lanelen => s
  | .capKeymax => s
  | .capMsgmax => s
  | .out _ => s
  | .pk _ => s
  | .tagcat _ => s
  | .reserved => s

end Sys2Proof.Machine
end

