-- ==== Sys2Proof/Machine/Ops.lean ====
section
/-! DEFINITION. The operations the commands share: the status updates, acceptance, the error entry and the return from
it, job start, the step of a hash unit, key normalisation, the split, the fan-out, the join and completion. -/

namespace Sys2Proof.Machine

/-! ## Units -/

/-- Unit `u` of the state. -/
def State.unit (s : State) : UnitId → HashUnit
  | .u1 => s.hu1
  | .u2 => s.hu2
  | .u3 => s.hu3

/-- The state with unit `u` replaced. -/
def State.setUnit (s : State) (u : UnitId) (x : HashUnit) : State :=
  match u with
  | .u1 => { s with hu1 := x }
  | .u2 => { s with hu2 := x }
  | .u3 => { s with hu3 := x }

/-! ## Error entry and return (the core's exceptions) -/

/-- Error entry, `raise Err(code)`: `ERR`, `ERRCODE` and `DONE` and nothing else (spec/60_exceptions.md R241). -/
def raiseErr (c : ErrCause) (s : State) : State := { s with status := s.status.raised c }

/-- The return from the error state, and the whole effect of CLEAR (spec/45_system.md R223;
spec/60_exceptions.md R243). -/
def clearStatus (s : State) : State := { s with status := s.status.cleared }

/-- A host write during a run: dropped and recorded (spec/20_memory.md R69). -/
def hazard (s : State) : State := { s with status := s.status.hazarded }

/-! ## Acceptance and completion -/

/-- Acceptance of command `i` (spec/45_system.md R220, case 7; spec/30_encoding.md R96). -/
def accept (i : Instr) (s : State) : State :=
  { s with klen := s.keylen, mlen := s.msglen, status := s.status.accepted i.opcode, phase := .exec }

/-- The issue of a legal command other than CLEAR: the first case that applies of 1, 3, 5, 6, 7
(spec/45_system.md R220; spec/60_exceptions.md R240). -/
def issue (i : Instr) (s : State) : State :=
  if s.status.busy then hazard s
  else if s.status.err then s
  else if usesKey i && decide (s.params.keyMax < s.keylen.toNat) then raiseErr .keyLen s
  else if usesMsg i && decide (s.params.msgMax < s.msglen.toNat) then raiseErr .msgLen s
  else accept i s

/-- The issue of CLEAR: cases 1 and 2 (spec/45_system.md R220, R223). -/
def issueClear (s : State) : State := if s.status.busy then hazard s else clearStatus s

/-- The issue of an illegal word: cases 1, 3 and 4 (spec/45_system.md R220; spec/30_encoding.md R94). -/
def issueIllegal (s : State) : State :=
  if s.status.busy then hazard s
  else if s.status.err then s
  else raiseErr .illegalCmd s

/-- `Complete()` (spec/45_system.md R222). -/
def complete (s : State) : State := { s with status := s.status.completed, phase := .idle }

/-- Command `i` is the one in progress: the condition on `LASTOP` of every CTRL step (spec/10_state.md R25). -/
def runs (i : Instr) (s : State) : Bool := s.status.lastop == i.opcode

/-! ## Jobs of a hash unit -/

/-- Job start in phase `ph`: the actions of R150 of spec/41_hash.md. -/
def startJob (ph : UnitPhase) (u : UnitId) (src : Space) (blen : Word) (s : State) : State :=
  s.setUnit u { s.unit u with src := src, blen := blen, bidx := 0, h := iv, phase := ph }

/-- `StartHash(u, src, blen)` (spec/41_hash.md R150). -/
def startHash (u : UnitId) (src : Space) (blen : Word) (s : State) : State := startJob .hash u src blen s

/-- `StartHmac(u, src, blen)` (spec/41_hash.md R150). -/
def startHmac (u : UnitId) (src : Space) (blen : Word) (s : State) : State := startJob .inner u src blen s

/-- `HU[u].PHASE <- IDLE`: CTRL has collected the unit's result. -/
def releaseUnit (u : UnitId) (s : State) : State := s.setUnit u { s.unit u with phase := .idle }

/-- `Body(u)` (spec/41_hash.md R150). -/
def body (s : State) (u : UnitId) : List Byte := memRead s (s.unit u).src 0 (s.unit u).blen.toNat

/-- `Stream(u)`: the sequence the unit is hashing (spec/41_hash.md R150; spec/42_hmac.md R167). -/
def stream (s : State) (u : UnitId) : List Byte :=
  match (s.unit u).phase with
  | .hash => body s u
  | .inner => ipad s.pk ++ body s u
  | .outer => opad s.pk ++ (s.unit u).idig.toList
  | .idle => []
  | .done => []

/-- A unit has an enabled step exactly in these phases (spec/10_state.md R26). -/
def HashUnit.active (x : HashUnit) : Bool :=
  match x.phase with
  | .hash => true
  | .inner => true
  | .outer => true
  | .idle => false
  | .done => false

/-- What one use of its engine on block `b` leaves in a unit's private registers: the schedule in `W[u]` (R24), no
defined value in `V[u]` (R23; log 8). -/
def HashUnit.engineUsed (x : HashUnit) (tick : Nat) (u : UnitId) (b : Block) : HashUnit :=
  { x with w := schedule b, v := freeWorking tick u }

/-- The first part of a unit's step: the padding unit forms the block, the engine applies it, the index advances
(spec/41_hash.md R151; spec/42_hmac.md R167). -/
def compressBlock (s : State) (u : UnitId) : HashUnit :=
  let x := s.unit u
  let b := padBlock (stream s u) x.bidx.toNat
  { x.engineUsed s.tick u b with blk := b, h := engine s.params.accel x.h b, bidx := x.bidx + 1 }

/-- The second part of a unit's step: after the last of the `nblocks(n)` blocks, a plain hash and an outer hash end the
job, an inner hash goes on to the outer hash (spec/41_hash.md R151; spec/42_hmac.md R167). -/
def HashUnit.endBlock (x : HashUnit) (n : Nat) : HashUnit :=
  if x.bidx.toNat = nblocks n then
    match x.phase with
    | .hash => { x with tag := digest x.h, phase := .done }
    | .inner => { x with idig := digest x.h, h := iv, bidx := 0, phase := .outer }
    | .outer => { x with tag := digest x.h, phase := .done }
    | .idle => x
    | .done => x
  else x

/-- The step of hash unit `u`: one block (spec/41_hash.md R151; spec/42_hmac.md R167). A unit with no job in progress
has no enabled step, and its turn changes nothing. -/
def unitStep (u : UnitId) (s : State) : State :=
  if (s.unit u).active then s.setUnit u ((compressBlock s u).endBlock (stream s u).length) else s

/-! ## CTRL actions -/

/-- Step KN-1 (spec/42_hmac.md R162). -/
def keyNormFirst (s : State) : State :=
  if s.klen.toNat ≤ 64 then { s with pk := padKey (keyOperand s), phase := .kndone }
  else { startHash .u1 .key s.klen s with phase := .knhash }

/-- Step KN-2, enabled when HU1 is `DONE` (spec/42_hmac.md R162). -/
def keyNormSecond (s : State) : State :=
  if s.hu1.phase = .done then { releaseUnit .u1 s with pk := padKeyDigest s.hu1.tag, phase := .kndone } else s

/-- `DoSplit()` (spec/43_split.md R190): each lane's bytes below the lane length are written, the rest are kept
(R192). -/
def doSplit (s : State) : State :=
  let l := split (msgOperand s)
  let s := memWrite s .lane1 0 l.lane1
  let s := memWrite s .lane2 0 l.lane2
  let s := memWrite s .lane3 0 l.lane3
  { s with lanelen := BitVec.ofNat 32 (laneLength s.mlen.toNat) }

/-- The fan-out: the three workers start, unit `u` on lane `u` (spec/44_mac.md R203). -/
def fanOut (s : State) : State :=
  let n := s.lanelen
  let s := startHmac .u1 .lane1 n s
  let s := startHmac .u2 .lane2 n s
  let s := startHmac .u3 .lane3 n s
  { s with phase := .fanout }

/-- All three workers have ended: the condition of the join (spec/20_memory.md R81). -/
def allDone (s : State) : Bool :=
  decide (s.hu1.phase = .done) && decide (s.hu2.phase = .done) && decide (s.hu3.phase = .done)

/-- The join, enabled when all three units are `DONE` (spec/44_mac.md R209). -/
def join (s : State) : State :=
  if allDone s then
    let s := { s with tagcat := catTags s.hu1.tag s.hu2.tag s.hu3.tag }
    let s := releaseUnit .u3 (releaseUnit .u2 (releaseUnit .u1 s))
    { startHmac .u1 .tagcat 96 s with phase := .final }
  else s

/-- The last CTRL step of HASH, HMAC and MAC, enabled when HU1 is `DONE`: `OUT <- TAG[1]`, HU1 idle, completion
(spec/41_hash.md R149; spec/42_hmac.md R169; spec/44_mac.md R210). -/
def collect (s : State) : State :=
  if s.hu1.phase = .done then complete { releaseUnit .u1 s with out := s.hu1.tag } else s

end Sys2Proof.Machine
end

