-- ==== Sys2Proof/Machine/HashCommand.lean ====
section
/-! DEFINITION. The command HASH (spec/41_hash.md R149). -/

namespace Sys2Proof.Machine

/-- Step 1 of HASH: `StartHash(1, MSG, MLEN); PHASE <- RUN` (R149). -/
def hashStart (s : State) : State := { startHash .u1 .msg s.mlen s with phase := .run }

/-- `HASH`. -/
def execHash (s : State) : Host.Outcome State Fault Refusal :=
  .next <|
    match s.phase with
    | .idle => issue .hash s
    | .exec => if runs .hash s then hashStart s else s
    | .run => if runs .hash s then collect s else s
    | .knhash => s
    | .kndone => s
    | .fanout => s
    | .final => s

end Sys2Proof.Machine
end

