-- ==== Sys2Proof/Machine/Keyed.lean ====
section
/-! DEFINITION. The commands KEYNORM and HMAC (spec/42_hmac.md R162, R168, R169). -/

namespace Sys2Proof.Machine

/-- The CTRL step of HMAC after key normalisation: `StartHmac(1, MSG, MLEN); PHASE <- RUN` (R169). -/
def hmacStart (s : State) : State := { startHmac .u1 .msg s.mlen s with phase := .run }

/-- `KEYNORM`. -/
def execKeynorm (s : State) : Host.Outcome State Fault Refusal :=
  .next <|
    match s.phase with
    | .idle => issue .keynorm s
    | .exec => if runs .keynorm s then keyNormFirst s else s
    | .knhash => if runs .keynorm s then keyNormSecond s else s
    | .kndone => if runs .keynorm s then complete s else s
    | .run => s
    | .fanout => s
    | .final => s

/-- `HMAC`. -/
def execHmac (s : State) : Host.Outcome State Fault Refusal :=
  .next <|
    match s.phase with
    | .idle => issue .hmac s
    | .exec => if runs .hmac s then keyNormFirst s else s
    | .knhash => if runs .hmac s then keyNormSecond s else s
    | .kndone => if runs .hmac s then hmacStart s else s
    | .run => if runs .hmac s then collect s else s
    | .fanout => s
    | .final => s

end Sys2Proof.Machine
end

