-- ==== Sys2Proof/Machine/MacCommand.lean ====
section
/-! DEFINITION. The command MAC (spec/44_mac.md R202 to R210). -/

namespace Sys2Proof.Machine

/-- `MAC`: key normalisation, split and fan-out in one step, the join, the final HMAC, completion (R207). -/
def execMac (s : State) : Host.Outcome State Fault Refusal :=
  .next <|
    match s.phase with
    | .idle => issue .mac s
    | .exec => if runs .mac s then keyNormFirst s else s
    | .knhash => if runs .mac s then keyNormSecond s else s
    | .kndone => if runs .mac s then fanOut (doSplit s) else s
    | .fanout => if runs .mac s then join s else s
    | .final => if runs .mac s then collect s else s
    | .run => s

end Sys2Proof.Machine
end

