-- ==== Sys2Proof/Machine/Raw.lean ====
section
/-! DEFINITION. The raw commands INIT and COMPRESS (spec/40_compress.md R123, R124).

A meaning says everything CTRL does for its command: at `PHASE = IDLE` the issue of the command, at the instant of the
`CMD` write (spec/45_system.md R220); in a phase of the command's run, the CTRL step of that phase
(spec/45_system.md R221). In a phase where the command has no enabled step CTRL waits and nothing changes (log 12). -/

namespace Sys2Proof.Machine

/-- `HREG <- IV; Complete()` (R123). -/
def initAction (s : State) : State := complete { s with hreg := iv }

/-- `HREG <- compress(HREG, BREG); Complete()` on HU1's engine (R124): of HU1's private registers the engine's own `V`
and `W` are used, `H` and `BLK` are not (log 9). -/
def compressAction (s : State) : State :=
  complete
    { s with
      hreg := engine s.params.accel s.hreg s.breg
      hu1 := s.hu1.engineUsed s.tick .u1 s.breg }

/-- `INIT`. -/
def execInit (s : State) : Host.Outcome State Fault Refusal :=
  .next <|
    match s.phase with
    | .idle => issue .init s
    | .exec => if runs .init s then initAction s else s
    | .knhash => s
    | .kndone => s
    | .run => s
    | .fanout => s
    | .final => s

/-- `COMPRESS`. -/
def execCompress (s : State) : Host.Outcome State Fault Refusal :=
  .next <|
    match s.phase with
    | .idle => issue .compress s
    | .exec => if runs .compress s then compressAction s else s
    | .knhash => s
    | .kndone => s
    | .run => s
    | .fanout => s
    | .final => s

end Sys2Proof.Machine
end

