-- ==== Sys2Proof/Machine/SplitCommand.lean ====
section
/-! DEFINITION. The command SPLIT (spec/43_split.md R190). -/

namespace Sys2Proof.Machine

/-- `SPLIT`: one CTRL step, `DoSplit(); Complete()`. -/
def execSplit (s : State) : Host.Outcome State Fault Refusal :=
  .next <|
    match s.phase with
    | .idle => issue .split s
    | .exec => if runs .split s then complete (doSplit s) else s
    | .knhash => s
    | .kndone => s
    | .run => s
    | .fanout => s
    | .final => s

end Sys2Proof.Machine
end

