-- ==== Sys2Proof/Machine/System.lean ====
section
/-! DEFINITION. The command CLEAR (spec/45_system.md R223). -/

namespace Sys2Proof.Machine

/-- `CLEAR`: its whole effect happens at the instant of the `CMD` write, so it has no CTRL step. -/
def execClear (s : State) : Host.Outcome State Fault Refusal :=
  .next <|
    match s.phase with
    | .idle => issueClear s
    | .exec => s
    | .knhash => s
    | .kndone => s
    | .run => s
    | .fanout => s
    | .final => s

end Sys2Proof.Machine
end

