-- ==== Sys2Proof/Machine/Dispatch.lean ====
section
/-! DEFINITION. The meaning of each command, one arm per constructor. -/

namespace Sys2Proof.Machine

def exec (i : Instr) (s : State) : Host.Outcome State Fault Refusal :=
  match i with
  | .init => Sys2Proof.Machine.execInit s
  | .compress => Sys2Proof.Machine.execCompress s
  | .hash => Sys2Proof.Machine.execHash s
  | .keynorm => Sys2Proof.Machine.execKeynorm s
  | .hmac => Sys2Proof.Machine.execHmac s
  | .split => Sys2Proof.Machine.execSplit s
  | .mac => Sys2Proof.Machine.execMac s
  | .clear => Sys2Proof.Machine.execClear s

end Sys2Proof.Machine
end

