-- ==== Sys2Proof/Machine/Bus.lean ====
section
/-! DEFINITION. The host's transactions (spec/20_memory.md R63 to R70) and the hardware reset
(spec/70_reset_and_hazards.md R260, R261). -/

namespace Sys2Proof.Machine

/-- The state with one more reply of a host transaction recorded (log 11). -/
def State.answer (s : State) (resp : Resp) (datum : Option Word) : State :=
  { s with replies := { resp := resp, datum := datum } :: s.replies }

/-- The issue of the command word `w`: a legal word is its command, any other is illegal
(spec/45_system.md R220; spec/30_encoding.md R94). -/
def command (w : Word) (s : State) : Host.Outcome State Fault Refusal :=
  match decode w with
  | .ok i => exec i s
  | .error _ => .next (issueIllegal s)

/-- A well-aligned write of `d` to a location while `BUSY = 0` (R66, R67; spec/10_state.md R35). -/
def writeLoc (loc : Loc) (d : Word) (s : State) : Host.Outcome State Fault Refusal :=
  match loc with
  | .cmd => command d s
  | other => .next (storeWord s other d)

/-- `HostWr32(a, d)` (R63). -/
def hostWrite (a : Nat) (d : Word) (s : State) : Host.Outcome State Fault Refusal :=
  match route s.params a with
  | .outside => .fault .outsideCore
  | .misaligned => .next (s.answer .error none)
  | .offset o =>
    if s.status.busy then .next (hazard (s.answer .okay none))
    else writeLoc (locate s.params o) d (s.answer .okay none)

/-- The datum of a read that the spec leaves unspecified: a free value (R65, R70; log 1). -/
def freeDatum (s : State) : Word := Config.freeWord s.tick .datum

/-- The datum of a well-aligned read of a location (R67, R68, R70). -/
def readDatum (s : State) (loc : Loc) : Word :=
  if s.status.busy && !loc.readableWhileBusy then freeDatum s else loadWord s loc

/-- `HostRd32(a)` (R63): no read changes anything but the record of replies (R68). -/
def hostRead (a : Nat) (s : State) : Host.Outcome State Fault Refusal :=
  match route s.params a with
  | .outside => .fault .outsideCore
  | .misaligned => .next (s.answer .error (some (freeDatum s)))
  | .offset o => .next (s.answer .okay (some (readDatum s (locate s.params o))))

/-- One turn of `WAIT`: one read of `STATUS`, and the event stays while the datum shows `BUSY = 1`
(spec/30_encoding.md R100; log 18). The state `s` no longer lists the event. -/
def pollStatus (s : State) : State :=
  let t := s.answer .okay (some s.status.word)
  if s.status.busy then { t with host := .wait :: s.host } else t

/-- The hardware reset: the state of R58 and R59; what is outside the core stays (log 17). -/
def hardReset (s : State) : State :=
  { State.afterReset s.params s.tick with host := s.host, replies := s.replies, schedule := s.schedule }

/-- The effect of one event on a state that no longer lists it. -/
def event (e : HostEvent) (s : State) : Host.Outcome State Fault Refusal :=
  match e with
  | .wr a d => hostWrite a d s
  | .rd a => hostRead a s
  | .wait => .next (pollStatus s)
  | .rst => .next (hardReset s)

end Sys2Proof.Machine
end

