-- ==== Sys2Proof/Machine/Agents.lean ====
section
/-! DEFINITION. Which agent moves and what its move does (spec/00_scope.md R13; spec/44_mac.md R208, R211;
spec/70_reset_and_hazards.md R272). -/

namespace Sys2Proof.Machine

/-- HOST's move: its oldest event takes effect (spec/20_memory.md R63). With none to come, nothing happens. -/
def hostMove (s : State) : Host.Outcome State Fault Refusal :=
  match s.host with
  | [] => .next s
  | e :: rest => event e { s with host := rest }

/-- CTRL's move: the step of the command in progress, `LASTOP` naming it (spec/10_state.md R25). At `PHASE = IDLE` CTRL
has no step. -/
def ctrlMove (s : State) : Host.Outcome State Fault Refusal :=
  if s.phase = .idle then .next s
  else
    match decodeOp s.status.lastop with
    | some i => exec i s
    | none => .next s

/-- The move of an agent. An agent with no enabled step changes nothing. -/
def move (a : Agent) (s : State) : Host.Outcome State Fault Refusal :=
  match a with
  | .host => hostMove s
  | .ctrl => ctrlMove s
  | .hu u => .next (unitStep u s)

/-- CTRL has an enabled step: the conditions of the steps of spec/45_system.md R221. -/
def ctrlEnabled (s : State) : Bool :=
  match s.phase with
  | .idle => false
  | .exec => true
  | .knhash => decide (s.hu1.phase = .done)
  | .kndone => true
  | .run => decide (s.hu1.phase = .done)
  | .fanout => allDone s
  | .final => decide (s.hu1.phase = .done)

/-- Whether an agent has an enabled step. -/
def enabled (s : State) : Agent → Bool
  | .host => !s.host.isEmpty
  | .ctrl => ctrlEnabled s
  | .hu u => (s.unit u).active

/-- The agents that have an enabled step. -/
def enabledAgents (s : State) : List Agent := Agent.all.filter (enabled s)

/-- A round of turns: any turns at all, then one turn of each agent that they leave out. Every round gives every agent a
turn, so an agent whose step remains enabled takes it: weak fairness (spec/70_reset_and_hazards.md R272; log 4). -/
def roundOf (tick : Nat) : List Agent :=
  Config.round tick ++ Agent.all.filter fun a => decide (a ∉ Config.round tick)

/-- The turns to come: the schedule, and a new round when it is used up and some agent has an enabled step. -/
def turns (s : State) : List Agent :=
  match s.schedule with
  | a :: rest => a :: rest
  | [] => if (enabledAgents s).isEmpty then [] else roundOf s.tick

/-- Which agent moves next. `none`: nothing is scheduled and nothing is enabled. -/
def nextAgent (s : State) : Option Agent := (turns s).head?

/-- The bookkeeping of a move: its turn is used up and the move is counted. -/
def State.begun (s : State) : State := { s with schedule := (turns s).tail, tick := s.tick + 1 }

/-- One move of the machine. When nothing is enabled the core waits (spec/60_exceptions.md R250;
spec/70_reset_and_hazards.md R262). -/
def nextMove (s : State) : Host.Outcome State Fault Refusal :=
  match nextAgent s with
  | none => .next s
  | some a => move a s.begun

end Sys2Proof.Machine
end

