-- ==== Sys2Proof/Machine/Step.lean ====
section
/-! DEFINITION. One step of the machine, and the state whose next step runs a given command word. -/

namespace Sys2Proof.Machine

/-- One step: one move of one agent (spec/92_eei_decisions.md D19). Its three outcomes are the next state, the fault of
a transaction outside the core, and a refusal (there is none). -/
def step (s : State) : Host.Outcome State Fault Refusal := nextMove s

/-- `s` with HOST's next transaction a write of the command word to `CMD`, and HOST the next agent to move: the next
step issues exactly that word (log 5). -/
def State.withFetchWord (s : State) (nbits w : Nat) : State :=
  { s with
    host := .wr s.params.base (commandWord nbits w) :: s.host
    schedule := .host :: s.schedule }

end Sys2Proof.Machine
end

