-- ==== Sys2Proof/Machine/Script.lean ====
section
/-! DEFINITION. Host scripts: the lines and pseudo-instructions of spec/30_encoding.md R99 and R100, expanded into host
events. -/

namespace Sys2Proof.Machine

/-- A line of a host script. An address is a byte offset from `BASE`. -/
inductive ScriptLine where
  /-- `WR <addr>, <word>`. -/
  | wr (addr : Nat) (d : Word)
  /-- `RD <addr>`. -/
  | rd (addr : Nat)
  /-- `CMD <mnemonic>`. -/
  | cmd (i : Instr)
  /-- `WAIT`. -/
  | wait
  /-- `LOADKEY <hex bytes>`. -/
  | loadKey (bs : List Byte)
  /-- `LOADMSG <hex bytes>`. -/
  | loadMsg (bs : List Byte)
  /-- `LOADBLK <64 hex bytes>`. -/
  | loadBlk (b : Block)
  /-- `LOADH <8 words>`. -/
  | loadH (h : HashState)
  /-- `READOUT`. -/
  | readOut
deriving DecidableEq, Repr

/-- The writes that load `s` at address `a`, whole words, the last one filled with zero bytes (R100). -/
def loadBytes (a : Nat) (s : List Byte) : List HostEvent :=
  (List.range ((s.length + 3) / 4)).map fun i => .wr (a + 4 * i) (wordAt s i)

/-- The host events of one line (R99, R100) for a core at address `base`. -/
def ScriptLine.expand (base : Nat) : ScriptLine → List HostEvent
  | .wr addr d => [.wr (base + addr) d]
  | .rd addr => [.rd (base + addr)]
  | .cmd i => [.wr base (encode i)]
  | .wait => [.wait]
  | .loadKey bs => loadBytes (base + 0x1000) bs ++ [.wr (base + 0x008) (BitVec.ofNat 32 bs.length)]
  | .loadMsg bs => loadBytes (base + 0x01000000) bs ++ [.wr (base + 0x00C) (BitVec.ofNat 32 bs.length)]
  | .loadBlk b => loadBytes (base + 0x080) b.toList
  | .loadH h => (List.range 8).map fun i => .wr (base + 0x040 + 4 * i) (h.toList.getD i 0)
  | .readOut => (List.range 8).map fun i => .rd (base + 0x020 + 4 * i)

/-- The host events of a script, its lines in order (R99). -/
def expandScript (base : Nat) (ls : List ScriptLine) : List HostEvent := ls.flatMap (ScriptLine.expand base)

end Sys2Proof.Machine
end

