-- ==== Sys2Proof/Safety.lean ====
section
/-! DEFINITION. The terms that statements about the machine use: runs, what a safe run is, when operands are loaded,
and the invariant of the core. -/

namespace Sys2Proof.Machine

/-- `k` steps from `s`, stopping at the first fault or refusal: `Host.Core.run` of the core. -/
def steps : Nat → State → Host.Outcome State Fault Refusal
  | 0, s => .next s
  | k + 1, s =>
    match step s with
    | .next t => steps k t
    | .fault r => .fault r
    | .refused r => .refused r

/-- HOST moves next, its oldest event is `e` and `rest` are the events after it. -/
def HostTurn (s : State) (e : HostEvent) (rest : List HostEvent) : Prop :=
  nextAgent s = some .host ∧ s.host = e :: rest

/-- The state in which HOST's oldest event takes effect: the move is counted, and only `rest` is still to come. -/
def State.taken (s : State) (rest : List HostEvent) : State := { s.begun with host := rest }

/-- A safe state: however many steps are taken, the machine does not stop. -/
def SafeRun (s : State) : Prop := ∀ k, ∃ t, steps k s = .next t

/-- A fair run: from every state of it, an agent whose step remains enabled takes a turn (weak fairness,
spec/70_reset_and_hazards.md R272). -/
def FairRun (s : State) : Prop :=
  ∀ (a : Agent) (k : Nat) (t : State), steps k s = .next t →
    (∀ j u, steps j t = .next u → enabled u a = true) → ∃ j u, steps j t = .next u ∧ nextAgent u = some a

/-- An event addresses a location in the core's range (spec/20_memory.md R60). -/
def HostEvent.inRange (p : Params) : HostEvent → Prop
  | .wr a _ => p.base ≤ a ∧ a < p.base + 0x05000000
  | .rd a => p.base ≤ a ∧ a < p.base + 0x05000000
  | .wait => True
  | .rst => True

/-- The first `n` bytes of a space have been written since reset (spec/70_reset_and_hazards.md R263). -/
def Written (s : State) (space : Space) (n : Nat) : Prop := ∀ o, o < n → s.held space o ≠ none

/-- A result is vouched for: `BUSY = 0, DONE = 1, ERR = 0, HAZ = 0` (spec/00_scope.md R14). -/
def ResultValid (s : State) : Prop :=
  s.status.busy = false ∧ s.status.done = true ∧ s.status.err = false ∧ s.status.haz = false

/-- The state right after the acceptance of command `i` (R220), with no reset among the events still to come; HOST may
poll, read, write and issue commands as it likes. -/
def Accepted (i : Instr) (s : State) : Prop :=
  s.phase = .exec ∧ s.status.busy = true ∧ s.status.lastop = i.opcode ∧ ∀ e ∈ s.host, e ≠ .rst

/-- After exactly `k` steps from `s` the machine is in state `t`, the first one with `PHASE = IDLE`. -/
def FirstIdle (k : Nat) (s t : State) : Prop :=
  steps k s = .next t ∧ t.phase = .idle ∧ ∀ j, j < k → ∀ u, steps j s = .next u → u.phase ≠ .idle

/-- What HOST did from `s` to `t`, the core being busy all along: it took events from the front of its list, recorded
replies, and `HAZ` tells whether a well-aligned write was among the events (spec/20_memory.md R69;
spec/60_exceptions.md R236). -/
def HostProgress (s t : State) : Prop :=
  ∃ taken, s.host = taken ++ t.host ∧ s.replies <:+ t.replies ∧
    (t.status.haz = true ↔ s.status.haz = true ∨ ∃ a d, HostEvent.wr a d ∈ taken ∧ a % 4 = 0)

/-- The run that `s` starts ends in the state `result t`, where `t` supplies what `result` leaves open: whenever the
machine first returns to `IDLE`, it is there; and it does return when HOST keeps to the core's address range
(spec/44_mac.md R213; spec/70_reset_and_hazards.md R264, R272). -/
def RunsTo (s : State) (result : State → State) : Prop :=
  (∀ k t, FirstIdle k s t → HostProgress s t ∧ t = result t) ∧
  ((∀ e ∈ s.host, e.inRange s.params) → ∃ k t, FirstIdle k s t)

/-- A buffer in its canonical form, below its capacity (spec/10_state.md R52 to R54). -/
def bufferOk (m : Memory) (cap : Nat) : Prop := Memory.wf m ∧ ∀ c ∈ m, c.1 < cap

/-- The index of the next block of a unit's job is below the number of blocks of its stream (spec/41_hash.md R151;
spec/42_hmac.md R167). -/
def HashUnit.jobOk (x : HashUnit) : Prop :=
  match x.phase with
  | .hash => x.bidx.toNat < nblocks x.blen.toNat
  | .inner => x.bidx.toNat < nblocks (64 + x.blen.toNat)
  | .outer => x.bidx.toNat < nblocks 96
  | .idle => True
  | .done => True

/-- The unit is running or has ended a plain hash of the first `len` bytes of `src`. -/
def HashUnit.hashing (x : HashUnit) (src : Space) (len : Word) : Prop :=
  (x.phase = .hash ∨ x.phase = .done) ∧ x.src = src ∧ x.blen = len

/-- The unit is running or has ended an HMAC over the first `len` bytes of `src`. -/
def HashUnit.macing (x : HashUnit) (src : Space) (len : Word) : Prop :=
  (x.phase = .inner ∨ x.phase = .outer ∨ x.phase = .done) ∧ x.src = src ∧ x.blen = len

/-- All three units are idle. -/
def unitsIdle (s : State) : Prop := s.hu1.phase = .idle ∧ s.hu2.phase = .idle ∧ s.hu3.phase = .idle

/-- The command in progress normalises a key (spec/42_hmac.md R162). -/
def keyed (s : State) : Prop :=
  s.status.lastop = Instr.keynorm.opcode ∨ s.status.lastop = Instr.hmac.opcode ∨ s.status.lastop = Instr.mac.opcode

/-- What each phase says of the command in progress and of the units: the phase table of spec/45_system.md R221. -/
def phaseOk (s : State) : Prop :=
  match s.phase with
  | .idle => unitsIdle s
  | .exec => unitsIdle s ∧ 1 ≤ s.status.lastop.toNat ∧ s.status.lastop.toNat ≤ 7
  | .knhash => keyed s ∧ 64 < s.klen.toNat ∧ s.hu1.hashing .key s.klen ∧ s.hu2.phase = .idle ∧ s.hu3.phase = .idle
  | .kndone => keyed s ∧ unitsIdle s
  | .run =>
    ((s.status.lastop = Instr.hash.opcode ∧ s.hu1.hashing .msg s.mlen) ∨
      (s.status.lastop = Instr.hmac.opcode ∧ s.hu1.macing .msg s.mlen)) ∧
    s.hu2.phase = .idle ∧ s.hu3.phase = .idle
  | .fanout =>
    s.status.lastop = Instr.mac.opcode ∧ s.lanelen.toNat = laneLength s.mlen.toNat ∧
    s.hu1.macing .lane1 s.lanelen ∧ s.hu2.macing .lane2 s.lanelen ∧ s.hu3.macing .lane3 s.lanelen
  | .final =>
    s.status.lastop = Instr.mac.opcode ∧ s.hu1.macing .tagcat 96 ∧ s.hu2.phase = .idle ∧ s.hu3.phase = .idle

/-- The invariant of the core. Every field is a property the spec states of every reachable state. -/
structure Inv (s : State) : Prop where
  /-- The parameters meet the constraints of spec/00_scope.md R7. -/
  params : s.params.wf
  /-- The buffers are in canonical form and below their capacities (spec/10_state.md R52 to R54). -/
  key : bufferOk s.key s.params.keyMax
  msg : bufferOk s.msg s.params.msgMax
  lane1 : bufferOk s.lane1 s.params.laneMax
  lane2 : bufferOk s.lane2 s.params.laneMax
  lane3 : bufferOk s.lane3 s.params.laneMax
  /-- `LANELEN` is 0 or a multiple of 64 (spec/10_state.md R39), and a lane fits its buffer (spec/43_split.md R190). -/
  lanelen : s.lanelen.toNat % 64 = 0 ∧ s.lanelen.toNat ≤ s.params.laneMax
  /-- `PHASE = IDLE` if and only if `STATUS.BUSY = 0` (spec/10_state.md R25). -/
  idle : s.phase = .idle ↔ s.status.busy = false
  /-- `DONE` is 0 while a command runs (spec/10_state.md R31). -/
  doneIdle : s.status.done = true → s.status.busy = false
  /-- No error is raised during a run, and none is pending when one starts (spec/60_exceptions.md R231, R242). -/
  errIdle : s.status.err = true → s.status.busy = false ∧ s.status.done = false
  /-- `ERRCODE` is 0 when `ERR = 0`, and otherwise one of the three codes that are raised (spec/10_state.md R36;
  spec/60_exceptions.md R231). -/
  errcode : if s.status.err then 1 ≤ s.status.errcode.toNat ∧ s.status.errcode.toNat ≤ 3 else s.status.errcode = 0
  /-- `LASTOP` is 0 or an opcode (spec/10_state.md R36). -/
  lastop : s.status.lastop.toNat ≤ 8
  /-- The operands of the command in progress fit the buffers (spec/45_system.md R220, cases 5 and 6). -/
  keyFits : s.status.busy = true → ∀ i, s.status.lastop = i.opcode → usesKey i = true →
    s.klen.toNat ≤ s.params.keyMax
  msgFits : s.status.busy = true → ∀ i, s.status.lastop = i.opcode → usesMsg i = true →
    s.mlen.toNat ≤ s.params.msgMax
  /-- The phase table (spec/45_system.md R221). -/
  phase : phaseOk s
  /-- The jobs of the units. -/
  job1 : s.hu1.jobOk
  job2 : s.hu2.jobOk
  job3 : s.hu3.jobOk

end Sys2Proof.Machine
end

