-- ==== Sys2Proof/Certificates/Slice0/Obligations.lean ====
section
/-! DEFINITION. The statements for the provers, one per entry of OBLIGATIONS.json. Rules are those of spec/. -/

open Sys2Proof Sys2Proof.Machine

/-! ## Commands as words -/

/-- Decoding the word of a command gives the command (R92). -/
def Obligations.DecodeOfEncodeIsTheCommand : Prop := ∀ i : Instr, decode (encode i) = .ok i

/-- The words `0x00000001` to `0x00000008` are the only legal ones, and each is the word of the one command it decodes
to (R91 to R94). -/
def Obligations.LegalWordsAreExactlyTheEight : Prop :=
  ∀ w : Word,
    (∀ i, decode w = .ok i ↔ w = encode i) ∧
    ((∃ i, decode w = .ok i) ↔ 1 ≤ w.toNat ∧ w.toNat ≤ 8)

/-- Words written out from R92 and R93 decode as those rules say. -/
def Obligations.SpecWordsDecode : Prop :=
  decode 0x00000001 = .ok .init ∧ decode 0x00000002 = .ok .compress ∧ decode 0x00000003 = .ok .hash ∧
  decode 0x00000004 = .ok .keynorm ∧ decode 0x00000005 = .ok .hmac ∧ decode 0x00000006 = .ok .split ∧
  decode 0x00000007 = .ok .mac ∧ decode 0x00000008 = .ok .clear ∧
  decode 0x00000000 = .error .noSuchOpcode ∧ decode 0x00000009 = .error .noSuchOpcode ∧
  decode 0x00000011 = .error .reservedBitsSet ∧ decode 0x80000007 = .error .reservedBitsSet

/-! ## A step -/

/-- When HOST moves and its event writes a word that decodes to `i` to `CMD`, the step is the meaning of `i`, at the
state in which the move is counted, the event is used up and its reply `OKAY` is recorded (R35, R220;
that bookkeeping is the model's choice, logs 4, 5 and 11). -/
def Obligations.StepRunsTheDecodedCommand : Prop :=
  ∀ (s : State) (rest : List HostEvent) (w : Word) (i : Instr),
    HostTurn s (.wr s.params.base w) rest → s.params.wf → s.status.busy = false → decode w = .ok i →
    step s = exec i ((s.taken rest).answer .okay none)

/-- When CTRL moves during a run, the step is the meaning of the command that `LASTOP` names; when a hash unit moves,
the step is the unit's step (R25, R26). -/
def Obligations.StepRunsTheAgentThatMoves : Prop :=
  (∀ (s : State) (i : Instr), nextAgent s = some .ctrl → s.phase ≠ .idle → s.status.lastop = i.opcode →
    step s = exec i s.begun) ∧
  (∀ (s : State) (u : UnitId), nextAgent s = some (.hu u) → step s = .next (unitStep u s.begun))

/-- A step never refuses, and it faults exactly when HOST moves with a transaction outside the core's range (log 10:
the model's choice for addresses outside R60's range). -/
def Obligations.StepStopsOnlyOutsideTheCore : Prop :=
  ∀ s : State,
    (∀ r, step s ≠ .refused r) ∧
    (step s = .fault .outsideCore ↔ ∃ e rest, HostTurn s e rest ∧ ¬ e.inRange s.params)

/-- A machine whose host keeps to the core's address range never stops (log 10), and its run is fair: an agent whose
step remains enabled takes it, however the rounds of turns are drawn (R272; log 4). -/
def Obligations.HostInRangeIsSafe : Prop :=
  ∀ s : State, (∀ e ∈ s.host, e.inRange s.params) → SafeRun s ∧ FairRun s

/-! ## Acceptance, errors and hazards -/

/-- A write of `w` to `CMD` does what the first case of R220 that applies says, and nothing else. -/
def Obligations.CommandWriteTakesFirstCase : Prop :=
  ∀ (s : State) (rest : List HostEvent) (w : Word),
    HostTurn s (.wr s.params.base w) rest → s.params.wf → (s.status.busy = false → s.phase = .idle) →
    step s = .next (
      let s0 := (s.taken rest).answer .okay none
      if s.status.busy = true then { s0 with status := { s.status with haz := true } }
      else if w = 0x00000008 then
        { s0 with
          status := { s.status with err := false, errcode := 0, haz := false, done := false, lastop := 0x8 } }
      else if s.status.err = true then s0
      else if w = 0 ∨ 8 < w.toNat then
        { s0 with status := { s.status with err := true, errcode := 1, done := false } }
      else if (w = 4 ∨ w = 5 ∨ w = 7) ∧ s.params.keyMax < s.keylen.toNat then
        { s0 with status := { s.status with err := true, errcode := 2, done := false } }
      else if (w = 3 ∨ w = 5 ∨ w = 6 ∨ w = 7) ∧ s.params.msgMax < s.msglen.toNat then
        { s0 with status := { s.status with err := true, errcode := 3, done := false } }
      else
        { s0 with
          klen := s.keylen
          mlen := s.msglen
          status := { s.status with lastop := w.extractLsb' 0 4, done := false, busy := true }
          phase := .exec })

/-- An error arises only at a write to `CMD` while `BUSY = 0` (R231). -/
def Obligations.ErrorsAriseOnlyAtCommandWrites : Prop :=
  ∀ s t : State, step s = .next t → s.status.err = false → t.status.err = true →
    s.status.busy = false ∧ ∃ w rest, HostTurn s (.wr s.params.base w) rest

/-- While `ERR = 1`, every step keeps `ERR` and the first error's code, but for a reset or a write of CLEAR to `CMD`
(R32, R242, R243). -/
def Obligations.FirstErrorStaysUntilClearOrReset : Prop :=
  ∀ s t : State, step s = .next t → s.status.err = true →
    (t.status.err = true ∧ t.status.errcode = s.status.errcode) ∨
    ∃ rest, HostTurn s (.wr s.params.base 0x00000008) rest ∨ HostTurn s .rst rest

/-- `HAZ` rises only at a host write while `BUSY = 1`, and falls only at a reset or at a write of CLEAR to `CMD` while
`BUSY = 0` (R33). -/
def Obligations.HazardRisesAndFallsAsStated : Prop :=
  ∀ s t : State, step s = .next t →
    (s.status.haz = false → t.status.haz = true →
      s.status.busy = true ∧ ∃ a d rest, HostTurn s (.wr a d) rest) ∧
    (s.status.haz = true → t.status.haz = false →
      ∃ rest, HostTurn s .rst rest ∨
        (s.status.busy = false ∧ HostTurn s (.wr s.params.base 0x00000008) rest))

/-- `BUSY` rises only at a write of one of the seven words `0x1` to `0x7` to `CMD` with `ERR = 0`, and then `PHASE` is
`EXEC`; it falls only with `DONE` rising and `PHASE` at `IDLE`, or at a reset (R30, R222). -/
def Obligations.BusyRisesAndFallsAsStated : Prop :=
  ∀ s t : State, step s = .next t →
    (s.status.busy = false → t.status.busy = true →
      s.status.err = false ∧ t.phase = .exec ∧
      ∃ w rest, HostTurn s (.wr s.params.base w) rest ∧ 1 ≤ w.toNat ∧ w.toNat ≤ 7) ∧
    (s.status.busy = true → t.status.busy = false →
      t.phase = .idle ∧ (t.status.done = true ∨ ∃ rest, HostTurn s .rst rest))

/-! ## Host transactions -/

/-- A misaligned transaction answers `ERROR` and changes no state of the core: only the host's own record of events and
replies moves on (R65). The datum of the read is a free value (log 1). -/
def Obligations.MisalignedTransactionChangesNothing : Prop :=
  ∀ (s : State) (rest : List HostEvent) (a : Nat) (d : Word),
    s.params.base ≤ a → a < s.params.base + 0x05000000 → a % 4 ≠ 0 →
    (HostTurn s (.wr a d) rest → step s = .next ((s.taken rest).answer .error none)) ∧
    (HostTurn s (.rd a) rest →
      step s = .next ((s.taken rest).answer .error (some (freeDatum (s.taken rest)))))

/-- While `BUSY = 1` every well-aligned host write is dropped with `OKAY` and sets `HAZ` (R69). -/
def Obligations.WriteDuringRunIsDropped : Prop :=
  ∀ (s : State) (rest : List HostEvent) (a : Nat) (d : Word),
    HostTurn s (.wr a d) rest → s.params.base ≤ a → a < s.params.base + 0x05000000 → a % 4 = 0 →
    s.status.busy = true →
    step s = .next { (s.taken rest).answer .okay none with status := { s.status with haz := true } }

/-- A read changes nothing but the record of events and replies, whatever its address and whether or not a command
runs (R68, R70). A turn of `WAIT` is one read of `STATUS`: it answers the status word, and the event stays while
`BUSY = 1` (R36, R100; the event is the model's, log 18). -/
def Obligations.ReadsChangeNothing : Prop :=
  (∀ (s t : State) (rest : List HostEvent) (a : Nat),
    HostTurn s (.rd a) rest → step s = .next t → t = { s.taken rest with replies := t.replies }) ∧
  (∀ (s : State) (rest : List HostEvent), HostTurn s .wait rest →
    step s = .next
      { s.taken rest with
        host := if s.status.busy = true then .wait :: rest else rest
        replies := { resp := .okay, datum := some s.status.word } :: s.replies })

/-- The answer of every aligned read, offset by offset (R34, R61): `OKAY` with the location's value while `BUSY = 0`;
during a run `CMD`, `STATUS`, the lengths, the capacities and reserved offsets answer as before, and every other location
answers a free value; nothing else changes (R22, R45 to R48, R67, R68, R70). The free value is the model's (log 1); so is
what a never-written location answers while `BUSY = 0`: the array's one value (log 2) or a free byte (log 3, in
`readByte`). -/
def Obligations.ReadAnswersValueOrFreeDatum : Prop :=
  ∀ (s : State) (rest : List HostEvent) (o : Nat),
    HostTurn s (.rd (s.params.base + o)) rest → s.params.wf → o < 0x05000000 → o % 4 = 0 →
    let s0 := s.taken rest
    let always := fun w : Word => step s = .next (s0.answer .okay (some w))
    let idle := fun w : Word => always (if s.status.busy = true then freeDatum s0 else w)
    let byte := fun space off => readByte s0 space off
    let word := fun space off =>
      be32 (byte space off) (byte space (off + 1)) (byte space (off + 2)) (byte space (off + 3))
    (o = 0x000 → always 0) ∧
    (o = 0x004 → always s.status.word) ∧
    (o = 0x008 → always s.keylen) ∧
    (o = 0x00C → always s.msglen) ∧
    (o = 0x010 → idle s.lanelen) ∧
    (o = 0x014 → always (BitVec.ofNat 32 s.params.keyMax)) ∧
    (o = 0x018 → always (BitVec.ofNat 32 s.params.msgMax)) ∧
    (∀ i : Fin 8, o = 0x020 + 4 * i.val →
      idle (be32 s.out[4 * i.val] s.out[4 * i.val + 1] s.out[4 * i.val + 2] s.out[4 * i.val + 3])) ∧
    (∀ i : Fin 8, o = 0x040 + 4 * i.val → idle s.hreg[i]) ∧
    (∀ i : Fin 16, o = 0x080 + 4 * i.val →
      idle (be32 s.breg[4 * i.val] s.breg[4 * i.val + 1] s.breg[4 * i.val + 2] s.breg[4 * i.val + 3])) ∧
    (∀ i : Fin 16, o = 0x100 + 4 * i.val →
      idle (be32 s.pk[4 * i.val] s.pk[4 * i.val + 1] s.pk[4 * i.val + 2] s.pk[4 * i.val + 3])) ∧
    (∀ i : Fin 24, o = 0x140 + 4 * i.val →
      idle (be32 s.tagcat[4 * i.val] s.tagcat[4 * i.val + 1] s.tagcat[4 * i.val + 2] s.tagcat[4 * i.val + 3])) ∧
    (∀ off, o = 0x00001000 + off → off < s.params.keyMax → idle (word .key off)) ∧
    (∀ off, o = 0x01000000 + off → off < s.params.msgMax → idle (word .msg off)) ∧
    (∀ off, o = 0x02000000 + off → off < s.params.msgMax / 2 → idle (word .lane1 off)) ∧
    (∀ off, o = 0x03000000 + off → off < s.params.msgMax / 2 → idle (word .lane2 off)) ∧
    (∀ off, o = 0x04000000 + off → off < s.params.msgMax / 2 → idle (word .lane3 off)) ∧
    (o = 0x01C ∨ 0x060 ≤ o ∧ o < 0x080 ∨ 0x0C0 ≤ o ∧ o < 0x100 ∨ 0x1A0 ≤ o ∧ o < 0x1000 ∨
      0x00001000 + s.params.keyMax ≤ o ∧ o < 0x01000000 ∨ 0x01000000 + s.params.msgMax ≤ o ∧ o < 0x02000000 ∨
      0x02000000 + s.params.msgMax / 2 ≤ o ∧ o < 0x03000000 ∨
      0x03000000 + s.params.msgMax / 2 ≤ o ∧ o < 0x04000000 ∨ 0x04000000 + s.params.msgMax / 2 ≤ o → always 0)

/-- The bits of the word that a read of `STATUS` returns (R36). -/
def Obligations.StatusWordHoldsTheFields : Prop :=
  ∀ t : Status,
    t.word.extractLsb' 0 1 = BitVec.ofBool t.busy ∧ t.word.extractLsb' 1 1 = BitVec.ofBool t.done ∧
    t.word.extractLsb' 2 1 = BitVec.ofBool t.err ∧ t.word.extractLsb' 3 1 = BitVec.ofBool t.haz ∧
    t.word.extractLsb' 4 4 = t.errcode ∧ t.word.extractLsb' 8 4 = t.lastop ∧ t.word.extractLsb' 12 20 = 0

/-- The windows of the address map: below its capacity a buffer's byte offset is its window offset, at and past it the
offset is reserved (R61, R62). -/
def Obligations.WindowsMapTheBuffers : Prop :=
  ∀ (p : Params) (o : Nat),
    (o < 0x1000 → locate p (0x00001000 + o) = if o < p.keyMax then .window .key o else .reserved) ∧
    (o < 0x1000000 → locate p (0x01000000 + o) = if o < p.msgMax then .window .msg o else .reserved) ∧
    (o < 0x1000000 → locate p (0x02000000 + o) = if o < p.msgMax / 2 then .window .lane1 o else .reserved) ∧
    (o < 0x1000000 → locate p (0x03000000 + o) = if o < p.msgMax / 2 then .window .lane2 o else .reserved) ∧
    (o < 0x1000000 → locate p (0x04000000 + o) = if o < p.msgMax / 2 then .window .lane3 o else .reserved) ∧
    (0x2000 ≤ o → o < 0x1000000 → locate p o = .reserved)

/-- A write to a word of the `KEY` or `MSG` window while `BUSY = 0` stores its four bytes big-endian, leaves every other
byte of every space and every register as it was, and the next read of that address returns the datum (R66, R68). -/
def Obligations.WindowWriteReadsBack : Prop :=
  ∀ (s : State) (rest : List HostEvent) (sched : List Agent) (space : Space) (off : Nat) (d : Word),
    s.params.wf → s.status.busy = false → off % 4 = 0 →
    (space = .key ∧ off < s.params.keyMax ∨ space = .msg ∧ off < s.params.msgMax) →
    let a := s.params.base + (if space = .key then 0x00001000 else 0x01000000) + off
    s.host = .wr a d :: .rd a :: rest → s.schedule = .host :: .host :: sched →
    ∃ t u, step s = .next t ∧ step t = .next u ∧
      t = { s with
            key := t.key, msg := t.msg, host := .rd a :: rest, schedule := .host :: sched, tick := s.tick + 1
            replies := { resp := .okay, datum := none } :: s.replies } ∧
      t.held space off = some (d.extractLsb' 24 8) ∧ t.held space (off + 1) = some (d.extractLsb' 16 8) ∧
      t.held space (off + 2) = some (d.extractLsb' 8 8) ∧ t.held space (off + 3) = some (d.extractLsb' 0 8) ∧
      (∀ space' o', ¬ (space' = space ∧ off ≤ o' ∧ o' < off + 4) → t.held space' o' = s.held space' o') ∧
      u.replies = { resp := .okay, datum := some d } :: t.replies

/-- A write to a writable register while `BUSY = 0` stores the datum in it and nowhere else: `KEYLEN`, `MSGLEN`, one
word of `HREG`, or the four bytes of one word of `BREG`, big-endian (R37, R38, R66, R72). -/
def Obligations.RegisterWriteTakesTheDatum : Prop :=
  ∀ (s : State) (rest : List HostEvent) (o : Nat) (d : Word),
    HostTurn s (.wr (s.params.base + o) d) rest → s.params.wf → s.status.busy = false →
    let s0 := (s.taken rest).answer .okay none
    (o = 0x008 → step s = .next { s0 with keylen := d }) ∧
    (o = 0x00C → step s = .next { s0 with msglen := d }) ∧
    (∀ i : Fin 8, o = 0x040 + 4 * i.val → step s = .next { s0 with hreg := s.hreg.set i.val d }) ∧
    (∀ i : Fin 16, o = 0x080 + 4 * i.val →
      ∃ b, step s = .next { s0 with breg := b } ∧
        ∀ j : Fin 64, b[j] = if j.val / 4 = i.val then byteAt (ser32 d) (j.val % 4) else s.breg[j])

/-- A write to a reserved offset, a read-only register or a lane window while `BUSY = 0` answers `OKAY` and changes
nothing (R62, R67). -/
def Obligations.ReadOnlyWritesAreIgnored : Prop :=
  ∀ (s : State) (rest : List HostEvent) (o : Nat) (d : Word),
    HostTurn s (.wr (s.params.base + o) d) rest → s.params.wf → s.status.busy = false →
    o < 0x05000000 → o % 4 = 0 →
    (match locate s.params o with
      | .cmd => False
      | .keylen => False
      | .msglen => False
      | .hreg _ => False
      | .breg _ => False
      | .window .key _ => False
      | .window .msg _ => False
      | _ => True) →
    step s = .next ((s.taken rest).answer .okay none)

/-- The pseudo-instruction `LOADMSG`, run by HOST alone on an idle core, leaves the bytes in `MSG` and their number in
`MSGLEN` (R64, R66, R99, R100). -/
def Obligations.LoadMessageScriptFillsTheBuffer : Prop :=
  ∀ (s : State) (bs : List Byte), s.params.wf → s.status.busy = false → bs.length ≤ s.params.msgMax →
    s.host = (ScriptLine.loadMsg bs).expand s.params.base → s.schedule = List.replicate s.host.length .host →
    ∃ t, steps s.host.length s = .next t ∧ t.host = [] ∧ t.msglen.toNat = bs.length ∧
      (∀ o, o < bs.length → t.held .msg o = bs[o]?) ∧
      (∀ o, 4 * ((bs.length + 3) / 4) ≤ o → t.held .msg o = s.held .msg o) ∧
      t = { s with
            msg := t.msg, msglen := t.msglen, host := [], replies := t.replies, schedule := []
            tick := s.tick + s.host.length }

/-! ## The compression engine -/

/-- The message schedule is the block's sixteen big-endian words followed by the recurrence (R111, R112). -/
def Obligations.ScheduleFollowsTheRecurrence : Prop :=
  ∀ (b : Block) (t : Fin 64),
    (∀ h : t.val < 16,
      (schedule b)[t] =
        be32 (b[4 * t.val]'(by omega)) (b[4 * t.val + 1]'(by omega)) (b[4 * t.val + 2]'(by omega))
          (b[4 * t.val + 3]'(by omega))) ∧
    (16 ≤ t.val →
      (schedule b)[t] =
        smallSigma1 ((schedule b)[t.val - 2]'(by omega)) + (schedule b)[t.val - 7]'(by omega) +
          smallSigma0 ((schedule b)[t.val - 15]'(by omega)) + (schedule b)[t.val - 16]'(by omega))

/-- Both implementations of the compression step return the value of the rules (R122). -/
def Obligations.EngineFormsAgree : Prop :=
  ∀ (a : Accel) (s : HashState) (b : Block), engine a s b = compress s b

/-- INIT: acceptance whatever the lengths hold, and one CTRL step that loads the initialisation vector (R116, R123). -/
def Obligations.InitLoadsTheVector : Prop :=
  (∀ s : State, s.phase = .idle → s.status.busy = false → s.status.err = false →
    exec .init s = .next
      { s with
        klen := s.keylen, mlen := s.msglen, phase := .exec
        status := { s.status with lastop := 0x1, done := false, busy := true } }) ∧
  (∀ s : State, s.phase = .exec → s.status.lastop = 0x1 →
    exec .init s = .next
      { s with
        hreg := #v[0x6a09e667, 0xbb67ae85, 0x3c6ef372, 0xa54ff53a, 0x510e527f, 0x9b05688c, 0x1f83d9ab, 0x5be0cd19]
        status := { s.status with busy := false, done := true }
        phase := .idle })

/-- COMPRESS: acceptance whatever the lengths hold, and one CTRL step that applies the compression function of the rules
to `HREG` and `BREG`, in either build; `BREG` is kept, and of HU1's private registers only `V` and `W` may change (R124;
log 9). -/
def Obligations.CompressAppliesTheFunction : Prop :=
  (∀ s : State, s.phase = .idle → s.status.busy = false → s.status.err = false →
    exec .compress s = .next
      { s with
        klen := s.keylen, mlen := s.msglen, phase := .exec
        status := { s.status with lastop := 0x2, done := false, busy := true } }) ∧
  (∀ s : State, s.phase = .exec → s.status.lastop = 0x2 →
    ∃ t, exec .compress s = .next t ∧
      t = { s with
            hreg := compress s.hreg s.breg
            status := { s.status with busy := false, done := true }
            phase := .idle
            hu1 := { s.hu1 with v := t.hu1.v, w := t.hu1.w } })

/-! ## Padding and the hash -/

/-- The number of blocks of the padded stream (R145). -/
def Obligations.BlockCountFormula : Prop :=
  ∀ n : Nat,
    nblocks n = (if n % 64 ≤ 55 then n / 64 + 1 else n / 64 + 2) ∧ nblocks n = (n + 8) / 64 + 1 ∧ 1 ≤ nblocks n

/-- The padding unit's blocks are those of R146, and in order they are the stream, the byte `0x80`, the least number of
zero bytes that fills the last block, and the length field (R142, R143, R146). -/
def Obligations.PaddedBlocksSpellTheStream : Prop :=
  ∀ s : List Byte,
    (∀ i, i < nblocks s.length →
      (padBlock s i).toList =
        if i < s.length / 64 then (s.drop (64 * i)).take 64
        else if s.length % 64 ≤ 55 then
          s.drop (64 * (s.length / 64)) ++ [0x80] ++ zeros (55 - s.length % 64) ++
            ser64 (BitVec.ofNat 64 (8 * s.length))
        else if i = s.length / 64 then s.drop (64 * (s.length / 64)) ++ [0x80] ++ zeros (63 - s.length % 64)
        else zeros 56 ++ ser64 (BitVec.ofNat 64 (8 * s.length))) ∧
    ∃ z, z < 64 ∧ (s.length + 1 + z + 8) % 64 = 0 ∧
      (List.range (nblocks s.length)).flatMap (fun i => (padBlock s i).toList) =
        s ++ [0x80] ++ zeros z ++ ser64 (BitVec.ofNat 64 (8 * s.length))

/-- The digest is the eight words written out big-endian, word 0 first (R74, R148), so word `i` of a register that holds
it is word `i` of the HashState (R45). -/
def Obligations.DigestIsBigEndianWords : Prop :=
  ∀ s : HashState,
    (digest s).toList = s.toList.flatMap ser32 ∧ ∀ i : Fin 8, wordAt (digest s).toList i.val = s[i]

/-- The CTRL steps of HASH: step 1 starts the job on HU1, step 2 collects the result; both change nothing else
(R149, R150, R222). -/
def Obligations.HashStepsStartAndCollect : Prop :=
  ∀ s : State, s.status.lastop = 0x3 →
    (s.phase = .exec →
      exec .hash s = .next
        { s with
          hu1 := { s.hu1 with src := .msg, blen := s.mlen, bidx := 0, h := iv, phase := .hash }
          phase := .run }) ∧
    (s.phase = .run → s.hu1.phase = .done →
      exec .hash s = .next
        { s with
          out := s.hu1.tag
          hu1 := { s.hu1 with phase := .idle }
          status := { s.status with busy := false, done := true }
          phase := .idle })

/-- The step of a unit in phase `HASH` (R151). The engine's own registers `V` and `W` are left out of what is said. -/
def Obligations.UnitHashStepIsOneBlock : Prop :=
  ∀ (s : State) (u : UnitId), (s.unit u).phase = .hash →
    let x := s.unit u
    let m := memRead s x.src 0 x.blen.toNat
    let b := padBlock m x.bidx.toNat
    let h' := compress x.h b
    let y := (unitStep u s).unit u
    unitStep u s = s.setUnit u y ∧
    y = { x with
          v := y.v, w := y.w, blk := b, h := h', bidx := x.bidx + 1
          tag := if (x.bidx + 1).toNat = nblocks x.blen.toNat then digest h' else x.tag
          phase := if (x.bidx + 1).toNat = nblocks x.blen.toNat then .done else .hash }

/-- A hash job takes exactly `nblocks` unit steps and leaves the hash of its body in `TAG[u]` (R147, R150, R151). -/
def Obligations.HashJobComputesTheHash : Prop :=
  ∀ (s : State) (u : UnitId) (src : Space) (blen : Word),
    let run := fun k => (unitStep u)^[k] (startHash u src blen s)
    (∀ k, k < nblocks blen.toNat → ((run k).unit u).phase = .hash) ∧
    ((run (nblocks blen.toNat)).unit u).phase = .done ∧
    ((run (nblocks blen.toNat)).unit u).tag = sha256 (memRead s src 0 blen.toNat)

/-- The whole run of HASH, whatever the schedule and whatever HOST does meanwhile but a reset: it completes, and when it
first returns to `IDLE`, `OUT` is the hash of the message, `HAZ` tells whether HOST wrote, and every other visible
location is as it was (R69, R149, R213, R221, R236, R263 to R265, R272; that HOST keeps to the address range is asked for
completion alone, log 10). -/
def Obligations.HashRunDeliversTheDigest : Prop :=
  ∀ s : State, Inv s → Accepted .hash s → Written s .msg s.mlen.toNat →
    RunsTo s fun t =>
      { s with
        out := sha256 (msgOperand s)
        status := { s.status with busy := false, done := true, haz := t.status.haz }
        phase := .idle
        hu1 := t.hu1, host := t.host, replies := t.replies, schedule := t.schedule, tick := t.tick }

/-! ## Key normalisation and HMAC -/

/-- Steps KN-1 and KN-2 of every command that uses the key (R162). -/
def Obligations.KeyNormalisationSteps : Prop :=
  ∀ (i : Instr) (s : State), i = .keynorm ∨ i = .hmac ∨ i = .mac → s.status.lastop = i.opcode →
    (s.phase = .exec → s.klen.toNat ≤ 64 →
      exec i s = .next
        { s with
          pk := bytesOf 64 (memRead s .key 0 s.klen.toNat ++ zeros (64 - s.klen.toNat))
          phase := .kndone }) ∧
    (s.phase = .exec → 64 < s.klen.toNat →
      exec i s = .next
        { s with
          hu1 := { s.hu1 with src := .key, blen := s.klen, bidx := 0, h := iv, phase := .hash }
          phase := .knhash }) ∧
    (s.phase = .knhash → s.hu1.phase = .done →
      exec i s = .next
        { s with
          pk := bytesOf 64 (s.hu1.tag.toList ++ zeros 32)
          hu1 := { s.hu1 with phase := .idle }
          phase := .kndone })

/-- The other CTRL steps of KEYNORM and HMAC (R168, R169, R222). -/
def Obligations.KeynormAndHmacSteps : Prop :=
  ∀ s : State,
    (s.phase = .kndone → s.status.lastop = 0x4 →
      exec .keynorm s = .next { s with status := { s.status with busy := false, done := true }, phase := .idle }) ∧
    (s.phase = .kndone → s.status.lastop = 0x5 →
      exec .hmac s = .next
        { s with
          hu1 := { s.hu1 with src := .msg, blen := s.mlen, bidx := 0, h := iv, phase := .inner }
          phase := .run }) ∧
    (s.phase = .run → s.status.lastop = 0x5 → s.hu1.phase = .done →
      exec .hmac s = .next
        { s with
          out := s.hu1.tag
          hu1 := { s.hu1 with phase := .idle }
          status := { s.status with busy := false, done := true }
          phase := .idle })

/-- Normalising a PaddedKey changes nothing, and an HMAC under the PaddedKey is the HMAC under the key (R170). -/
def Obligations.NormaliseIsIdempotent : Prop :=
  ∀ m k : List Byte,
    normalize (normalize k).toList = normalize k ∧ hmac m (normalize k).toList = hmac m k

/-- The outer hash takes two blocks, the second being the inner digest, `0x80`, 23 zero bytes and the length 768
(R166). -/
def Obligations.OuterHashIsTwoBlocks : Prop :=
  ∀ (pk : PaddedKey) (d : Digest),
    (opad pk ++ d.toList).length = 96 ∧ nblocks 96 = 2 ∧
    (padBlock (opad pk ++ d.toList) 0).toList = opad pk ∧
    (padBlock (opad pk ++ d.toList) 1).toList = d.toList ++ [0x80] ++ zeros 23 ++ [0, 0, 0, 0, 0, 0, 3, 0]

/-- The step of a unit in phase `INNER` or `OUTER` (R167). The engine's own registers `V` and `W` are left out of what
is said. -/
def Obligations.UnitHmacStepIsOneBlock : Prop :=
  ∀ (s : State) (u : UnitId),
    let x := s.unit u
    let y := (unitStep u s).unit u
    (x.phase = .inner →
      let m := ipad s.pk ++ memRead s x.src 0 x.blen.toNat
      let b := padBlock m x.bidx.toNat
      let h' := compress x.h b
      unitStep u s = s.setUnit u y ∧
      y = if (x.bidx + 1).toNat = nblocks (64 + x.blen.toNat)
          then { x with v := y.v, w := y.w, blk := b, idig := digest h', h := iv, bidx := 0, phase := .outer }
          else { x with v := y.v, w := y.w, blk := b, h := h', bidx := x.bidx + 1 }) ∧
    (x.phase = .outer →
      let b := padBlock (opad s.pk ++ x.idig.toList) x.bidx.toNat
      let h' := compress x.h b
      unitStep u s = s.setUnit u y ∧
      y = if (x.bidx + 1).toNat = nblocks 96
          then { x with v := y.v, w := y.w, blk := b, h := h', bidx := x.bidx + 1, tag := digest h', phase := .done }
          else { x with v := y.v, w := y.w, blk := b, h := h', bidx := x.bidx + 1 })

/-- An HMAC job takes exactly `nblocks(64 + n) + 2` unit steps and leaves the tag of its body under `PK` in `TAG[u]`
(R165, R166, R167). -/
def Obligations.HmacJobComputesTheTag : Prop :=
  ∀ (s : State) (u : UnitId) (src : Space) (blen : Word),
    let run := fun k => (unitStep u)^[k] (startHmac u src blen s)
    let n := nblocks (64 + blen.toNat) + 2
    (∀ k, k < n → ((run k).unit u).phase = .inner ∨ ((run k).unit u).phase = .outer) ∧
    ((run n).unit u).phase = .done ∧
    ((run n).unit u).tag = hmacPk (memRead s src 0 blen.toNat) s.pk

/-- The whole run of KEYNORM, whatever the schedule and whatever HOST does meanwhile but a reset: it completes, and when
it first returns to `IDLE`, `PK` is the PaddedKey of the key, `HAZ` tells whether HOST wrote, and every other visible
location is as it was (R69, R161, R162, R168, R236, R264, R265, R272; for completion HOST keeps to the address range,
log 10). -/
def Obligations.KeynormRunDeliversThePaddedKey : Prop :=
  ∀ s : State, Inv s → Accepted .keynorm s → Written s .key s.klen.toNat →
    RunsTo s fun t =>
      { s with
        pk := normalize (keyOperand s)
        status := { s.status with busy := false, done := true, haz := t.status.haz }
        phase := .idle
        hu1 := t.hu1, host := t.host, replies := t.replies, schedule := t.schedule, tick := t.tick }

/-- The whole run of HMAC, whatever the schedule and whatever HOST does meanwhile but a reset: it completes, and when it
first returns to `IDLE`, `PK` is the PaddedKey, `OUT` the tag of the message under the key, `HAZ` tells whether HOST
wrote, and every other visible location is as it was (R69, R160, R167, R169, R236, R264, R265, R272; for completion HOST
keeps to the address range, log 10). -/
def Obligations.HmacRunDeliversTheTag : Prop :=
  ∀ s : State, Inv s → Accepted .hmac s → Written s .key s.klen.toNat → Written s .msg s.mlen.toNat →
    RunsTo s fun t =>
      { s with
        pk := normalize (keyOperand s)
        out := hmac (msgOperand s) (keyOperand s)
        status := { s.status with busy := false, done := true, haz := t.status.haz }
        phase := .idle
        hu1 := t.hu1, host := t.host, replies := t.replies, schedule := t.schedule, tick := t.tick }

/-! ## The lane splitter -/

/-- The three lanes have the lane length (R181), and Lane3 is the XOR of Lane1 and Lane2 at every offset (R188). -/
def Obligations.LanesHaveOneLengthAndXor : Prop :=
  ∀ m : List Byte,
    (split m).lane3 = xorBytes (split m).lane1 (split m).lane2 ∧
    (split m).lane1.length = laneLength m.length ∧ (split m).lane2.length = laneLength m.length ∧
    (split m).lane3.length = laneLength m.length ∧
    laneLength m.length = (if m.length = 0 then 64 else 64 * ((m.length + 127) / 128)) ∧
    laneLength m.length =
      (if m.length % 128 = 0 ∧ 0 < m.length then 64 * (m.length / 128) else 64 * (m.length / 128 + 1)) ∧
    laneLength m.length % 64 = 0 ∧ laneLength m.length ≠ 0

/-- The closed form of the split: the message extended with zeros, cut into macro-blocks (R187). -/
def Obligations.SplitHasTheClosedForm : Prop :=
  ∀ (m : List Byte) (o : Nat), o < laneLength m.length →
    (split m).lane1[o]? = some (byteAt m (128 * (o / 64) + o % 64)) ∧
    (split m).lane2[o]? = some (byteAt m (128 * (o / 64) + 64 + o % 64)) ∧
    (split m).lane3[o]? = some (byteAt m (128 * (o / 64) + o % 64) ^^^ byteAt m (128 * (o / 64) + 64 + o % 64))

/-- The empty message splits into three lanes of 64 zero bytes (R189). A remainder of exactly 64 bytes leaves Lane2's last
chunk zero and Lane3's equal to Lane1's; one of 63 bytes is copied to Lane1 and Lane3; one of 65 bytes puts its last byte
in Lane2 and XORs it into Lane3 (R186). -/
def Obligations.SplitBoundaryCases : Prop :=
  split [] = { lane1 := zeros 64, lane2 := zeros 64, lane3 := zeros 64 } ∧
  ∀ (m : List Byte) (q : Nat),
    (m.length = 128 * q + 64 →
      (split m).lane1.drop (64 * q) = m.drop (128 * q) ∧ (split m).lane2.drop (64 * q) = zeros 64 ∧
      (split m).lane3.drop (64 * q) = m.drop (128 * q)) ∧
    (m.length = 128 * q + 63 →
      (split m).lane1.drop (64 * q) = m.drop (128 * q) ++ [0x00] ∧ (split m).lane2.drop (64 * q) = zeros 64 ∧
      (split m).lane3.drop (64 * q) = m.drop (128 * q) ++ [0x00]) ∧
    (m.length = 128 * q + 65 →
      (split m).lane1.drop (64 * q) = (m.drop (128 * q)).take 64 ∧
      (split m).lane2.drop (64 * q) = [byteAt m (128 * q + 64)] ++ zeros 63 ∧
      (split m).lane3.drop (64 * q) =
        [byteAt m (128 * q) ^^^ byteAt m (128 * q + 64)] ++ (m.drop (128 * q + 1)).take 63)

/-- Messages with the same lane length and the same zero-extension have the same lanes, tags and FinalMAC; appending
zeros within the last macro-block changes nothing; up to 128 zero bytes split as the empty message does (R191). -/
def Obligations.TrailingZerosAreInvisible : Prop :=
  (∀ m n k : List Byte, laneLength m.length = laneLength n.length →
    (∀ x, x < 2 * laneLength m.length → byteAt m x = byteAt n x) →
    split m = split n ∧ laneTags m (normalize k) = laneTags n (normalize k) ∧ computeMAC m k = computeMAC n k) ∧
  (∀ (m k : List Byte) (z : Nat), m ≠ [] → m.length + z ≤ 128 * ((m.length + 127) / 128) →
    split (m ++ zeros z) = split m ∧ computeMAC (m ++ zeros z) k = computeMAC m k) ∧
  ∀ n, n ≤ 128 → split (zeros n) = { lane1 := zeros 64, lane2 := zeros 64, lane3 := zeros 64 }

/-- SPLIT's one CTRL step: the lane bytes below the lane length are the split of the message, those above are kept, and
nothing else changes but `LANELEN` and the completion (R190, R192, R222). -/
def Obligations.SplitStepWritesTheLanes : Prop :=
  ∀ s : State, s.phase = .exec → s.status.lastop = 0x6 →
    ∃ t, exec .split s = .next t ∧
      t = { s with
            lane1 := t.lane1, lane2 := t.lane2, lane3 := t.lane3
            lanelen := BitVec.ofNat 32 (laneLength s.mlen.toNat)
            status := { s.status with busy := false, done := true }
            phase := .idle } ∧
      (∀ o, o < laneLength s.mlen.toNat →
        t.held .lane1 o = some (byteAt (split (memRead s .msg 0 s.mlen.toNat)).lane1 o) ∧
        t.held .lane2 o = some (byteAt (split (memRead s .msg 0 s.mlen.toNat)).lane2 o) ∧
        t.held .lane3 o = some (byteAt (split (memRead s .msg 0 s.mlen.toNat)).lane3 o)) ∧
      ∀ o, laneLength s.mlen.toNat ≤ o →
        t.held .lane1 o = s.held .lane1 o ∧ t.held .lane2 o = s.held .lane2 o ∧ t.held .lane3 o = s.held .lane3 o

/-! ## The orchestrator -/

/-- The CTRL steps of MAC after key normalisation: split and fan-out, join, completion; the join waits for all three
units and the completion for HU1 (R190, R202, R203, R209, R210; that a wait is the same state is the model's choice,
log 12). -/
def Obligations.MacSteps : Prop :=
  ∀ s : State, s.status.lastop = 0x7 →
    (s.phase = .kndone →
      let n := BitVec.ofNat 32 (laneLength s.mlen.toNat)
      let l := split (memRead s .msg 0 s.mlen.toNat)
      exec .mac s = .next
        { s with
          lane1 := s.lane1.write 0 l.lane1, lane2 := s.lane2.write 0 l.lane2, lane3 := s.lane3.write 0 l.lane3
          lanelen := n
          hu1 := { s.hu1 with src := .lane1, blen := n, bidx := 0, h := iv, phase := .inner }
          hu2 := { s.hu2 with src := .lane2, blen := n, bidx := 0, h := iv, phase := .inner }
          hu3 := { s.hu3 with src := .lane3, blen := n, bidx := 0, h := iv, phase := .inner }
          phase := .fanout }) ∧
    (s.phase = .fanout → s.hu1.phase = .done → s.hu2.phase = .done → s.hu3.phase = .done →
      exec .mac s = .next
        { s with
          tagcat := bytesOf 96 (s.hu1.tag.toList ++ s.hu2.tag.toList ++ s.hu3.tag.toList)
          hu1 := { s.hu1 with src := .tagcat, blen := 96, bidx := 0, h := iv, phase := .inner }
          hu2 := { s.hu2 with phase := .idle }
          hu3 := { s.hu3 with phase := .idle }
          phase := .final }) ∧
    (s.phase = .fanout → ¬ (s.hu1.phase = .done ∧ s.hu2.phase = .done ∧ s.hu3.phase = .done) →
      exec .mac s = .next s) ∧
    (s.phase = .final → s.hu1.phase ≠ .done → exec .mac s = .next s) ∧
    (s.phase = .final → s.hu1.phase = .done →
      exec .mac s = .next
        { s with
          out := s.hu1.tag
          hu1 := { s.hu1 with phase := .idle }
          status := { s.status with busy := false, done := true }
          phase := .idle })

/-- The join waits for all three workers, and a command that waits for HU1 changes nothing until HU1 is `DONE`
(R81, R209, R210; that a wait is the same state is the model's choice, log 12). The clause on `KNHASH` is over every
command, since those without that phase have no step in it either. -/
def Obligations.CtrlWaitsForItsUnits : Prop :=
  ∀ s : State,
    (s.phase = .fanout → s.status.lastop = 0x7 →
      s.hu1.phase ≠ .done ∨ s.hu2.phase ≠ .done ∨ s.hu3.phase ≠ .done → exec .mac s = .next s) ∧
    (s.phase = .final → s.hu1.phase ≠ .done → exec .mac s = .next s) ∧
    (s.phase = .run → s.hu1.phase ≠ .done → exec .hash s = .next s ∧ exec .hmac s = .next s) ∧
    (s.phase = .knhash → s.hu1.phase ≠ .done → ∀ i, exec i s = .next s)

/-- A unit writes only its own registers, and what it writes depends only on those, `PK`, its own body and the build
(R79). -/
def Obligations.UnitTouchesOnlyItsOwn : Prop :=
  ∀ (s t : State) (u : UnitId),
    unitStep u s = s.setUnit u ((unitStep u s).unit u) ∧
    (s.unit u = t.unit u → s.pk = t.pk → s.tick = t.tick →
      (∀ o, o < (s.unit u).blen.toNat → s.held (s.unit u).src o = t.held (s.unit u).src o) →
      (unitStep u s).unit u = (unitStep u t).unit u)

/-- The steps of two units commute: the order in which the workers step cannot show (R82, R211). -/
def Obligations.UnitStepsCommute : Prop :=
  ∀ (s : State) (u v : UnitId), unitStep u (unitStep v s) = unitStep v (unitStep u s)

/-- The HMAC job of a lane of `LANELEN` bytes, a multiple of 64, takes exactly `LANELEN / 64 + 4` unit steps (R208), and
the last block of its inner stream is pure padding (R216). -/
def Obligations.LaneHashShape : Prop :=
  (∀ (s : State) (u : UnitId) (src : Space) (blen : Word), blen.toNat % 64 = 0 →
    let run := fun k => (unitStep u)^[k] (startHmac u src blen s)
    (∀ k, k < blen.toNat / 64 + 4 → ((run k).unit u).phase = .inner ∨ ((run k).unit u).phase = .outer) ∧
    ((run (blen.toNat / 64 + 4)).unit u).phase = .done) ∧
  ∀ (m : List Byte) (pk : PaddedKey) (n : Nat), m.length = 64 * n →
    nblocks (64 + m.length) + 2 = m.length / 64 + 4 ∧
    (padBlock (ipad pk ++ m) 0).toList = ipad pk ∧
    (padBlock (ipad pk ++ m) (n + 1)).toList =
      [0x80] ++ zeros 55 ++ ser64 (BitVec.ofNat 64 (8 * (64 + m.length)))

/-- The whole run of MAC, whatever the schedule of the three workers and whatever HOST does meanwhile but a reset: it
completes, and when it first returns to `IDLE`, `OUT` is the L-Lane MAC of the message under the key, `PK`, the lanes,
`LANELEN` and `TAGCAT` are as R207 says, `HAZ` tells whether HOST wrote, and every other visible location is as it was
(R69, R200, R207, R211, R213, R214, R236, R264, R265, R272; for completion HOST keeps to the address range, log 10). -/
def Obligations.MacRunDeliversTheFinalMac : Prop :=
  ∀ s : State, Inv s → Accepted .mac s → Written s .key s.klen.toNat → Written s .msg s.mlen.toNat →
    RunsTo s fun t =>
      { s with
        pk := normalize (keyOperand s)
        lane1 := s.lane1.write 0 (split (msgOperand s)).lane1
        lane2 := s.lane2.write 0 (split (msgOperand s)).lane2
        lane3 := s.lane3.write 0 (split (msgOperand s)).lane3
        lanelen := BitVec.ofNat 32 (laneLength s.mlen.toNat)
        tagcat := laneTags (msgOperand s) (normalize (keyOperand s))
        out := computeMAC (msgOperand s) (keyOperand s)
        status := { s.status with busy := false, done := true, haz := t.status.haz }
        phase := .idle
        hu1 := t.hu1, hu2 := t.hu2, hu3 := t.hu3
        host := t.host, replies := t.replies, schedule := t.schedule, tick := t.tick }

/-- Two runs of MAC on equal keys and messages, each up to its first return to `IDLE`, end with equal results, whatever
else the two states hold, whatever their schedules, whatever their hosts do but a reset, and whatever compression step
they are built with (R29, R55, R69, R122, R211, R236). -/
def Obligations.MacDependsOnlyOnKeyAndMessage : Prop :=
  ∀ s s' : State, Inv s → Inv s' → Accepted .mac s → Accepted .mac s' →
    Written s .key s.klen.toNat → Written s .msg s.mlen.toNat →
    Written s' .key s'.klen.toNat → Written s' .msg s'.mlen.toNat →
    keyOperand s = keyOperand s' → msgOperand s = msgOperand s' →
    ∀ k t k' t', FirstIdle k s t → FirstIdle k' s' t' →
      t.out = t'.out ∧ t.tagcat = t'.tagcat ∧ t.pk = t'.pk ∧ t.lanelen = t'.lanelen ∧
      ∀ o, o < t.lanelen.toNat →
        t.held .lane1 o = t'.held .lane1 o ∧ t.held .lane2 o = t'.held .lane2 o ∧ t.held .lane3 o = t'.held .lane3 o

/-! ## CLEAR -/

/-- CLEAR: its whole effect, at the instant of the write, whether or not an error is pending (R223). -/
def Obligations.ClearClearsTheFlags : Prop :=
  ∀ s : State, s.phase = .idle → s.status.busy = false →
    exec .clear s = .next
      { s with status := { s.status with err := false, errcode := 0, haz := false, done := false, lastop := 0x8 } }

/-! ## Whole-machine rules -/

/-- A step of CTRL or of a unit changes only what R221 lists for the command in progress, and in the phase that writes it:
`HREG` by INIT and COMPRESS, `OUT` by the last step of HASH, HMAC and MAC, `PK` by key normalisation in KEYNORM, HMAC and
MAC, `TAGCAT` by the join of MAC, the lanes and `LANELEN` by the split of SPLIT and MAC, and of the lanes only bytes below
the lane length of the message (R192, R214); the operands, the parameters and the sticky flags never. -/
def Obligations.RunsKeepToTheirWriteSets : Prop :=
  ∀ (s t : State) (a : Agent), nextAgent s = some a → a ≠ .host → step s = .next t →
    t.params = s.params ∧ t.keylen = s.keylen ∧ t.msglen = s.msglen ∧ t.klen = s.klen ∧ t.mlen = s.mlen ∧
    t.breg = s.breg ∧ t.key = s.key ∧ t.msg = s.msg ∧ t.host = s.host ∧ t.replies = s.replies ∧
    t.status.err = s.status.err ∧ t.status.errcode = s.status.errcode ∧ t.status.haz = s.status.haz ∧
    t.status.lastop = s.status.lastop ∧
    (t.hreg ≠ s.hreg → s.phase = .exec ∧ (s.status.lastop = 0x1 ∨ s.status.lastop = 0x2)) ∧
    (t.out ≠ s.out →
      s.phase = .run ∧ (s.status.lastop = 0x3 ∨ s.status.lastop = 0x5) ∨ s.phase = .final ∧ s.status.lastop = 0x7) ∧
    (t.pk ≠ s.pk →
      (s.phase = .exec ∨ s.phase = .knhash) ∧
      (s.status.lastop = 0x4 ∨ s.status.lastop = 0x5 ∨ s.status.lastop = 0x7)) ∧
    (t.tagcat ≠ s.tagcat → s.phase = .fanout ∧ s.status.lastop = 0x7) ∧
    (t.lane1 ≠ s.lane1 ∨ t.lane2 ≠ s.lane2 ∨ t.lane3 ≠ s.lane3 ∨ t.lanelen ≠ s.lanelen →
      s.phase = .exec ∧ s.status.lastop = 0x6 ∨ s.phase = .kndone ∧ s.status.lastop = 0x7) ∧
    ∀ o, laneLength s.mlen.toNat ≤ o →
      t.held .lane1 o = s.held .lane1 o ∧ t.held .lane2 o = s.held .lane2 o ∧ t.held .lane3 o = s.held .lane3 o

/-- What a reset leaves, in every instance and at any time: the control state of R58. -/
def Obligations.ResetLeavesTheControlState : Prop :=
  ∀ (p : Params) (tick : Nat),
    let s := State.afterReset p tick
    s.status.word = 0x00000000 ∧ s.keylen = 0 ∧ s.msglen = 0 ∧ s.lanelen = 0 ∧ s.klen = 0 ∧ s.mlen = 0 ∧
    s.phase = .idle ∧
    (∀ u, (s.unit u).phase = .idle ∧ (s.unit u).bidx = 0 ∧ (s.unit u).blen = 0 ∧ (s.unit u).src = .msg)

/-- The hardware reset takes effect whatever the core is doing: a running command is abandoned with no completion, and
no byte of any buffer holds a value any more (R260, R261; the values of the register arrays and what is kept outside the
core are the model's choices, logs 2 and 17). -/
def Obligations.ResetAbandonsTheRun : Prop :=
  ∀ (s : State) (rest : List HostEvent), HostTurn s .rst rest →
    ∃ t, step s = .next t ∧
      t = { State.afterReset s.params (s.tick + 1) with
            host := rest, replies := s.replies, schedule := s.begun.schedule } ∧
      t.status.busy = false ∧ t.status.done = false ∧ t.phase = .idle ∧
      ∀ space o, space ≠ .tagcat → t.held space o = none

/-- After a reset the core does nothing by itself: with nothing placed, every step leaves it as it is (R262; that such a
step is the same state is the model's choice, log 19). -/
def Obligations.IdleCoreWaits : Prop :=
  (∀ s : State, s.phase = .idle → unitsIdle s → s.host = [] → s.schedule = [] → step s = .next s) ∧
  ∀ k, steps k State.reset = .next State.reset

/-- The invariant holds after a reset, in every legal instance; `State.reset` is the reset of the default instance at
move 0 (the model's choices, logs 1 and 6). -/
def Obligations.InvHoldsAtReset : Prop :=
  (∀ (p : Params) (tick : Nat), p.wf → Inv (State.afterReset p tick)) ∧
  State.reset = State.afterReset Params.default 0 ∧ Inv State.reset

/-- Every step keeps the invariant (R25, R26, R31, R32, R36, R39, R150, R221, R231, R242). -/
def Obligations.EveryStepKeepsInv : Prop := ∀ s t : State, Inv s → step s = .next t → Inv t
end

