-- ==== Sys2Proof/Laws/Functions.lean ====
section
/-! SUPPORT. One lemma for each pure function of the core: lengths, byte order, and the equations that proofs cite. -/

namespace Sys2Proof.Machine

/-! ## Byte sequences -/

@[simp] theorem length_rep (c : Byte) (n : Nat) : (rep c n).length = n := by simp [rep]

@[simp] theorem length_zeros (n : Nat) : (zeros n).length = n := by simp [zeros]

@[simp] theorem length_ser32 (w : Word) : (ser32 w).length = 4 := rfl

@[simp] theorem length_ser64 (n : BitVec 64) : (ser64 n).length = 8 := rfl

@[simp] theorem length_xorBytes (s t : List Byte) : (xorBytes s t).length = min s.length t.length := by
  simp [xorBytes]

/-- A byte sequence of the array's length is held unchanged. -/
theorem toList_bytesOf (n : Nat) (s : List Byte) (h : s.length = n) : (bytesOf n s).toList = s := by
  subst h
  simp [bytesOf, Vector.toList]

theorem byteAt_of_lt (s : List Byte) (i : Nat) (h : i < s.length) : s[i]? = some (byteAt s i) := by
  simp [byteAt, List.getD_eq_getElem?_getD, h]

theorem byteAt_of_le (s : List Byte) (i : Nat) (h : s.length ≤ i) : byteAt s i = 0x00 := by
  simp [byteAt, List.getD_eq_getElem?_getD, h]

/-- `be32` and `ser32` are inverse to each other (R11). -/
theorem wordAt_ser32 (w : Word) : wordAt (ser32 w) 0 = w := by
  refine BitVec.eq_of_getLsbD_eq fun i hi => ?_
  simp only [wordAt, ser32, byteAt, be32, Nat.mul_zero, Nat.zero_add, List.getD_cons_zero, List.getD_cons_succ,
    BitVec.getLsbD_append, BitVec.getLsbD_extractLsb']
  by_cases h1 : i < 8
  · simp [h1]
  · by_cases h2 : i < 16
    · simp [h1, show i - 8 < 8 by omega, show 8 + (i - 8) = i by omega]
    · by_cases h3 : i < 24
      · simp [h1, show ¬ i - 8 < 8 by omega, show i - 8 - 8 < 8 by omega, show 16 + (i - 8 - 8) = i by omega]
      · simp [h1, show ¬ i - 8 < 8 by omega, show ¬ i - 8 - 8 < 8 by omega, show i - 8 - 8 - 8 < 8 by omega,
          show 24 + (i - 8 - 8 - 8) = i by omega]

/-! ## Padding -/

theorem length_padBytes (s : List Byte) (i : Nat) : (padBytes s i).length = 64 := by
  unfold padBytes lengthField
  have hq : 64 * (s.length / 64) + s.length % 64 = s.length := Nat.div_add_mod s.length 64
  have hr : s.length % 64 < 64 := Nat.mod_lt _ (by decide)
  dsimp only
  split
  · simp only [List.length_take, List.length_drop]; omega
  · split
    · simp only [List.length_append, List.length_drop, List.length_cons, List.length_nil, length_zeros,
        length_ser64]
      omega
    · split
      · simp only [List.length_append, List.length_drop, List.length_cons, List.length_nil, length_zeros]
        omega
      · simp only [List.length_append, length_zeros, length_ser64]

/-- The block holds exactly the bytes of R146. -/
@[simp] theorem toList_padBlock (s : List Byte) (i : Nat) : (padBlock s i).toList = padBytes s i :=
  toList_bytesOf 64 _ (length_padBytes s i)

@[simp] theorem length_digestBytes (s : HashState) : (digestBytes s).length = 32 := rfl

@[simp] theorem toList_digest (s : HashState) : (digest s).toList = digestBytes s :=
  toList_bytesOf 32 _ (length_digestBytes s)

/-- The drive from block `i` on takes its first block first (R147). -/
theorem driveBlocks_succ (s : List Byte) (fuel i : Nat) (st : HashState) :
    driveBlocks s (fuel + 1) i st = driveBlocks s fuel (i + 1) (compress st (padBlock s i)) := rfl

/-- A stream has fewer than `2^27` blocks when its length fits 33 bits: no block index wraps (R8, R28). -/
theorem nblocks_lt (n : Nat) (h : n < 2 ^ 33) : nblocks n < 2 ^ 28 := by
  unfold nblocks
  split <;> omega

theorem nblocks_pos (n : Nat) : 0 < nblocks n := by
  unfold nblocks
  split <;> omega

/-! ## HMAC -/

@[simp] theorem length_ipad (pk : PaddedKey) : (ipad pk).length = 64 := by simp [ipad]

@[simp] theorem length_opad (pk : PaddedKey) : (opad pk).length = 64 := by simp [opad]

theorem toList_padKey (k : List Byte) (h : k.length ≤ 64) : (padKey k).toList = k ++ zeros (64 - k.length) :=
  toList_bytesOf 64 _ (by simp; omega)

theorem toList_padKeyDigest (d : Digest) : (padKeyDigest d).toList = d.toList ++ zeros 32 :=
  toList_bytesOf 64 _ (by simp)

theorem normalize_of_le (k : List Byte) (h : k.length ≤ 64) : normalize k = padKey k := by
  unfold normalize
  rw [if_neg (by omega)]

theorem normalize_of_gt (k : List Byte) (h : 64 < k.length) : normalize k = padKeyDigest (sha256 k) := by
  unfold normalize
  rw [if_pos h]

theorem toList_catTags (a b c : Digest) : (catTags a b c).toList = a.toList ++ b.toList ++ c.toList :=
  toList_bytesOf 96 _ (by simp)

/-! ## The lane splitter -/

/-- The lengths of the chunks of `q` full macro-blocks. -/
theorem length_fullChunks (q : Nat) (m : List Byte) (h : 128 * q ≤ m.length) :
    (fullChunks q m).lane1.length = 64 * q ∧ (fullChunks q m).lane2.length = 64 * q ∧
      (fullChunks q m).lane3.length = 64 * q := by
  induction q generalizing m with
  | zero => simp [fullChunks]
  | succ q ih =>
    have := ih (m.drop 128) (by rw [List.length_drop]; omega)
    simp only [fullChunks, List.length_append, List.length_take, List.length_drop, length_xorBytes]
    omega

/-- The lengths of the remainder's chunks. -/
theorem length_lastChunks (r : List Byte) (h : r.length < 128) :
    (lastChunks r).lane1.length = 64 ∧ (lastChunks r).lane2.length = 64 ∧ (lastChunks r).lane3.length = 64 := by
  unfold lastChunks
  by_cases h64 : r.length < 64
  · rw [if_pos h64]
    refine ⟨?_, length_zeros 64, ?_⟩ <;> rw [List.length_append, length_zeros] <;> omega
  · simp only [h64, if_false, List.length_append, List.length_take, List.length_drop, length_zeros, length_xorBytes]
    omega

end Sys2Proof.Machine
end

