-- ==== Sys2Proof/Laws/State.lean ====
section
/-! SUPPORT. One lemma per field per update of the state, so that no proof unfolds a record update. -/

namespace Sys2Proof.Machine

/-! ### `answer`: a reply is recorded -/

@[simp] theorem answer_params (s : State) (r : Resp) (d : Option Word) : (s.answer r d).params = s.params := rfl
@[simp] theorem answer_status (s : State) (r : Resp) (d : Option Word) : (s.answer r d).status = s.status := rfl
@[simp] theorem answer_keylen (s : State) (r : Resp) (d : Option Word) : (s.answer r d).keylen = s.keylen := rfl
@[simp] theorem answer_msglen (s : State) (r : Resp) (d : Option Word) : (s.answer r d).msglen = s.msglen := rfl
@[simp] theorem answer_lanelen (s : State) (r : Resp) (d : Option Word) : (s.answer r d).lanelen = s.lanelen := rfl
@[simp] theorem answer_klen (s : State) (r : Resp) (d : Option Word) : (s.answer r d).klen = s.klen := rfl
@[simp] theorem answer_mlen (s : State) (r : Resp) (d : Option Word) : (s.answer r d).mlen = s.mlen := rfl
@[simp] theorem answer_phase (s : State) (r : Resp) (d : Option Word) : (s.answer r d).phase = s.phase := rfl
@[simp] theorem answer_hreg (s : State) (r : Resp) (d : Option Word) : (s.answer r d).hreg = s.hreg := rfl
@[simp] theorem answer_breg (s : State) (r : Resp) (d : Option Word) : (s.answer r d).breg = s.breg := rfl
@[simp] theorem answer_out (s : State) (r : Resp) (d : Option Word) : (s.answer r d).out = s.out := rfl
@[simp] theorem answer_pk (s : State) (r : Resp) (d : Option Word) : (s.answer r d).pk = s.pk := rfl
@[simp] theorem answer_tagcat (s : State) (r : Resp) (d : Option Word) : (s.answer r d).tagcat = s.tagcat := rfl
@[simp] theorem answer_key (s : State) (r : Resp) (d : Option Word) : (s.answer r d).key = s.key := rfl
@[simp] theorem answer_msg (s : State) (r : Resp) (d : Option Word) : (s.answer r d).msg = s.msg := rfl
@[simp] theorem answer_lane1 (s : State) (r : Resp) (d : Option Word) : (s.answer r d).lane1 = s.lane1 := rfl
@[simp] theorem answer_lane2 (s : State) (r : Resp) (d : Option Word) : (s.answer r d).lane2 = s.lane2 := rfl
@[simp] theorem answer_lane3 (s : State) (r : Resp) (d : Option Word) : (s.answer r d).lane3 = s.lane3 := rfl
@[simp] theorem answer_hu1 (s : State) (r : Resp) (d : Option Word) : (s.answer r d).hu1 = s.hu1 := rfl
@[simp] theorem answer_hu2 (s : State) (r : Resp) (d : Option Word) : (s.answer r d).hu2 = s.hu2 := rfl
@[simp] theorem answer_hu3 (s : State) (r : Resp) (d : Option Word) : (s.answer r d).hu3 = s.hu3 := rfl
@[simp] theorem answer_host (s : State) (r : Resp) (d : Option Word) : (s.answer r d).host = s.host := rfl
@[simp] theorem answer_replies (s : State) (r : Resp) (d : Option Word) : (s.answer r d).replies = { resp := r, datum := d } :: s.replies := rfl
@[simp] theorem answer_schedule (s : State) (r : Resp) (d : Option Word) : (s.answer r d).schedule = s.schedule := rfl
@[simp] theorem answer_tick (s : State) (r : Resp) (d : Option Word) : (s.answer r d).tick = s.tick := rfl

/-! ### `begun`: a move is counted -/

@[simp] theorem begun_params (s : State) : (s.begun).params = s.params := rfl
@[simp] theorem begun_status (s : State) : (s.begun).status = s.status := rfl
@[simp] theorem begun_keylen (s : State) : (s.begun).keylen = s.keylen := rfl
@[simp] theorem begun_msglen (s : State) : (s.begun).msglen = s.msglen := rfl
@[simp] theorem begun_lanelen (s : State) : (s.begun).lanelen = s.lanelen := rfl
@[simp] theorem begun_klen (s : State) : (s.begun).klen = s.klen := rfl
@[simp] theorem begun_mlen (s : State) : (s.begun).mlen = s.mlen := rfl
@[simp] theorem begun_phase (s : State) : (s.begun).phase = s.phase := rfl
@[simp] theorem begun_hreg (s : State) : (s.begun).hreg = s.hreg := rfl
@[simp] theorem begun_breg (s : State) : (s.begun).breg = s.breg := rfl
@[simp] theorem begun_out (s : State) : (s.begun).out = s.out := rfl
@[simp] theorem begun_pk (s : State) : (s.begun).pk = s.pk := rfl
@[simp] theorem begun_tagcat (s : State) : (s.begun).tagcat = s.tagcat := rfl
@[simp] theorem begun_key (s : State) : (s.begun).key = s.key := rfl
@[simp] theorem begun_msg (s : State) : (s.begun).msg = s.msg := rfl
@[simp] theorem begun_lane1 (s : State) : (s.begun).lane1 = s.lane1 := rfl
@[simp] theorem begun_lane2 (s : State) : (s.begun).lane2 = s.lane2 := rfl
@[simp] theorem begun_lane3 (s : State) : (s.begun).lane3 = s.lane3 := rfl
@[simp] theorem begun_hu1 (s : State) : (s.begun).hu1 = s.hu1 := rfl
@[simp] theorem begun_hu2 (s : State) : (s.begun).hu2 = s.hu2 := rfl
@[simp] theorem begun_hu3 (s : State) : (s.begun).hu3 = s.hu3 := rfl
@[simp] theorem begun_host (s : State) : (s.begun).host = s.host := rfl
@[simp] theorem begun_replies (s : State) : (s.begun).replies = s.replies := rfl
@[simp] theorem begun_schedule (s : State) : (s.begun).schedule = (turns s).tail := rfl
@[simp] theorem begun_tick (s : State) : (s.begun).tick = s.tick + 1 := rfl

/-! ### `taken`: an event is used up -/

@[simp] theorem taken_params (s : State) (rest : List HostEvent) : (s.taken rest).params = s.params := rfl
@[simp] theorem taken_status (s : State) (rest : List HostEvent) : (s.taken rest).status = s.status := rfl
@[simp] theorem taken_keylen (s : State) (rest : List HostEvent) : (s.taken rest).keylen = s.keylen := rfl
@[simp] theorem taken_msglen (s : State) (rest : List HostEvent) : (s.taken rest).msglen = s.msglen := rfl
@[simp] theorem taken_lanelen (s : State) (rest : List HostEvent) : (s.taken rest).lanelen = s.lanelen := rfl
@[simp] theorem taken_klen (s : State) (rest : List HostEvent) : (s.taken rest).klen = s.klen := rfl
@[simp] theorem taken_mlen (s : State) (rest : List HostEvent) : (s.taken rest).mlen = s.mlen := rfl
@[simp] theorem taken_phase (s : State) (rest : List HostEvent) : (s.taken rest).phase = s.phase := rfl
@[simp] theorem taken_hreg (s : State) (rest : List HostEvent) : (s.taken rest).hreg = s.hreg := rfl
@[simp] theorem taken_breg (s : State) (rest : List HostEvent) : (s.taken rest).breg = s.breg := rfl
@[simp] theorem taken_out (s : State) (rest : List HostEvent) : (s.taken rest).out = s.out := rfl
@[simp] theorem taken_pk (s : State) (rest : List HostEvent) : (s.taken rest).pk = s.pk := rfl
@[simp] theorem taken_tagcat (s : State) (rest : List HostEvent) : (s.taken rest).tagcat = s.tagcat := rfl
@[simp] theorem taken_key (s : State) (rest : List HostEvent) : (s.taken rest).key = s.key := rfl
@[simp] theorem taken_msg (s : State) (rest : List HostEvent) : (s.taken rest).msg = s.msg := rfl
@[simp] theorem taken_lane1 (s : State) (rest : List HostEvent) : (s.taken rest).lane1 = s.lane1 := rfl
@[simp] theorem taken_lane2 (s : State) (rest : List HostEvent) : (s.taken rest).lane2 = s.lane2 := rfl
@[simp] theorem taken_lane3 (s : State) (rest : List HostEvent) : (s.taken rest).lane3 = s.lane3 := rfl
@[simp] theorem taken_hu1 (s : State) (rest : List HostEvent) : (s.taken rest).hu1 = s.hu1 := rfl
@[simp] theorem taken_hu2 (s : State) (rest : List HostEvent) : (s.taken rest).hu2 = s.hu2 := rfl
@[simp] theorem taken_hu3 (s : State) (rest : List HostEvent) : (s.taken rest).hu3 = s.hu3 := rfl
@[simp] theorem taken_host (s : State) (rest : List HostEvent) : (s.taken rest).host = rest := rfl
@[simp] theorem taken_replies (s : State) (rest : List HostEvent) : (s.taken rest).replies = s.replies := rfl
@[simp] theorem taken_schedule (s : State) (rest : List HostEvent) : (s.taken rest).schedule = (turns s).tail := rfl
@[simp] theorem taken_tick (s : State) (rest : List HostEvent) : (s.taken rest).tick = s.tick + 1 := rfl

/-! ### `raiseErr`: error entry -/

@[simp] theorem raiseErr_params (c : ErrCause) (s : State) : (raiseErr c s).params = s.params := rfl
@[simp] theorem raiseErr_status (c : ErrCause) (s : State) : (raiseErr c s).status = s.status.raised c := rfl
@[simp] theorem raiseErr_keylen (c : ErrCause) (s : State) : (raiseErr c s).keylen = s.keylen := rfl
@[simp] theorem raiseErr_msglen (c : ErrCause) (s : State) : (raiseErr c s).msglen = s.msglen := rfl
@[simp] theorem raiseErr_lanelen (c : ErrCause) (s : State) : (raiseErr c s).lanelen = s.lanelen := rfl
@[simp] theorem raiseErr_klen (c : ErrCause) (s : State) : (raiseErr c s).klen = s.klen := rfl
@[simp] theorem raiseErr_mlen (c : ErrCause) (s : State) : (raiseErr c s).mlen = s.mlen := rfl
@[simp] theorem raiseErr_phase (c : ErrCause) (s : State) : (raiseErr c s).phase = s.phase := rfl
@[simp] theorem raiseErr_hreg (c : ErrCause) (s : State) : (raiseErr c s).hreg = s.hreg := rfl
@[simp] theorem raiseErr_breg (c : ErrCause) (s : State) : (raiseErr c s).breg = s.breg := rfl
@[simp] theorem raiseErr_out (c : ErrCause) (s : State) : (raiseErr c s).out = s.out := rfl
@[simp] theorem raiseErr_pk (c : ErrCause) (s : State) : (raiseErr c s).pk = s.pk := rfl
@[simp] theorem raiseErr_tagcat (c : ErrCause) (s : State) : (raiseErr c s).tagcat = s.tagcat := rfl
@[simp] theorem raiseErr_key (c : ErrCause) (s : State) : (raiseErr c s).key = s.key := rfl
@[simp] theorem raiseErr_msg (c : ErrCause) (s : State) : (raiseErr c s).msg = s.msg := rfl
@[simp] theorem raiseErr_lane1 (c : ErrCause) (s : State) : (raiseErr c s).lane1 = s.lane1 := rfl
@[simp] theorem raiseErr_lane2 (c : ErrCause) (s : State) : (raiseErr c s).lane2 = s.lane2 := rfl
@[simp] theorem raiseErr_lane3 (c : ErrCause) (s : State) : (raiseErr c s).lane3 = s.lane3 := rfl
@[simp] theorem raiseErr_hu1 (c : ErrCause) (s : State) : (raiseErr c s).hu1 = s.hu1 := rfl
@[simp] theorem raiseErr_hu2 (c : ErrCause) (s : State) : (raiseErr c s).hu2 = s.hu2 := rfl
@[simp] theorem raiseErr_hu3 (c : ErrCause) (s : State) : (raiseErr c s).hu3 = s.hu3 := rfl
@[simp] theorem raiseErr_host (c : ErrCause) (s : State) : (raiseErr c s).host = s.host := rfl
@[simp] theorem raiseErr_replies (c : ErrCause) (s : State) : (raiseErr c s).replies = s.replies := rfl
@[simp] theorem raiseErr_schedule (c : ErrCause) (s : State) : (raiseErr c s).schedule = s.schedule := rfl
@[simp] theorem raiseErr_tick (c : ErrCause) (s : State) : (raiseErr c s).tick = s.tick := rfl

/-! ### `clearStatus`: the return from the error state -/

@[simp] theorem clearStatus_params (s : State) : (clearStatus s).params = s.params := rfl
@[simp] theorem clearStatus_status (s : State) : (clearStatus s).status = s.status.cleared := rfl
@[simp] theorem clearStatus_keylen (s : State) : (clearStatus s).keylen = s.keylen := rfl
@[simp] theorem clearStatus_msglen (s : State) : (clearStatus s).msglen = s.msglen := rfl
@[simp] theorem clearStatus_lanelen (s : State) : (clearStatus s).lanelen = s.lanelen := rfl
@[simp] theorem clearStatus_klen (s : State) : (clearStatus s).klen = s.klen := rfl
@[simp] theorem clearStatus_mlen (s : State) : (clearStatus s).mlen = s.mlen := rfl
@[simp] theorem clearStatus_phase (s : State) : (clearStatus s).phase = s.phase := rfl
@[simp] theorem clearStatus_hreg (s : State) : (clearStatus s).hreg = s.hreg := rfl
@[simp] theorem clearStatus_breg (s : State) : (clearStatus s).breg = s.breg := rfl
@[simp] theorem clearStatus_out (s : State) : (clearStatus s).out = s.out := rfl
@[simp] theorem clearStatus_pk (s : State) : (clearStatus s).pk = s.pk := rfl
@[simp] theorem clearStatus_tagcat (s : State) : (clearStatus s).tagcat = s.tagcat := rfl
@[simp] theorem clearStatus_key (s : State) : (clearStatus s).key = s.key := rfl
@[simp] theorem clearStatus_msg (s : State) : (clearStatus s).msg = s.msg := rfl
@[simp] theorem clearStatus_lane1 (s : State) : (clearStatus s).lane1 = s.lane1 := rfl
@[simp] theorem clearStatus_lane2 (s : State) : (clearStatus s).lane2 = s.lane2 := rfl
@[simp] theorem clearStatus_lane3 (s : State) : (clearStatus s).lane3 = s.lane3 := rfl
@[simp] theorem clearStatus_hu1 (s : State) : (clearStatus s).hu1 = s.hu1 := rfl
@[simp] theorem clearStatus_hu2 (s : State) : (clearStatus s).hu2 = s.hu2 := rfl
@[simp] theorem clearStatus_hu3 (s : State) : (clearStatus s).hu3 = s.hu3 := rfl
@[simp] theorem clearStatus_host (s : State) : (clearStatus s).host = s.host := rfl
@[simp] theorem clearStatus_replies (s : State) : (clearStatus s).replies = s.replies := rfl
@[simp] theorem clearStatus_schedule (s : State) : (clearStatus s).schedule = s.schedule := rfl
@[simp] theorem clearStatus_tick (s : State) : (clearStatus s).tick = s.tick := rfl

/-! ### `hazard`: a write during a run -/

@[simp] theorem hazard_params (s : State) : (hazard s).params = s.params := rfl
@[simp] theorem hazard_status (s : State) : (hazard s).status = s.status.hazarded := rfl
@[simp] theorem hazard_keylen (s : State) : (hazard s).keylen = s.keylen := rfl
@[simp] theorem hazard_msglen (s : State) : (hazard s).msglen = s.msglen := rfl
@[simp] theorem hazard_lanelen (s : State) : (hazard s).lanelen = s.lanelen := rfl
@[simp] theorem hazard_klen (s : State) : (hazard s).klen = s.klen := rfl
@[simp] theorem hazard_mlen (s : State) : (hazard s).mlen = s.mlen := rfl
@[simp] theorem hazard_phase (s : State) : (hazard s).phase = s.phase := rfl
@[simp] theorem hazard_hreg (s : State) : (hazard s).hreg = s.hreg := rfl
@[simp] theorem hazard_breg (s : State) : (hazard s).breg = s.breg := rfl
@[simp] theorem hazard_out (s : State) : (hazard s).out = s.out := rfl
@[simp] theorem hazard_pk (s : State) : (hazard s).pk = s.pk := rfl
@[simp] theorem hazard_tagcat (s : State) : (hazard s).tagcat = s.tagcat := rfl
@[simp] theorem hazard_key (s : State) : (hazard s).key = s.key := rfl
@[simp] theorem hazard_msg (s : State) : (hazard s).msg = s.msg := rfl
@[simp] theorem hazard_lane1 (s : State) : (hazard s).lane1 = s.lane1 := rfl
@[simp] theorem hazard_lane2 (s : State) : (hazard s).lane2 = s.lane2 := rfl
@[simp] theorem hazard_lane3 (s : State) : (hazard s).lane3 = s.lane3 := rfl
@[simp] theorem hazard_hu1 (s : State) : (hazard s).hu1 = s.hu1 := rfl
@[simp] theorem hazard_hu2 (s : State) : (hazard s).hu2 = s.hu2 := rfl
@[simp] theorem hazard_hu3 (s : State) : (hazard s).hu3 = s.hu3 := rfl
@[simp] theorem hazard_host (s : State) : (hazard s).host = s.host := rfl
@[simp] theorem hazard_replies (s : State) : (hazard s).replies = s.replies := rfl
@[simp] theorem hazard_schedule (s : State) : (hazard s).schedule = s.schedule := rfl
@[simp] theorem hazard_tick (s : State) : (hazard s).tick = s.tick := rfl

/-! ### `accept`: acceptance -/

@[simp] theorem accept_params (i : Instr) (s : State) : (accept i s).params = s.params := rfl
@[simp] theorem accept_status (i : Instr) (s : State) : (accept i s).status = s.status.accepted i.opcode := rfl
@[simp] theorem accept_keylen (i : Instr) (s : State) : (accept i s).keylen = s.keylen := rfl
@[simp] theorem accept_msglen (i : Instr) (s : State) : (accept i s).msglen = s.msglen := rfl
@[simp] theorem accept_lanelen (i : Instr) (s : State) : (accept i s).lanelen = s.lanelen := rfl
@[simp] theorem accept_klen (i : Instr) (s : State) : (accept i s).klen = s.keylen := rfl
@[simp] theorem accept_mlen (i : Instr) (s : State) : (accept i s).mlen = s.msglen := rfl
@[simp] theorem accept_phase (i : Instr) (s : State) : (accept i s).phase = .exec := rfl
@[simp] theorem accept_hreg (i : Instr) (s : State) : (accept i s).hreg = s.hreg := rfl
@[simp] theorem accept_breg (i : Instr) (s : State) : (accept i s).breg = s.breg := rfl
@[simp] theorem accept_out (i : Instr) (s : State) : (accept i s).out = s.out := rfl
@[simp] theorem accept_pk (i : Instr) (s : State) : (accept i s).pk = s.pk := rfl
@[simp] theorem accept_tagcat (i : Instr) (s : State) : (accept i s).tagcat = s.tagcat := rfl
@[simp] theorem accept_key (i : Instr) (s : State) : (accept i s).key = s.key := rfl
@[simp] theorem accept_msg (i : Instr) (s : State) : (accept i s).msg = s.msg := rfl
@[simp] theorem accept_lane1 (i : Instr) (s : State) : (accept i s).lane1 = s.lane1 := rfl
@[simp] theorem accept_lane2 (i : Instr) (s : State) : (accept i s).lane2 = s.lane2 := rfl
@[simp] theorem accept_lane3 (i : Instr) (s : State) : (accept i s).lane3 = s.lane3 := rfl
@[simp] theorem accept_hu1 (i : Instr) (s : State) : (accept i s).hu1 = s.hu1 := rfl
@[simp] theorem accept_hu2 (i : Instr) (s : State) : (accept i s).hu2 = s.hu2 := rfl
@[simp] theorem accept_hu3 (i : Instr) (s : State) : (accept i s).hu3 = s.hu3 := rfl
@[simp] theorem accept_host (i : Instr) (s : State) : (accept i s).host = s.host := rfl
@[simp] theorem accept_replies (i : Instr) (s : State) : (accept i s).replies = s.replies := rfl
@[simp] theorem accept_schedule (i : Instr) (s : State) : (accept i s).schedule = s.schedule := rfl
@[simp] theorem accept_tick (i : Instr) (s : State) : (accept i s).tick = s.tick := rfl

/-! ### `complete`: completion -/

@[simp] theorem complete_params (s : State) : (complete s).params = s.params := rfl
@[simp] theorem complete_status (s : State) : (complete s).status = s.status.completed := rfl
@[simp] theorem complete_keylen (s : State) : (complete s).keylen = s.keylen := rfl
@[simp] theorem complete_msglen (s : State) : (complete s).msglen = s.msglen := rfl
@[simp] theorem complete_lanelen (s : State) : (complete s).lanelen = s.lanelen := rfl
@[simp] theorem complete_klen (s : State) : (complete s).klen = s.klen := rfl
@[simp] theorem complete_mlen (s : State) : (complete s).mlen = s.mlen := rfl
@[simp] theorem complete_phase (s : State) : (complete s).phase = .idle := rfl
@[simp] theorem complete_hreg (s : State) : (complete s).hreg = s.hreg := rfl
@[simp] theorem complete_breg (s : State) : (complete s).breg = s.breg := rfl
@[simp] theorem complete_out (s : State) : (complete s).out = s.out := rfl
@[simp] theorem complete_pk (s : State) : (complete s).pk = s.pk := rfl
@[simp] theorem complete_tagcat (s : State) : (complete s).tagcat = s.tagcat := rfl
@[simp] theorem complete_key (s : State) : (complete s).key = s.key := rfl
@[simp] theorem complete_msg (s : State) : (complete s).msg = s.msg := rfl
@[simp] theorem complete_lane1 (s : State) : (complete s).lane1 = s.lane1 := rfl
@[simp] theorem complete_lane2 (s : State) : (complete s).lane2 = s.lane2 := rfl
@[simp] theorem complete_lane3 (s : State) : (complete s).lane3 = s.lane3 := rfl
@[simp] theorem complete_hu1 (s : State) : (complete s).hu1 = s.hu1 := rfl
@[simp] theorem complete_hu2 (s : State) : (complete s).hu2 = s.hu2 := rfl
@[simp] theorem complete_hu3 (s : State) : (complete s).hu3 = s.hu3 := rfl
@[simp] theorem complete_host (s : State) : (complete s).host = s.host := rfl
@[simp] theorem complete_replies (s : State) : (complete s).replies = s.replies := rfl
@[simp] theorem complete_schedule (s : State) : (complete s).schedule = s.schedule := rfl
@[simp] theorem complete_tick (s : State) : (complete s).tick = s.tick := rfl

/-! ### `hardReset`: the hardware reset keeps what is outside the core -/

@[simp] theorem hardReset_params (s : State) : (hardReset s).params = s.params := rfl
@[simp] theorem hardReset_host (s : State) : (hardReset s).host = s.host := rfl
@[simp] theorem hardReset_replies (s : State) : (hardReset s).replies = s.replies := rfl
@[simp] theorem hardReset_schedule (s : State) : (hardReset s).schedule = s.schedule := rfl
@[simp] theorem hardReset_tick (s : State) : (hardReset s).tick = s.tick := rfl

/-! ### `setUnit`: a unit is replaced -/

@[simp] theorem setUnit_params (s : State) (u : UnitId) (x : HashUnit) : (s.setUnit u x).params = s.params := by cases u <;> rfl
@[simp] theorem setUnit_status (s : State) (u : UnitId) (x : HashUnit) : (s.setUnit u x).status = s.status := by cases u <;> rfl
@[simp] theorem setUnit_keylen (s : State) (u : UnitId) (x : HashUnit) : (s.setUnit u x).keylen = s.keylen := by cases u <;> rfl
@[simp] theorem setUnit_msglen (s : State) (u : UnitId) (x : HashUnit) : (s.setUnit u x).msglen = s.msglen := by cases u <;> rfl
@[simp] theorem setUnit_lanelen (s : State) (u : UnitId) (x : HashUnit) : (s.setUnit u x).lanelen = s.lanelen := by cases u <;> rfl
@[simp] theorem setUnit_klen (s : State) (u : UnitId) (x : HashUnit) : (s.setUnit u x).klen = s.klen := by cases u <;> rfl
@[simp] theorem setUnit_mlen (s : State) (u : UnitId) (x : HashUnit) : (s.setUnit u x).mlen = s.mlen := by cases u <;> rfl
@[simp] theorem setUnit_phase (s : State) (u : UnitId) (x : HashUnit) : (s.setUnit u x).phase = s.phase := by cases u <;> rfl
@[simp] theorem setUnit_hreg (s : State) (u : UnitId) (x : HashUnit) : (s.setUnit u x).hreg = s.hreg := by cases u <;> rfl
@[simp] theorem setUnit_breg (s : State) (u : UnitId) (x : HashUnit) : (s.setUnit u x).breg = s.breg := by cases u <;> rfl
@[simp] theorem setUnit_out (s : State) (u : UnitId) (x : HashUnit) : (s.setUnit u x).out = s.out := by cases u <;> rfl
@[simp] theorem setUnit_pk (s : State) (u : UnitId) (x : HashUnit) : (s.setUnit u x).pk = s.pk := by cases u <;> rfl
@[simp] theorem setUnit_tagcat (s : State) (u : UnitId) (x : HashUnit) : (s.setUnit u x).tagcat = s.tagcat := by cases u <;> rfl
@[simp] theorem setUnit_key (s : State) (u : UnitId) (x : HashUnit) : (s.setUnit u x).key = s.key := by cases u <;> rfl
@[simp] theorem setUnit_msg (s : State) (u : UnitId) (x : HashUnit) : (s.setUnit u x).msg = s.msg := by cases u <;> rfl
@[simp] theorem setUnit_lane1 (s : State) (u : UnitId) (x : HashUnit) : (s.setUnit u x).lane1 = s.lane1 := by cases u <;> rfl
@[simp] theorem setUnit_lane2 (s : State) (u : UnitId) (x : HashUnit) : (s.setUnit u x).lane2 = s.lane2 := by cases u <;> rfl
@[simp] theorem setUnit_lane3 (s : State) (u : UnitId) (x : HashUnit) : (s.setUnit u x).lane3 = s.lane3 := by cases u <;> rfl
@[simp] theorem setUnit_host (s : State) (u : UnitId) (x : HashUnit) : (s.setUnit u x).host = s.host := by cases u <;> rfl
@[simp] theorem setUnit_replies (s : State) (u : UnitId) (x : HashUnit) : (s.setUnit u x).replies = s.replies := by cases u <;> rfl
@[simp] theorem setUnit_schedule (s : State) (u : UnitId) (x : HashUnit) : (s.setUnit u x).schedule = s.schedule := by cases u <;> rfl
@[simp] theorem setUnit_tick (s : State) (u : UnitId) (x : HashUnit) : (s.setUnit u x).tick = s.tick := by cases u <;> rfl

@[simp] theorem unit_setUnit_self (s : State) (u : UnitId) (x : HashUnit) : (s.setUnit u x).unit u = x := by
  cases u <;> rfl

theorem unit_setUnit_ne (s : State) (u v : UnitId) (x : HashUnit) (h : v ≠ u) :
    (s.setUnit u x).unit v = s.unit v := by
  cases u <;> cases v <;> first | rfl | exact absurd rfl h

@[simp] theorem setUnit_unit (s : State) (u : UnitId) : s.setUnit u (s.unit u) = s := by cases u <;> rfl

@[simp] theorem setUnit_setUnit (s : State) (u : UnitId) (x y : HashUnit) :
    (s.setUnit u x).setUnit u y = s.setUnit u y := by cases u <;> rfl

theorem setUnit_comm (s : State) (u v : UnitId) (x y : HashUnit) (h : u ≠ v) :
    (s.setUnit u x).setUnit v y = (s.setUnit v y).setUnit u x := by
  cases u <;> cases v <;> first | rfl | exact absurd rfl h

@[simp] theorem unit_u1 (s : State) : s.unit .u1 = s.hu1 := rfl
@[simp] theorem unit_u2 (s : State) : s.unit .u2 = s.hu2 := rfl
@[simp] theorem unit_u3 (s : State) : s.unit .u3 = s.hu3 := rfl

/-! ### `memWrite`: only the space written changes -/

@[simp] theorem memWrite_params (s : State) (sp : Space) (o : Nat) (bs : List Byte) : (memWrite s sp o bs).params = s.params := by cases sp <;> rfl
@[simp] theorem memWrite_status (s : State) (sp : Space) (o : Nat) (bs : List Byte) : (memWrite s sp o bs).status = s.status := by cases sp <;> rfl
@[simp] theorem memWrite_keylen (s : State) (sp : Space) (o : Nat) (bs : List Byte) : (memWrite s sp o bs).keylen = s.keylen := by cases sp <;> rfl
@[simp] theorem memWrite_msglen (s : State) (sp : Space) (o : Nat) (bs : List Byte) : (memWrite s sp o bs).msglen = s.msglen := by cases sp <;> rfl
@[simp] theorem memWrite_lanelen (s : State) (sp : Space) (o : Nat) (bs : List Byte) : (memWrite s sp o bs).lanelen = s.lanelen := by cases sp <;> rfl
@[simp] theorem memWrite_klen (s : State) (sp : Space) (o : Nat) (bs : List Byte) : (memWrite s sp o bs).klen = s.klen := by cases sp <;> rfl
@[simp] theorem memWrite_mlen (s : State) (sp : Space) (o : Nat) (bs : List Byte) : (memWrite s sp o bs).mlen = s.mlen := by cases sp <;> rfl
@[simp] theorem memWrite_phase (s : State) (sp : Space) (o : Nat) (bs : List Byte) : (memWrite s sp o bs).phase = s.phase := by cases sp <;> rfl
@[simp] theorem memWrite_hreg (s : State) (sp : Space) (o : Nat) (bs : List Byte) : (memWrite s sp o bs).hreg = s.hreg := by cases sp <;> rfl
@[simp] theorem memWrite_breg (s : State) (sp : Space) (o : Nat) (bs : List Byte) : (memWrite s sp o bs).breg = s.breg := by cases sp <;> rfl
@[simp] theorem memWrite_out (s : State) (sp : Space) (o : Nat) (bs : List Byte) : (memWrite s sp o bs).out = s.out := by cases sp <;> rfl
@[simp] theorem memWrite_pk (s : State) (sp : Space) (o : Nat) (bs : List Byte) : (memWrite s sp o bs).pk = s.pk := by cases sp <;> rfl
@[simp] theorem memWrite_hu1 (s : State) (sp : Space) (o : Nat) (bs : List Byte) : (memWrite s sp o bs).hu1 = s.hu1 := by cases sp <;> rfl
@[simp] theorem memWrite_hu2 (s : State) (sp : Space) (o : Nat) (bs : List Byte) : (memWrite s sp o bs).hu2 = s.hu2 := by cases sp <;> rfl
@[simp] theorem memWrite_hu3 (s : State) (sp : Space) (o : Nat) (bs : List Byte) : (memWrite s sp o bs).hu3 = s.hu3 := by cases sp <;> rfl
@[simp] theorem memWrite_host (s : State) (sp : Space) (o : Nat) (bs : List Byte) : (memWrite s sp o bs).host = s.host := by cases sp <;> rfl
@[simp] theorem memWrite_replies (s : State) (sp : Space) (o : Nat) (bs : List Byte) : (memWrite s sp o bs).replies = s.replies := by cases sp <;> rfl
@[simp] theorem memWrite_schedule (s : State) (sp : Space) (o : Nat) (bs : List Byte) : (memWrite s sp o bs).schedule = s.schedule := by cases sp <;> rfl
@[simp] theorem memWrite_tick (s : State) (sp : Space) (o : Nat) (bs : List Byte) : (memWrite s sp o bs).tick = s.tick := by cases sp <;> rfl

/-! ### The status updates -/

@[simp] theorem accepted_busy (t : Status) (op : BitVec 4) : (t.accepted op).busy = true := rfl
@[simp] theorem accepted_done (t : Status) (op : BitVec 4) : (t.accepted op).done = false := rfl
@[simp] theorem accepted_err (t : Status) (op : BitVec 4) : (t.accepted op).err = t.err := rfl
@[simp] theorem accepted_haz (t : Status) (op : BitVec 4) : (t.accepted op).haz = t.haz := rfl
@[simp] theorem accepted_errcode (t : Status) (op : BitVec 4) : (t.accepted op).errcode = t.errcode := rfl
@[simp] theorem accepted_lastop (t : Status) (op : BitVec 4) : (t.accepted op).lastop = op := rfl
@[simp] theorem completed_busy (t : Status) : (t.completed).busy = false := rfl
@[simp] theorem completed_done (t : Status) : (t.completed).done = true := rfl
@[simp] theorem completed_err (t : Status) : (t.completed).err = t.err := rfl
@[simp] theorem completed_haz (t : Status) : (t.completed).haz = t.haz := rfl
@[simp] theorem completed_errcode (t : Status) : (t.completed).errcode = t.errcode := rfl
@[simp] theorem completed_lastop (t : Status) : (t.completed).lastop = t.lastop := rfl
@[simp] theorem raised_busy (t : Status) (c : ErrCause) : (t.raised c).busy = t.busy := rfl
@[simp] theorem raised_done (t : Status) (c : ErrCause) : (t.raised c).done = false := rfl
@[simp] theorem raised_err (t : Status) (c : ErrCause) : (t.raised c).err = true := rfl
@[simp] theorem raised_haz (t : Status) (c : ErrCause) : (t.raised c).haz = t.haz := rfl
@[simp] theorem raised_errcode (t : Status) (c : ErrCause) : (t.raised c).errcode = c.code := rfl
@[simp] theorem raised_lastop (t : Status) (c : ErrCause) : (t.raised c).lastop = t.lastop := rfl
@[simp] theorem cleared_busy (t : Status) : (t.cleared).busy = t.busy := rfl
@[simp] theorem cleared_done (t : Status) : (t.cleared).done = false := rfl
@[simp] theorem cleared_err (t : Status) : (t.cleared).err = false := rfl
@[simp] theorem cleared_haz (t : Status) : (t.cleared).haz = false := rfl
@[simp] theorem cleared_errcode (t : Status) : (t.cleared).errcode = 0 := rfl
@[simp] theorem cleared_lastop (t : Status) : (t.cleared).lastop = Instr.clear.opcode := rfl
@[simp] theorem hazarded_busy (t : Status) : (t.hazarded).busy = t.busy := rfl
@[simp] theorem hazarded_done (t : Status) : (t.hazarded).done = t.done := rfl
@[simp] theorem hazarded_err (t : Status) : (t.hazarded).err = t.err := rfl
@[simp] theorem hazarded_haz (t : Status) : (t.hazarded).haz = true := rfl
@[simp] theorem hazarded_errcode (t : Status) : (t.hazarded).errcode = t.errcode := rfl
@[simp] theorem hazarded_lastop (t : Status) : (t.hazarded).lastop = t.lastop := rfl

end Sys2Proof.Machine
end

