-- ==== Sys2Proof/Laws/Memory.lean ====
section
/-! SUPPORT. The laws of the buffers: what a read gives after a write, and that a write keeps the canonical form. -/

namespace Sys2Proof.Machine

namespace Memory

theorem get_append (m n : Memory) (a : Nat) : get (m ++ n) a = (get m a).or (get n a) := by
  induction m with
  | nil => simp [get]
  | cons c m ih =>
    obtain ⟨k, b⟩ := c
    by_cases h : k = a <;> simp [get, h, ih]

theorem get_filter (m : Memory) (p : Nat → Bool) (a : Nat) :
    get (m.filter fun c => p c.1) a = if p a then get m a else none := by
  induction m with
  | nil => simp [get]
  | cons c m ih =>
    obtain ⟨k, b⟩ := c
    by_cases hk : k = a
    · subst hk
      by_cases hp : p k <;> simp_all [get]
    · by_cases hp : p k <;> simp [get, hp, hk, ih]

theorem get_cells (bs : List Byte) (off a : Nat) :
    get (cells off bs) a = if off ≤ a then bs[a - off]? else none := by
  induction bs generalizing off with
  | nil => simp [cells, get]
  | cons b bs ih =>
    simp only [cells, get, ih]
    by_cases h : off = a
    · subst h; simp
    · by_cases h' : off ≤ a
      · have h1 : off + 1 ≤ a := by omega
        have h2 : a - off = (a - (off + 1)) + 1 := by omega
        simp [h, h', h1, h2]
      · simp [h, h', show ¬ off + 1 ≤ a by omega]

/-- What a read gives after a write: the byte stored inside the range written, the old byte outside it. -/
theorem get_write (m : Memory) (off : Nat) (bs : List Byte) (a : Nat) :
    get (m.write off bs) a = if off ≤ a ∧ a < off + bs.length then bs[a - off]? else get m a := by
  unfold write
  have h1 := get_filter m (fun k => decide (k < off)) a
  have h2 := get_filter m (fun k => decide (off + bs.length ≤ k)) a
  rw [get_append, get_append, h1, h2, get_cells]
  by_cases ha : off ≤ a
  · by_cases hb : a < off + bs.length
    · have : a - off < bs.length := by omega
      simp [ha, hb, show ¬ a < off by omega, this]
    · simp [ha, hb, show ¬ a < off by omega, show off + bs.length ≤ a by omega,
        List.getElem?_eq_none (show bs.length ≤ a - off by omega)]
  · simp [ha, show a < off by omega, show ¬ off + bs.length ≤ a by omega]

theorem cells_range (bs : List Byte) (off : Nat) : ∀ c ∈ cells off bs, off ≤ c.1 ∧ c.1 < off + bs.length := by
  induction bs generalizing off with
  | nil => simp [cells]
  | cons b bs ih =>
    intro c hc
    simp only [cells, List.mem_cons] at hc
    rcases hc with rfl | hc
    · simp
    · have := ih (off + 1) c hc
      simp only [List.length_cons]
      omega

theorem cells_wf (bs : List Byte) (off : Nat) : wf (cells off bs) := by
  induction bs generalizing off with
  | nil => simp [cells, wf]
  | cons b bs ih =>
    refine List.pairwise_cons.2 ⟨fun c hc => ?_, ih (off + 1)⟩
    have := (cells_range bs (off + 1) c hc).1
    simp only
    omega

/-- Every write keeps the canonical form. -/
theorem write_wf (m : Memory) (off : Nat) (bs : List Byte) (h : wf m) : wf (m.write off bs) := by
  unfold write
  refine List.pairwise_append.2 ⟨List.pairwise_append.2 ⟨h.filter _, cells_wf bs off, ?_⟩, h.filter _, ?_⟩
  · intro x hx y hy
    have h1 := (List.mem_filter.1 hx).2
    have h2 := (cells_range bs off y hy).1
    simp at h1
    omega
  · intro x hx y hy
    have h2 := (List.mem_filter.1 hy).2
    simp at h2
    rcases List.mem_append.1 hx with hx | hx
    · have h1 := (List.mem_filter.1 hx).2
      simp at h1
      omega
    · have h1 := (cells_range bs off x hx).2
      omega

/-- The entries after a write lie among the old ones or in the range written. -/
theorem mem_write (m : Memory) (off : Nat) (bs : List Byte) :
    ∀ c ∈ m.write off bs, c ∈ m ∨ (off ≤ c.1 ∧ c.1 < off + bs.length) := by
  intro c hc
  rcases List.mem_append.1 hc with hc | hc
  · rcases List.mem_append.1 hc with hc | hc
    · exact .inl (List.mem_filter.1 hc).1
    · exact .inr (cells_range bs off c hc)
  · exact .inl (List.mem_filter.1 hc).1

/-- A write of `bs` below the capacity keeps a buffer in form. -/
theorem bufferOk_write (m : Memory) (cap off : Nat) (bs : List Byte) (h : bufferOk m cap)
    (hb : off + bs.length ≤ cap) : bufferOk (m.write off bs) cap := by
  refine ⟨write_wf m off bs h.1, fun c hc => ?_⟩
  rcases mem_write m off bs c hc with hc | hc
  · exact h.2 c hc
  · omega

end Memory

/-- The buffers of the state after reset are in canonical form. -/
theorem reset_memory_wf : State.reset.key.wf ∧ State.reset.msg.wf ∧ State.reset.lane1.wf ∧ State.reset.lane2.wf ∧
    State.reset.lane3.wf := by
  simp [State.reset, State.afterReset]

/-- What a space holds after `MemWrite` to a buffer. -/
theorem held_memWrite (s : State) (sp sp' : Space) (off a : Nat) (bs : List Byte) (h : sp ≠ .tagcat) :
    (memWrite s sp off bs).held sp' a =
      if sp' = sp ∧ off ≤ a ∧ a < off + bs.length then bs[a - off]? else s.held sp' a := by
  cases sp <;> cases sp' <;> simp_all [memWrite, State.held, Memory.get_write]

@[simp] theorem length_memRead (s : State) (sp : Space) (off n : Nat) : (memRead s sp off n).length = n := by
  simp [memRead]

/-- A read depends only on what the space holds in its range and on the tick. -/
theorem memRead_congr (s t : State) (sp : Space) (off n : Nat) (ht : s.tick = t.tick)
    (h : ∀ o, off ≤ o → o < off + n → s.held sp o = t.held sp o) : memRead s sp off n = memRead t sp off n := by
  refine List.map_congr_left fun o ho => ?_
  have := List.mem_range'.1 ho
  simp only [readByte, ht, h o (by omega) (by omega)]

/-- A read of bytes that are all written depends on nothing else. -/
theorem memRead_congr_written (s t : State) (sp : Space) (n : Nat) (hw : Written s sp n)
    (h : ∀ o, o < n → s.held sp o = t.held sp o) : memRead s sp 0 n = memRead t sp 0 n := by
  refine List.map_congr_left fun o ho => ?_
  have ho := List.mem_range'.1 ho
  have hw := hw o (by omega)
  rw [readByte, readByte, ← h o (by omega)]
  obtain ⟨b, hb⟩ := Option.ne_none_iff_exists'.1 hw
  simp [hb]

end Sys2Proof.Machine
end

