-- ==== Sys2Proof/Laws/Ops.lean ====
section
/-! SUPPORT. For each shared operation, one lemma that says once everything it can do; and the inversion of a step. -/

namespace Sys2Proof.Machine

/-! ## Commands -/

/-- A command never stops the machine (spec/60_exceptions.md R230). -/
theorem exec_next (i : Instr) (s : State) : ∃ t, exec i s = .next t := by
  cases i <;> exact ⟨_, rfl⟩

/-- The opcode of a decoded opcode is itself. -/
theorem opcode_of_decodeOp (op : BitVec 4) (i : Instr) (h : decodeOp op = some i) : i.opcode = op := by
  revert h
  revert op
  cases i <;> decide

@[simp] theorem decodeOp_opcode (i : Instr) : decodeOp i.opcode = some i := by cases i <;> rfl

theorem opcode_injective (i j : Instr) (h : i.opcode = j.opcode) : i = j :=
  Option.some.inj (by rw [← decodeOp_opcode i, ← decodeOp_opcode j, h])

@[simp] theorem runs_eq_true (i : Instr) (s : State) : runs i s = true ↔ s.status.lastop = i.opcode := by
  simp [runs]

/-- The issue of a legal command other than CLEAR. -/
theorem issue_cases (i : Instr) (s : State) :
    (s.status.busy = true ∧ issue i s = hazard s) ∨
    (s.status.busy = false ∧ s.status.err = true ∧ issue i s = s) ∨
    (s.status.busy = false ∧ s.status.err = false ∧
      ((usesKey i = true ∧ s.params.keyMax < s.keylen.toNat ∧ issue i s = raiseErr .keyLen s) ∨
       (usesMsg i = true ∧ s.params.msgMax < s.msglen.toNat ∧ issue i s = raiseErr .msgLen s) ∨
       ((usesKey i = true → s.keylen.toNat ≤ s.params.keyMax) ∧
        (usesMsg i = true → s.msglen.toNat ≤ s.params.msgMax) ∧ issue i s = accept i s))) := by
  unfold issue
  cases hb : s.status.busy
  · cases he : s.status.err
    · by_cases hk : usesKey i = true ∧ s.params.keyMax < s.keylen.toNat
      · simp [hk]
      · by_cases hm : usesMsg i = true ∧ s.params.msgMax < s.msglen.toNat
        · simp [hk, hm]
        · simp only [not_and, Nat.not_lt] at hk hm
          simp only [Bool.false_eq_true, if_false, Bool.and_eq_true, decide_eq_true_eq]
          rw [if_neg (fun h => absurd (hk h.1) (by omega)), if_neg (fun h => absurd (hm h.1) (by omega))]
          exact .inr (.inr ⟨trivial, trivial, .inr (.inr ⟨hk, hm, rfl⟩)⟩)
    · simp
  · simp

/-- The issue of CLEAR. -/
theorem issueClear_cases (s : State) :
    (s.status.busy = true ∧ issueClear s = hazard s) ∨ (s.status.busy = false ∧ issueClear s = clearStatus s) := by
  unfold issueClear
  cases s.status.busy <;> simp

/-- The issue of an illegal word. -/
theorem issueIllegal_cases (s : State) :
    (s.status.busy = true ∧ issueIllegal s = hazard s) ∨
    (s.status.busy = false ∧ s.status.err = true ∧ issueIllegal s = s) ∨
    (s.status.busy = false ∧ s.status.err = false ∧ issueIllegal s = raiseErr .illegalCmd s) := by
  unfold issueIllegal
  cases s.status.busy <;> cases s.status.err <;> simp

/-- A command word is its command, or an illegal word. -/
theorem command_cases (w : Word) (s : State) :
    (∃ i, decode w = .ok i ∧ command w s = exec i s) ∨
    (∃ e, decode w = .error e ∧ command w s = .next (issueIllegal s)) := by
  unfold command
  cases h : decode w with
  | ok i => exact .inl ⟨i, rfl, rfl⟩
  | error e => exact .inr ⟨e, rfl, rfl⟩

/-! ## Hash units -/

theorem unitStep_of_inactive (u : UnitId) (s : State) (h : (s.unit u).active = false) : unitStep u s = s := by
  simp [unitStep, h]

theorem unitStep_of_active (u : UnitId) (s : State) (h : (s.unit u).active = true) :
    unitStep u s = s.setUnit u ((compressBlock s u).endBlock (stream s u).length) := by
  simp [unitStep, h]

/-- A unit's step changes that unit alone. -/
theorem unitStep_eq_setUnit (u : UnitId) (s : State) : unitStep u s = s.setUnit u ((unitStep u s).unit u) := by
  cases h : (s.unit u).active
  · simp [unitStep_of_inactive u s h]
  · simp [unitStep_of_active u s h]

/-- What the end of a block does. -/
theorem endBlock_cases (x : HashUnit) (n : Nat) :
    (x.bidx.toNat ≠ nblocks n ∧ x.endBlock n = x) ∨
    (x.bidx.toNat = nblocks n ∧
      ((x.phase = .hash ∨ x.phase = .outer) ∧ x.endBlock n = { x with tag := digest x.h, phase := .done } ∨
       x.phase = .inner ∧ x.endBlock n = { x with idig := digest x.h, h := iv, bidx := 0, phase := .outer } ∨
       (x.phase = .idle ∨ x.phase = .done) ∧ x.endBlock n = x)) := by
  unfold HashUnit.endBlock
  by_cases h : x.bidx.toNat = nblocks n
  · cases hp : x.phase <;> simp [h]
  · simp [h]

/-- The length of the stream a unit is hashing (R150, R167). -/
theorem length_stream (s : State) (u : UnitId) :
    (stream s u).length =
      match (s.unit u).phase with
      | .hash => (s.unit u).blen.toNat
      | .inner => 64 + (s.unit u).blen.toNat
      | .outer => 96
      | .idle => 0
      | .done => 0 := by
  unfold stream body
  cases (s.unit u).phase <;> simp

@[simp] theorem compressBlock_phase (s : State) (u : UnitId) : (compressBlock s u).phase = (s.unit u).phase := rfl
@[simp] theorem compressBlock_src (s : State) (u : UnitId) : (compressBlock s u).src = (s.unit u).src := rfl
@[simp] theorem compressBlock_blen (s : State) (u : UnitId) : (compressBlock s u).blen = (s.unit u).blen := rfl
@[simp] theorem compressBlock_bidx (s : State) (u : UnitId) : (compressBlock s u).bidx = (s.unit u).bidx + 1 := rfl
@[simp] theorem compressBlock_tag (s : State) (u : UnitId) : (compressBlock s u).tag = (s.unit u).tag := rfl
@[simp] theorem compressBlock_idig (s : State) (u : UnitId) : (compressBlock s u).idig = (s.unit u).idig := rfl

@[simp] theorem compressBlock_blk (s : State) (u : UnitId) :
    (compressBlock s u).blk = padBlock (stream s u) (s.unit u).bidx.toNat := rfl

@[simp] theorem compressBlock_h (s : State) (u : UnitId) :
    (compressBlock s u).h =
      engine s.params.accel (s.unit u).h (padBlock (stream s u) (s.unit u).bidx.toNat) := rfl

/-! ## CTRL actions -/

theorem keyNormFirst_cases (s : State) :
    (s.klen.toNat ≤ 64 ∧ keyNormFirst s = { s with pk := padKey (keyOperand s), phase := .kndone }) ∨
    (64 < s.klen.toNat ∧ keyNormFirst s = { startHash .u1 .key s.klen s with phase := .knhash }) := by
  unfold keyNormFirst
  by_cases h : s.klen.toNat ≤ 64
  · simp [h]
  · simp [h]; omega

theorem keyNormSecond_cases (s : State) :
    (s.hu1.phase = .done ∧
      keyNormSecond s = { releaseUnit .u1 s with pk := padKeyDigest s.hu1.tag, phase := .kndone }) ∨
    (s.hu1.phase ≠ .done ∧ keyNormSecond s = s) := by
  unfold keyNormSecond
  by_cases h : s.hu1.phase = .done <;> simp [h]

theorem collect_cases (s : State) :
    (s.hu1.phase = .done ∧ collect s = complete { releaseUnit .u1 s with out := s.hu1.tag }) ∨
    (s.hu1.phase ≠ .done ∧ collect s = s) := by
  unfold collect
  by_cases h : s.hu1.phase = .done <;> simp [h]

@[simp] theorem allDone_eq_true (s : State) :
    allDone s = true ↔ s.hu1.phase = .done ∧ s.hu2.phase = .done ∧ s.hu3.phase = .done := by
  simp [allDone, and_assoc]

/-- The join, with its effect on the three units written out. -/
theorem join_cases (s : State) :
    (allDone s = true ∧
      join s = { s with
        tagcat := catTags s.hu1.tag s.hu2.tag s.hu3.tag
        hu1 := { s.hu1 with src := .tagcat, blen := 96, bidx := 0, h := iv, phase := .inner }
        hu2 := { s.hu2 with phase := .idle }
        hu3 := { s.hu3 with phase := .idle }
        phase := .final }) ∨
    (allDone s = false ∧ join s = s) := by
  unfold join
  cases h : allDone s
  · exact .inr ⟨rfl, if_neg (by simp)⟩
  · refine .inl ⟨rfl, ?_⟩
    simp only [if_true, releaseUnit, startHmac, startJob, State.setUnit, State.unit]

/-- The split action, with the three lane writes written out. -/
theorem doSplit_eq (s : State) :
    doSplit s = { s with
      lane1 := s.lane1.write 0 (split (msgOperand s)).lane1
      lane2 := s.lane2.write 0 (split (msgOperand s)).lane2
      lane3 := s.lane3.write 0 (split (msgOperand s)).lane3
      lanelen := BitVec.ofNat 32 (laneLength s.mlen.toNat) } := rfl

/-- The fan-out, with the three job starts written out. -/
theorem fanOut_eq (s : State) :
    fanOut s = { s with
      hu1 := { s.hu1 with src := .lane1, blen := s.lanelen, bidx := 0, h := iv, phase := .inner }
      hu2 := { s.hu2 with src := .lane2, blen := s.lanelen, bidx := 0, h := iv, phase := .inner }
      hu3 := { s.hu3 with src := .lane3, blen := s.lanelen, bidx := 0, h := iv, phase := .inner }
      phase := .fanout } := rfl

/-! ## Host transactions -/

/-- Where a host address leads. -/
theorem route_cases (p : Params) (a : Nat) :
    (¬ (p.base ≤ a ∧ a < p.base + 0x05000000) ∧ route p a = .outside) ∨
    ((p.base ≤ a ∧ a < p.base + 0x05000000) ∧ a % 4 ≠ 0 ∧ route p a = .misaligned) ∨
    ((p.base ≤ a ∧ a < p.base + 0x05000000) ∧ a % 4 = 0 ∧ route p a = .offset (a - p.base)) := by
  unfold route
  by_cases h : a < p.base ∨ p.base + 0x05000000 ≤ a
  · exact .inl ⟨by omega, by simp [h]⟩
  · by_cases h4 : a % 4 = 0
    · exact .inr (.inr ⟨by omega, h4, by simp [h, h4]⟩)
    · exact .inr (.inl ⟨by omega, h4, by simp [h, h4]⟩)

/-- Everything a host write can do. -/
theorem hostWrite_cases (a : Nat) (d : Word) (s : State) :
    (route s.params a = .outside ∧ hostWrite a d s = .fault .outsideCore) ∨
    (route s.params a = .misaligned ∧ hostWrite a d s = .next (s.answer .error none)) ∨
    (∃ o, route s.params a = .offset o ∧
      (s.status.busy = true ∧ hostWrite a d s = .next (hazard (s.answer .okay none)) ∨
       s.status.busy = false ∧ locate s.params o = .cmd ∧ hostWrite a d s = command d (s.answer .okay none) ∨
       s.status.busy = false ∧ locate s.params o ≠ .cmd ∧
        hostWrite a d s = .next (storeWord (s.answer .okay none) (locate s.params o) d))) := by
  unfold hostWrite
  cases hr : route s.params a with
  | outside => exact .inl ⟨rfl, rfl⟩
  | misaligned => exact .inr (.inl ⟨rfl, rfl⟩)
  | offset o =>
    refine .inr (.inr ⟨o, rfl, ?_⟩)
    cases hb : s.status.busy
    · by_cases hl : locate s.params o = .cmd
      · exact .inr (.inl ⟨rfl, hl, by simp [hl, writeLoc]⟩)
      · refine .inr (.inr ⟨rfl, hl, ?_⟩)
        unfold writeLoc
        cases h : locate s.params o <;> simp_all
    · exact .inl ⟨rfl, by simp⟩

/-- Everything a host read can do. -/
theorem hostRead_cases (a : Nat) (s : State) :
    (route s.params a = .outside ∧ hostRead a s = .fault .outsideCore) ∨
    (route s.params a = .misaligned ∧ hostRead a s = .next (s.answer .error (some (freeDatum s)))) ∨
    (∃ o, route s.params a = .offset o ∧
      hostRead a s = .next (s.answer .okay (some (readDatum s (locate s.params o))))) := by
  unfold hostRead
  cases hr : route s.params a with
  | outside => exact .inl ⟨rfl, rfl⟩
  | misaligned => exact .inr (.inl ⟨rfl, rfl⟩)
  | offset o => exact .inr (.inr ⟨o, rfl, rfl⟩)

/-- Only offset 0 of the core is `CMD` (R34). -/
theorem locate_eq_cmd (p : Params) (o : Nat) : locate p o = .cmd ↔ o = 0 := by
  constructor
  · intro h
    by_contra ho
    have hw : ∀ sp cap x, windowAt sp cap x ≠ .cmd := by
      intro sp cap x
      unfold windowAt
      split <;> simp
    have hr : registerAt o ≠ .cmd := by
      unfold registerAt
      rw [if_neg ho]
      repeat' split
      all_goals simp
    unfold locate at h
    split at h
    · exact hr h
    repeat' split at h
    all_goals first | exact hw _ _ _ h | simp at h
  · rintro rfl
    rfl

/-! ## A step -/

/-- Everything a step can do when it goes on. -/
theorem step_cases (s t : State) (h : step s = .next t) :
    (nextAgent s = none ∧ t = s) ∨ ∃ a, nextAgent s = some a ∧ move a s.begun = .next t := by
  unfold step nextMove at h
  cases ha : nextAgent s with
  | none => rw [ha] at h; exact .inl ⟨rfl, by simpa using h.symm⟩
  | some a => rw [ha] at h; exact .inr ⟨a, rfl, h⟩

theorem step_of_nextAgent (s : State) (a : Agent) (h : nextAgent s = some a) : step s = move a s.begun := by
  simp [step, nextMove, h]

/-- HOST's step is the effect of its oldest event. -/
theorem step_of_hostTurn (s : State) (e : HostEvent) (rest : List HostEvent) (h : HostTurn s e rest) :
    step s = event e (s.taken rest) := by
  rw [step_of_nextAgent s .host h.1]
  simp [move, hostMove, h.2, State.taken]

/-! ## Turns and fairness -/

theorem mem_all (a : Agent) : a ∈ Agent.all := by
  rcases a with _ | _ | u
  · decide
  · decide
  · cases u <;> decide

/-- Every round gives every agent a turn (R272). -/
theorem mem_roundOf (a : Agent) (tick : Nat) : a ∈ roundOf tick := by
  by_cases h : a ∈ Config.round tick <;> simp [roundOf, h, mem_all]

/-- Everything the turns to come can be. -/
theorem turns_cases (s : State) :
    (s.schedule ≠ [] ∧ turns s = s.schedule) ∨
    (s.schedule = [] ∧ enabledAgents s = [] ∧ turns s = []) ∨
    (s.schedule = [] ∧ enabledAgents s ≠ [] ∧ turns s = roundOf s.tick) := by
  unfold turns
  cases s.schedule with
  | cons a rest => exact .inl ⟨by simp, rfl⟩
  | nil => cases h : enabledAgents s <;> simp

theorem mem_enabledAgents (s : State) (a : Agent) : a ∈ enabledAgents s ↔ enabled s a = true := by
  simp [enabledAgents, mem_all]

/-- The machine waits exactly when nothing is scheduled and nothing is enabled. -/
theorem nextAgent_eq_none (s : State) : nextAgent s = none ↔ s.schedule = [] ∧ enabledAgents s = [] := by
  have hr : roundOf s.tick ≠ [] := List.ne_nil_of_mem (mem_roundOf .ctrl s.tick)
  rcases turns_cases s with ⟨h, ht⟩ | ⟨h, he, ht⟩ | ⟨h, he, ht⟩ <;> simp [nextAgent, ht, h, hr] <;> assumption

/-- An enabled agent whose turn does not come before the schedule is used up gets one in the next round. -/
theorem mem_turns_of_enabled (s : State) (a : Agent) (hs : s.schedule = []) (h : enabled s a = true) : a ∈ turns s := by
  rcases turns_cases s with ⟨h', _⟩ | ⟨_, he, _⟩ | ⟨_, _, ht⟩
  · exact absurd hs h'
  · exact absurd ((mem_enabledAgents s a).2 h) (by simp [he])
  · exact ht ▸ mem_roundOf a s.tick

@[simp] theorem issue_schedule (i : Instr) (s : State) : (issue i s).schedule = s.schedule := by
  rcases issue_cases i s with ⟨_, e⟩ | ⟨_, _, e⟩ | ⟨_, _, ⟨_, _, e⟩ | ⟨_, _, e⟩ | ⟨_, _, e⟩⟩ <;> rw [e] <;> rfl

@[simp] theorem issueClear_schedule (s : State) : (issueClear s).schedule = s.schedule := by
  rcases issueClear_cases s with ⟨_, e⟩ | ⟨_, e⟩ <;> rw [e] <;> rfl

@[simp] theorem keyNormFirst_schedule (s : State) : (keyNormFirst s).schedule = s.schedule := by
  rcases keyNormFirst_cases s with ⟨_, e⟩ | ⟨_, e⟩ <;> exact (congrArg State.schedule e).trans rfl

@[simp] theorem keyNormSecond_schedule (s : State) : (keyNormSecond s).schedule = s.schedule := by
  rcases keyNormSecond_cases s with ⟨_, e⟩ | ⟨_, e⟩ <;> exact (congrArg State.schedule e).trans rfl

@[simp] theorem collect_schedule (s : State) : (collect s).schedule = s.schedule := by
  rcases collect_cases s with ⟨_, e⟩ | ⟨_, e⟩ <;> exact (congrArg State.schedule e).trans rfl

@[simp] theorem join_schedule (s : State) : (join s).schedule = s.schedule := by
  rcases join_cases s with ⟨_, e⟩ | ⟨_, e⟩ <;> rw [e]

@[simp] theorem doSplit_schedule (s : State) : (doSplit s).schedule = s.schedule := by rw [doSplit_eq]

@[simp] theorem fanOut_schedule (s : State) : (fanOut s).schedule = s.schedule := by rw [fanOut_eq]

@[simp] theorem initAction_schedule (s : State) : (initAction s).schedule = s.schedule := rfl
@[simp] theorem compressAction_schedule (s : State) : (compressAction s).schedule = s.schedule := rfl
@[simp] theorem hashStart_schedule (s : State) : (hashStart s).schedule = s.schedule := rfl
@[simp] theorem hmacStart_schedule (s : State) : (hmacStart s).schedule = s.schedule := rfl

/-- No command touches the schedule: the turns are used up by moves alone. -/
theorem exec_schedule (i : Instr) (s t : State) (h : exec i s = .next t) : t.schedule = s.schedule := by
  cases i <;>
    simp only [exec, execInit, execCompress, execHash, execKeynorm, execHmac, execSplit, execMac, execClear,
      Host.Outcome.next.injEq] at h <;>
    subst h <;> split <;> (try split) <;> simp

@[simp] theorem storeWord_schedule (s : State) (loc : Loc) (d : Word) :
    (storeWord s loc d).schedule = s.schedule := by
  unfold storeWord
  split <;> simp

@[simp] theorem pollStatus_schedule (s : State) : (pollStatus s).schedule = s.schedule := by
  unfold pollStatus
  dsimp only
  split <;> rfl

theorem command_schedule (w : Word) (s t : State) (h : command w s = .next t) : t.schedule = s.schedule := by
  rcases command_cases w s with ⟨i, _, e⟩ | ⟨_, _, e⟩
  · exact exec_schedule i s t (e ▸ h)
  · rw [e, Host.Outcome.next.injEq] at h
    rcases issueIllegal_cases s with ⟨_, e⟩ | ⟨_, _, e⟩ | ⟨_, _, e⟩ <;> rw [← h, e] <;> rfl

theorem event_schedule (e : HostEvent) (s t : State) (h : event e s = .next t) : t.schedule = s.schedule := by
  cases e with
  | wr a d =>
    rcases hostWrite_cases a d s with ⟨_, e⟩ | ⟨_, e⟩ | ⟨o, _, ⟨_, e⟩ | ⟨_, _, e⟩ | ⟨_, _, e⟩⟩ <;>
      simp only [event, e] at h
    · cases h
    · cases h; rfl
    · cases h; rfl
    · exact (command_schedule d _ t h).trans rfl
    · cases h; simp
  | rd a =>
    rcases hostRead_cases a s with ⟨_, e⟩ | ⟨_, e⟩ | ⟨o, _, e⟩ <;> simp only [event, e] at h <;> cases h <;> rfl
  | wait => cases h; simp
  | rst => cases h; rfl

theorem move_schedule (a : Agent) (s t : State) (h : move a s = .next t) : t.schedule = s.schedule := by
  rcases a with _ | _ | u
  · simp only [move, hostMove] at h
    split at h
    · cases h; rfl
    · exact (event_schedule _ _ t h).trans rfl
  · simp only [move, ctrlMove] at h
    split at h
    · cases h; rfl
    · split at h
      · exact exec_schedule _ s t h
      · cases h; rfl
  · simp only [move, Host.Outcome.next.injEq] at h
    rw [← h, unitStep_eq_setUnit, setUnit_schedule]

/-- What a step does to the turns: it uses up one, or the machine waits. -/
theorem step_schedule (s t : State) (h : step s = .next t) :
    (nextAgent s = none ∧ t = s) ∨ ∃ a, turns s = a :: t.schedule ∧ nextAgent s = some a := by
  rcases step_cases s t h with hn | ⟨a, ha, hm⟩
  · exact .inl hn
  · refine .inr ⟨a, ?_, ha⟩
    rw [move_schedule a _ t hm, begun_schedule]
    unfold nextAgent at ha
    cases ht : turns s with
    | nil => simp [ht] at ha
    | cons b rest => simp [ht] at ha; simp [ha]

/-- A run of `j + k` steps is a run of `j` steps followed by one of `k`. -/
theorem steps_add (j k : Nat) (s t : State) (h : steps j s = .next t) : steps (j + k) s = steps k t := by
  induction j generalizing s with
  | zero =>
    rw [steps, Host.Outcome.next.injEq] at h
    rw [h, Nat.zero_add]
  | succ j ih =>
    rw [show j + 1 + k = (j + k) + 1 by omega]
    rw [steps] at h ⊢
    split at h
    · exact ih _ h
    all_goals cases h

end Sys2Proof.Machine
end

