-- ==== Sys2Proof/Laws/PerInstr.lean ====
section
/-! SUPPORT. Families of statements about each command as syntax, one lemma per constructor. -/

namespace Sys2Proof.Laws.OpcodeLegal

/-- The command's word is well formed, and its opcode is the one that names it (spec/30_encoding.md R92). -/
def Statement (i : Instr) : Prop :=
  (CmdWord.ofWord (encode i)).wellFormed = true ∧ decodeOp (CmdWord.ofWord (encode i)).op = some i

theorem init : Statement .init := ⟨rfl, rfl⟩
theorem compress : Statement .compress := ⟨rfl, rfl⟩
theorem hash : Statement .hash := ⟨rfl, rfl⟩
theorem keynorm : Statement .keynorm := ⟨rfl, rfl⟩
theorem hmac : Statement .hmac := ⟨rfl, rfl⟩
theorem split : Statement .split := ⟨rfl, rfl⟩
theorem mac : Statement .mac := ⟨rfl, rfl⟩
theorem clear : Statement .clear := ⟨rfl, rfl⟩

end Sys2Proof.Laws.OpcodeLegal
end

