-- ==== Sys2Proof/Tests/Slice0.lean ====
section
/-! SUPPORT. The tests of the model: the smoke test of the well-formedness checks, decoding of words written out from
spec/30_encoding.md, values of spec/95_test_vectors.md, and for each statement with hypotheses a witness that meets
them. -/

namespace Sys2Proof.Tests

open Sys2Proof Sys2Proof.Machine

/-! ## Well-formedness: an ill-formed word for each check -/

theorem test_wf_reservedBit : CmdWord.wellFormed { rsvd := 1, op := 7 } = false := by decide
theorem test_wf_opcodeZero : CmdWord.wellFormed { rsvd := 0, op := 0 } = false := by decide
theorem test_wf_opcodeNine : CmdWord.wellFormed { rsvd := 0, op := 9 } = false := by decide
theorem test_wf_legal : CmdWord.wellFormed { rsvd := 0, op := 8 } = true := by decide
theorem test_params_keyMax : ¬ { Params.default with keyMax := 66 }.wf := by decide
theorem test_params_msgMax : ¬ { Params.default with msgMax := 192 }.wf := by decide
theorem test_params_base : ¬ { Params.default with base := 0x1000 }.wf := by decide
theorem test_params_default : Params.default.wf := by decide

/-! ## Decoding: the words of R92, bit by bit -/

theorem test_decode_init : decode 0b0000_0000_0000_0000_0000_0000_0000_0001 = .ok .init := by decide
theorem test_decode_compress : decode 0b0000_0000_0000_0000_0000_0000_0000_0010 = .ok .compress := by decide
theorem test_decode_hash : decode 0b0000_0000_0000_0000_0000_0000_0000_0011 = .ok .hash := by decide
theorem test_decode_keynorm : decode 0b0000_0000_0000_0000_0000_0000_0000_0100 = .ok .keynorm := by decide
theorem test_decode_hmac : decode 0b0000_0000_0000_0000_0000_0000_0000_0101 = .ok .hmac := by decide
theorem test_decode_split : decode 0b0000_0000_0000_0000_0000_0000_0000_0110 = .ok .split := by decide
theorem test_decode_mac : decode 0b0000_0000_0000_0000_0000_0000_0000_0111 = .ok .mac := by decide
theorem test_decode_clear : decode 0b0000_0000_0000_0000_0000_0000_0000_1000 = .ok .clear := by decide
theorem test_decode_nine : decode 0x00000009 = .error .noSuchOpcode := by decide
theorem test_decode_zero : decode 0x00000000 = .error .noSuchOpcode := by decide
theorem test_decode_reserved : decode 0x00010001 = .error .reservedBitsSet := by decide
theorem test_decodeTableWord : decodeTableWord 32 7 = some .mac := by decide
theorem test_encode_clear : encode .clear = 0x00000008 := by decide

/-! ## The functions: vectors of spec/95_test_vectors.md -/

/-- `pat(n)` of spec/95_test_vectors.md. -/
def pat (n : Nat) : List Byte := (List.range n).map (BitVec.ofNat 8)

/-- `pat1(n)` of spec/95_test_vectors.md. -/
def pat1 (n : Nat) : List Byte := (List.range n).map fun i => BitVec.ofNat 8 (i + 1)

/-- The eight words of a digest. -/
def wordsOf (d : Digest) : List Word := (List.range 8).map (wordAt d.toList)

theorem test_smallSigma : smallSigma0 0x80000000 = 0x11002000 ∧ smallSigma1 0x80000000 = 0x00205000 := by decide
theorem test_bigSigma : bigSigma0 0x6a09e667 = 0xce20b47e ∧ bigSigma1 0x510e527f = 0x3587272b := by decide
theorem test_ch : ch 0x510e527f 0x9b05688c 0x1f83d9ab = 0x1f85c98c := by decide
theorem test_maj : maj 0x6a09e667 0xbb67ae85 0x3c6ef372 = 0x3a6fe667 := by decide

/-- V-C4. -/
theorem test_compress_zero :
    compress (Vector.replicate 8 0) (Vector.replicate 64 0) =
      #v[0x7ca51614, 0x425c3ba8, 0xce54dd2f, 0xc2020ae7, 0xb6e574d1, 0x98136d0f, 0xae7e26cc, 0xbf0be7a6] := by
  decide +kernel

/-- V-C5, in the accelerated form. -/
theorem test_engine_ones :
    engine .accelerated (Vector.replicate 8 0xffffffff) (Vector.replicate 64 0xff) =
      #v[0x0598127a, 0xaf11706e, 0x77401fff, 0xd730c549, 0x0b84c867, 0xa98c6ca3, 0xd7f3c0f9, 0x06a78b79] := by
  decide +kernel

/-- R145 at the boundaries of the V-H table. -/
theorem test_nblocks : [0, 55, 56, 63, 64, 119, 120, 128].map nblocks = [1, 1, 2, 2, 2, 2, 3, 3] := by decide

/-- V-H2. -/
theorem test_hash_abc :
    wordsOf (sha256 [0x61, 0x62, 0x63]) =
      [0xba7816bf, 0x8f01cfea, 0x414140de, 0x5dae2223, 0xb00361a3, 0x96177a9c, 0xb410ff61, 0xf20015ad] := by
  decide +kernel

/-- V-H6: two final blocks. -/
theorem test_hash_pat56 :
    wordsOf (sha256 (pat 56)) =
      [0xda2ae4d6, 0xb36748f2, 0xa318f23e, 0x7ab1dfdf, 0x45acdc9d, 0x049bd80e, 0x59de82a6, 0x0895f562] := by
  decide +kernel

/-- V-K4: a key of 65 bytes is hashed. -/
theorem test_normalize_long :
    (normalize (pat 65)).toList.take 4 = [0x4b, 0xfd, 0x2c, 0x8b] ∧ (normalize (pat 65)).toList.drop 32 = zeros 32 := by
  decide +kernel

/-- V-M12. -/
theorem test_hmac_emptyMessage :
    wordsOf (hmac [] [0x4a, 0x65, 0x66, 0x65]) =
      [0x923598ca, 0x6d64af2a, 0x5dba79dc, 0xd021a8a0, 0xfe5c5f55, 0x7519adaa, 0xf0ad532d, 0x4506dd30] := by
  decide +kernel

/-- V-S8: one macro-block and a remainder of one byte. -/
theorem test_split_129 :
    (split (pat1 129)).lane1 = pat1 64 ++ [0x81] ++ zeros 63 ∧ (split (pat1 129)).lane2.drop 64 = zeros 64 ∧
      (split (pat1 129)).lane3 = rep 0x40 63 ++ [0xc0, 0x81] ++ zeros 63 := by
  decide +kernel

/-- V-S5: a remainder of 65 bytes. -/
theorem test_split_65 :
    (split (pat1 65)).lane2 = [0x41] ++ zeros 63 ∧ byteAt (split (pat1 65)).lane3 0 = 0x40 ∧
      byteAt (split (pat1 65)).lane3 1 = 0x02 := by
  decide +kernel

/-- V-L1. -/
theorem test_mac_empty :
    wordsOf (computeMAC [] [0x4a, 0x65, 0x66, 0x65]) =
      [0x2cab06a2, 0xbab015aa, 0x8ecaf1e9, 0x811eeeb9, 0x9d976bee, 0x1cfc3156, 0x47e79be9, 0x3632b9cb] := by
  decide +kernel

/-! ## Small states -/

/-- The next state of an outcome; the reset state where there is none. -/
def nextOf : Host.Outcome State Fault Refusal → State
  | .next t => t
  | .fault _ => State.reset
  | .refused _ => State.reset

/-- `s` with the events `es` to come, HOST moving for each of them. -/
def withHost (s : State) (es : List HostEvent) : State :=
  { s with host := es, schedule := es.map fun _ => Agent.host }

/-- `s` with the agent `a` the next to move. -/
def turnOf (a : Agent) (s : State) : State := { s with schedule := [a] }

/-- `s` with the key `01 02 03` and the message "abc" loaded and latched. -/
def loaded (s : State) : State :=
  { s with
    key := Memory.cells 0 [0x01, 0x02, 0x03], msg := Memory.cells 0 [0x61, 0x62, 0x63]
    keylen := 3, msglen := 3, klen := 3, mlen := 3 }

/-- A core that runs the command of opcode `op`, in phase `ph`. -/
def running (op : BitVec 4) (ph : Phase) : State :=
  loaded { State.reset with
    status := { busy := true, done := false, err := false, haz := false, errcode := 0, lastop := op }
    phase := ph }

/-- `s` with the three units in phase `ph`, their tags all `07`. -/
def unitsAt (ph : UnitPhase) (s : State) : State :=
  { s with
    hu1 := { s.hu1 with phase := ph, tag := Vector.replicate 32 0x07 }
    hu2 := { s.hu2 with phase := ph, tag := Vector.replicate 32 0x07 }
    hu3 := { s.hu3 with phase := ph, tag := Vector.replicate 32 0x07 } }

/-- An idle core with a pending error, as after an illegal word. -/
def failed : State := { State.reset with status := { State.reset.status with err := true, errcode := 1 } }

/-- An idle core with `HAZ = 1`. -/
def hazarded : State := { State.reset with status := { State.reset.status with haz := true } }

/-! ## Single steps -/

theorem test_reset_status : State.reset.status.word = 0x00000000 := by decide
theorem test_reset_waits : step State.reset = .next State.reset := rfl

/-- R223: the example of an illegal word followed by CLEAR. -/
theorem test_illegal_status : (nextOf (step (State.reset.withFetchWord 32 9))).status.word = 0x00000014 := by decide
theorem test_clear_status : (nextOf (step (failed.withFetchWord 32 8))).status.word = 0x00000800 := by decide
theorem test_clear_duringRun : (nextOf (step ((running 7 .exec).withFetchWord 32 8))).status.word = 0x00000709 := by
  decide

/-- V-C6. -/
theorem test_init_accepted : (nextOf (step (State.reset.withFetchWord 32 1))).status.word = 0x00000101 := by decide
theorem test_init_runs :
    (nextOf (exec .init (running 1 .exec))).hreg[7] = 0x5be0cd19 ∧
      (nextOf (exec .init (running 1 .exec))).status.word = 0x00000102 := by
  decide

/-- V-C2 as a command. -/
theorem test_compress_runs :
    (nextOf (exec .compress
      { running 2 .exec with hreg := iv, breg := bytesOf 64 [0x80] })).hreg[0] = 0xe3b0c442 := by
  decide +kernel
theorem test_compress_status : (nextOf (exec .compress (running 2 .exec))).status.word = 0x00000202 := by decide

theorem test_hash_starts :
    (nextOf (exec .hash (running 3 .exec))).hu1.phase = .hash ∧ (nextOf (exec .hash (running 3 .exec))).hu1.blen = 3 := by
  decide
theorem test_hash_collects :
    (nextOf (exec .hash (unitsAt .done (running 3 .run)))).out = Vector.replicate 32 0x07 ∧
      (nextOf (exec .hash (unitsAt .done (running 3 .run)))).status.word = 0x00000302 := by
  decide

theorem test_keynorm_short :
    (nextOf (exec .keynorm (running 4 .exec))).pk.toList = [0x01, 0x02, 0x03] ++ zeros 61 := by
  decide +kernel
theorem test_keynorm_completes : (nextOf (exec .keynorm (running 4 .kndone))).status.word = 0x00000402 := by decide

theorem test_hmac_starts : (nextOf (exec .hmac (running 5 .kndone))).hu1.phase = .inner := by decide
theorem test_hmac_collects : (nextOf (exec .hmac (unitsAt .done (running 5 .run)))).status.word = 0x00000502 := by
  decide

theorem test_split_lanes :
    (nextOf (exec .split (running 6 .exec))).held .lane3 2 = some 0x63 ∧
      (nextOf (exec .split (running 6 .exec))).held .lane2 63 = some 0x00 ∧
      (nextOf (exec .split (running 6 .exec))).held .lane1 64 = none := by
  decide +kernel
theorem test_split_status :
    (nextOf (exec .split (running 6 .exec))).lanelen = 64 ∧
      (nextOf (exec .split (running 6 .exec))).status.word = 0x00000602 := by
  decide

theorem test_mac_fansOut :
    (nextOf (exec .mac (running 7 .kndone))).hu2.src = .lane2 ∧
      (nextOf (exec .mac (running 7 .kndone))).hu3.phase = .inner ∧
      (nextOf (exec .mac (running 7 .kndone))).hu3.blen = 64 := by
  decide
theorem test_mac_collects : (nextOf (exec .mac (unitsAt .done (running 7 .final)))).status.word = 0x00000702 := by
  decide

/-- V-M2, step 1: the first inner block of HU1. -/
theorem test_unit_inner :
    let s := startHmac .u1 .msg 28 { running 5 .run with pk := padKey [0x4a, 0x65, 0x66, 0x65] }
    (unitStep .u1 s).hu1.h[0] = 0x655da7fa ∧ (unitStep .u1 s).hu1.bidx = 1 ∧ (unitStep .u1 s).hu1.phase = .inner := by
  decide +kernel

/-- V-S8 read through a window: big-endian. -/
theorem test_window_read :
    loadWord { State.reset with lane1 := Memory.cells 0 [0x01, 0x02, 0x03, 0x04] } (locate Params.default 0x02000000) =
      0x01020304 := by
  decide

theorem test_window_capacity :
    locate Params.default 0x01FFC = .window .key 0xFFC ∧ locate Params.default 0x02008000 = .reserved := by
  decide

theorem test_misaligned_reply :
    (nextOf (step (withHost State.reset [.wr 0x00A 5]))).replies = [{ resp := .error, datum := none }] := by
  decide

/-! ## Witnesses

Each theorem shows a concrete state and operands that meet all the hypotheses of the statement it names; a statement of
several clauses has one for each clause. -/

theorem witness_StepRunsTheDecodedCommand :
    let s := withHost State.reset [.wr 0 0x7]
    HostTurn s (.wr s.params.base 0x7) [] ∧ s.params.wf ∧ s.status.busy = false ∧ decode 0x7 = .ok .mac :=
  ⟨⟨rfl, rfl⟩, by decide, rfl, by decide⟩

theorem witness_StepRunsTheAgentThatMoves_ctrl :
    let s := turnOf .ctrl (running 1 .exec)
    nextAgent s = some .ctrl ∧ s.phase ≠ .idle ∧ s.status.lastop = Instr.init.opcode :=
  ⟨rfl, by decide, rfl⟩

theorem witness_StepRunsTheAgentThatMoves_unit :
    nextAgent (turnOf (.hu .u1) (startHash .u1 .msg 3 (running 3 .run))) = some (.hu .u1) := rfl

theorem witness_StepStopsOnlyOutsideTheCore :
    step (withHost State.reset [.rd 0x05000000]) = .fault .outsideCore ∧
      HostTurn (withHost State.reset [.rd 0x05000000]) (.rd 0x05000000) [] ∧
      ¬ (HostEvent.rd 0x05000000).inRange Params.default :=
  ⟨rfl, ⟨rfl, rfl⟩, by simp [HostEvent.inRange, Params.default]⟩

theorem witness_HostInRangeIsSafe :
    ∀ e ∈ (withHost State.reset [.rd 0x04FFFFFF, .wr 0 0x7, .wait, .rst]).host, e.inRange Params.default := by
  simp [withHost, HostEvent.inRange, Params.default]

/-- Case 1: a command word during a run. -/
theorem witness_CommandWriteTakesFirstCase_busy :
    let s := withHost (running 7 .exec) [.wr 0 0x8]
    HostTurn s (.wr s.params.base 0x8) [] ∧ s.params.wf ∧ (s.status.busy = false → s.phase = .idle) ∧
      s.status.busy = true :=
  ⟨⟨rfl, rfl⟩, by decide, by decide, rfl⟩

/-- Case 2: CLEAR with an error pending. -/
theorem witness_CommandWriteTakesFirstCase_clear :
    let s := withHost failed [.wr 0 0x8]
    HostTurn s (.wr s.params.base 0x8) [] ∧ s.params.wf ∧ (s.status.busy = false → s.phase = .idle) ∧
      s.status.err = true :=
  ⟨⟨rfl, rfl⟩, by decide, by decide, rfl⟩

/-- Case 3: another word with an error pending. -/
theorem witness_CommandWriteTakesFirstCase_error :
    let s := withHost failed [.wr 0 0x7]
    HostTurn s (.wr s.params.base 0x7) [] ∧ s.params.wf ∧ (s.status.busy = false → s.phase = .idle) ∧
      s.status.err = true :=
  ⟨⟨rfl, rfl⟩, by decide, by decide, rfl⟩

/-- Case 4: the words 0 and 9. -/
theorem witness_CommandWriteTakesFirstCase_illegal :
    let s := withHost State.reset [.wr 0 0x9]
    HostTurn s (.wr s.params.base 0x9) [] ∧ s.params.wf ∧ (s.status.busy = false → s.phase = .idle) ∧
      s.status.err = false ∧ 8 < (0x9 : Word).toNat :=
  ⟨⟨rfl, rfl⟩, by decide, by decide, rfl, by decide⟩

/-- Case 5: a key of one byte more than the capacity. -/
theorem witness_CommandWriteTakesFirstCase_keyLen :
    let s := withHost { State.reset with keylen := 0x1001 } [.wr 0 0x4]
    HostTurn s (.wr s.params.base 0x4) [] ∧ s.params.wf ∧ (s.status.busy = false → s.phase = .idle) ∧
      s.status.err = false ∧ s.params.keyMax < s.keylen.toNat :=
  ⟨⟨rfl, rfl⟩, by decide, by decide, rfl, by decide⟩

/-- Case 6: a message of one byte more than the capacity. -/
theorem witness_CommandWriteTakesFirstCase_msgLen :
    let s := withHost { State.reset with msglen := 0x10001 } [.wr 0 0x6]
    HostTurn s (.wr s.params.base 0x6) [] ∧ s.params.wf ∧ (s.status.busy = false → s.phase = .idle) ∧
      s.status.err = false ∧ s.params.msgMax < s.msglen.toNat :=
  ⟨⟨rfl, rfl⟩, by decide, by decide, rfl, by decide⟩

/-- Case 7: a key and a message that just fit. -/
theorem witness_CommandWriteTakesFirstCase_accepted :
    let s := withHost { State.reset with keylen := 0x1000, msglen := 0x10000 } [.wr 0 0x7]
    HostTurn s (.wr s.params.base 0x7) [] ∧ s.params.wf ∧ (s.status.busy = false → s.phase = .idle) ∧
      s.status.err = false ∧ s.keylen.toNat = s.params.keyMax ∧ s.msglen.toNat = s.params.msgMax :=
  ⟨⟨rfl, rfl⟩, by decide, by decide, rfl, by decide, by decide⟩

theorem witness_ErrorsAriseOnlyAtCommandWrites :
    let s := withHost State.reset [.wr 0 0x9]
    step s = .next (nextOf (step s)) ∧ s.status.err = false ∧ (nextOf (step s)).status.err = true :=
  ⟨rfl, rfl, by decide⟩

/-- First alternative: a dropped command keeps the error. -/
theorem witness_FirstErrorStays_dropped :
    let s := withHost failed [.wr 0 0x7]
    step s = .next (nextOf (step s)) ∧ s.status.err = true ∧ (nextOf (step s)).status.err = true :=
  ⟨rfl, rfl, by decide⟩

/-- Second alternative: CLEAR ends it. -/
theorem witness_FirstErrorStays_clear :
    let s := withHost failed [.wr 0 0x8]
    step s = .next (nextOf (step s)) ∧ s.status.err = true ∧ (nextOf (step s)).status.err = false :=
  ⟨rfl, rfl, by decide⟩

theorem witness_Hazard_rises :
    let s := withHost (running 7 .exec) [.wr 0x008 5]
    step s = .next (nextOf (step s)) ∧ s.status.haz = false ∧ (nextOf (step s)).status.haz = true :=
  ⟨rfl, rfl, by decide⟩

theorem witness_Hazard_falls :
    let s := withHost hazarded [.wr 0 0x8]
    step s = .next (nextOf (step s)) ∧ s.status.haz = true ∧ (nextOf (step s)).status.haz = false :=
  ⟨rfl, rfl, by decide⟩

theorem witness_Busy_rises :
    let s := withHost State.reset [.wr 0 0x1]
    step s = .next (nextOf (step s)) ∧ s.status.busy = false ∧ (nextOf (step s)).status.busy = true :=
  ⟨rfl, rfl, by decide⟩

theorem witness_Busy_falls :
    let s := turnOf .ctrl (running 1 .exec)
    step s = .next (nextOf (step s)) ∧ s.status.busy = true ∧ (nextOf (step s)).status.busy = false :=
  ⟨rfl, rfl, by decide⟩

theorem witness_Misaligned_write :
    let s := withHost State.reset [.wr 0x04FFFFFF 5]
    s.params.base ≤ 0x04FFFFFF ∧ 0x04FFFFFF < s.params.base + 0x05000000 ∧ 0x04FFFFFF % 4 ≠ 0 ∧
      HostTurn s (.wr 0x04FFFFFF 5) [] :=
  ⟨by decide, by decide, by decide, ⟨rfl, rfl⟩⟩

theorem witness_Misaligned_read :
    let s := withHost State.reset [.rd 0x001]
    s.params.base ≤ 0x001 ∧ 0x001 < s.params.base + 0x05000000 ∧ 0x001 % 4 ≠ 0 ∧ HostTurn s (.rd 0x001) [] :=
  ⟨by decide, by decide, by decide, ⟨rfl, rfl⟩⟩

theorem witness_WriteDuringRunIsDropped :
    let s := withHost (running 7 .exec) [.wr 0x04FFFFFC 5]
    HostTurn s (.wr 0x04FFFFFC 5) [] ∧ s.params.base ≤ 0x04FFFFFC ∧ 0x04FFFFFC < s.params.base + 0x05000000 ∧
      0x04FFFFFC % 4 = 0 ∧ s.status.busy = true :=
  ⟨⟨rfl, rfl⟩, by decide, by decide, by decide, rfl⟩

theorem witness_ReadsChangeNothing :
    let s := withHost State.reset [.rd 0x004]
    HostTurn s (.rd 0x004) [] ∧ step s = .next (nextOf (step s)) :=
  ⟨⟨rfl, rfl⟩, rfl⟩

/-- A turn of `WAIT`, during a run and after it. -/
theorem witness_ReadsChangeNothing_wait :
    HostTurn (withHost (running 7 .exec) [.wait]) .wait [] ∧ HostTurn (withHost State.reset [.wait]) .wait [] :=
  ⟨⟨rfl, rfl⟩, rfl, rfl⟩

/-- The offsets of O16's clauses at the ends of their ranges, all aligned and in the core's range. -/
def readOffsets : List Nat :=
  [0x000, 0x004, 0x008, 0x00C, 0x010, 0x014, 0x018, 0x01C, 0x020, 0x03C, 0x040, 0x05C, 0x060, 0x07C, 0x080, 0x0BC,
    0x0C0, 0x0FC, 0x100, 0x13C, 0x140, 0x19C, 0x1A0, 0xFFC] ++
  [0x1000, 0x1FFC, 0x2000, 0x00FFFFFC, 0x01000000, 0x0100FFFC, 0x01010000, 0x01FFFFFC, 0x02000000, 0x02007FFC,
    0x02008000, 0x02FFFFFC, 0x03007FFC, 0x03008000, 0x04007FFC, 0x04008000, 0x04FFFFFC]

/-- Each of them meets the hypotheses, with a run in progress and without. -/
theorem witness_ReadAnswersValueOrFreeDatum (s : State) (hs : s = State.reset ∨ s = running 7 .exec) :
    ∀ o ∈ readOffsets,
      HostTurn (withHost s [.rd (s.params.base + o)]) (.rd (s.params.base + o)) [] ∧ s.params.wf ∧
        o < 0x05000000 ∧ o % 4 = 0 := by
  have ho : ∀ o ∈ readOffsets, o < 0x05000000 ∧ o % 4 = 0 := by decide
  have hw : s.params.wf := by rcases hs with rfl | rfl <;> decide
  exact fun o h => ⟨⟨rfl, rfl⟩, hw, ho o h⟩

/-- R34, R45: `OUT7` is the word of bytes 28 to 31. -/
theorem test_read_out :
    (nextOf (step (withHost { State.reset with out := bytesOf 32 (pat 32) } [.rd 0x03C]))).replies =
      [{ resp := .okay, datum := some 0x1c1d1e1f }] := by
  decide

theorem witness_WindowsMapTheBuffers :
    locate Params.default 0x1FFC = .window .key 0xFFC ∧ locate Params.default 0x0100FFFC = .window .msg 0xFFFC ∧
      locate Params.default 0x02007FFC = .window .lane1 0x7FFC ∧ locate Params.default 0x03007FFC = .window .lane2 0x7FFC ∧
      locate Params.default 0x04008000 = .reserved ∧ locate Params.default 0x00FFFFFC = .reserved := by
  decide

theorem witness_WindowWriteReadsBack_key :
    let s := withHost State.reset [.wr 0x1FFC 0x01020304, .rd 0x1FFC]
    s.params.wf ∧ s.status.busy = false ∧ 0xFFC % 4 = 0 ∧ 0xFFC < s.params.keyMax ∧
      s.host = [.wr (s.params.base + 0x00001000 + 0xFFC) 0x01020304, .rd (s.params.base + 0x00001000 + 0xFFC)] ∧
      s.schedule = [.host, .host] :=
  ⟨by decide, rfl, by decide, by decide, rfl, rfl⟩

theorem witness_WindowWriteReadsBack_msg :
    let s := withHost State.reset [.wr 0x0100FFFC 0x01020304, .rd 0x0100FFFC]
    s.params.wf ∧ s.status.busy = false ∧ 0xFFFC % 4 = 0 ∧ 0xFFFC < s.params.msgMax ∧
      s.host = [.wr (s.params.base + 0x01000000 + 0xFFFC) 0x01020304, .rd (s.params.base + 0x01000000 + 0xFFFC)] ∧
      s.schedule = [.host, .host] :=
  ⟨by decide, rfl, by decide, by decide, rfl, rfl⟩

theorem witness_RegisterWrite_keylen :
    let s := withHost State.reset [.wr 0x008 5]
    HostTurn s (.wr (s.params.base + 0x008) 5) [] ∧ s.params.wf ∧ s.status.busy = false :=
  ⟨⟨rfl, rfl⟩, by decide, rfl⟩

theorem witness_RegisterWrite_msglen :
    let s := withHost State.reset [.wr 0x00C 0xFFFFFFFF]
    HostTurn s (.wr (s.params.base + 0x00C) 0xFFFFFFFF) [] ∧ s.params.wf ∧ s.status.busy = false :=
  ⟨⟨rfl, rfl⟩, by decide, rfl⟩

theorem witness_RegisterWrite_hreg :
    let s := withHost State.reset [.wr 0x05C 5]
    HostTurn s (.wr (s.params.base + 0x05C) 5) [] ∧ s.params.wf ∧ s.status.busy = false ∧
      0x05C = 0x040 + 4 * (7 : Fin 8).val :=
  ⟨⟨rfl, rfl⟩, by decide, rfl, by decide⟩

theorem witness_RegisterWrite_breg :
    let s := withHost State.reset [.wr 0x0BC 5]
    HostTurn s (.wr (s.params.base + 0x0BC) 5) [] ∧ s.params.wf ∧ s.status.busy = false ∧
      0x0BC = 0x080 + 4 * (15 : Fin 16).val :=
  ⟨⟨rfl, rfl⟩, by decide, rfl, by decide⟩

theorem witness_ReadOnlyWritesAreIgnored :
    let s := withHost State.reset [.wr 0x02000000 5]
    HostTurn s (.wr (s.params.base + 0x02000000) 5) [] ∧ s.params.wf ∧ s.status.busy = false ∧
      0x02000000 < 0x05000000 ∧ 0x02000000 % 4 = 0 ∧ locate s.params 0x02000000 = .window .lane1 0 :=
  ⟨⟨rfl, rfl⟩, by decide, rfl, by decide, by decide, rfl⟩

theorem witness_LoadMessageScriptFillsTheBuffer :
    let s := withHost State.reset ((ScriptLine.loadMsg [1, 2, 3, 4, 5]).expand 0)
    s.params.wf ∧ s.status.busy = false ∧ 5 ≤ s.params.msgMax ∧
      s.host = (ScriptLine.loadMsg [1, 2, 3, 4, 5]).expand s.params.base ∧
      s.schedule = List.replicate s.host.length .host :=
  ⟨by decide, rfl, by decide, rfl, rfl⟩

theorem witness_ReadOnlyWritesAreIgnored_register :
    let s := withHost State.reset [.wr 0x19C 5]
    HostTurn s (.wr (s.params.base + 0x19C) 5) [] ∧ s.params.wf ∧ s.status.busy = false ∧
      locate s.params 0x19C = .tagcat 23 ∧ locate s.params 0x1A0 = .reserved :=
  ⟨⟨rfl, rfl⟩, by decide, rfl, rfl, rfl⟩

theorem witness_ScheduleFollowsTheRecurrence : (15 : Fin 64).val < 16 ∧ 16 ≤ (16 : Fin 64).val := by decide

theorem witness_PaddedBlocksSpellTheStream : 0 < nblocks ([] : List Byte).length ∧ 1 < nblocks (pat 56).length := by
  decide +kernel

theorem witness_InitLoadsTheVector :
    (State.reset.phase = .idle ∧ State.reset.status.busy = false ∧ State.reset.status.err = false) ∧
      (running 1 .exec).phase = .exec ∧ (running 1 .exec).status.lastop = 0x1 :=
  ⟨⟨rfl, rfl, rfl⟩, rfl, rfl⟩

theorem witness_CompressAppliesTheFunction :
    (State.reset.phase = .idle ∧ State.reset.status.busy = false ∧ State.reset.status.err = false) ∧
      (running 2 .exec).phase = .exec ∧ (running 2 .exec).status.lastop = 0x2 :=
  ⟨⟨rfl, rfl, rfl⟩, rfl, rfl⟩

theorem witness_HashStepsStartAndCollect :
    ((running 3 .exec).status.lastop = 0x3 ∧ (running 3 .exec).phase = .exec) ∧
      (running 3 .run).status.lastop = 0x3 ∧ (running 3 .run).phase = .run ∧
      (unitsAt .done (running 3 .run)).hu1.phase = .done :=
  ⟨⟨rfl, rfl⟩, rfl, rfl, rfl⟩

theorem witness_UnitHashStepIsOneBlock :
    ((startHash .u1 .msg 3 (running 3 .run)).unit .u1).phase = .hash := rfl

theorem witness_KeyNormalisationSteps_short :
    let s := { running 4 .exec with klen := 64 }
    s.status.lastop = Instr.keynorm.opcode ∧ s.phase = .exec ∧ s.klen.toNat ≤ 64 :=
  ⟨rfl, rfl, by decide⟩

theorem witness_KeyNormalisationSteps_long :
    let s := { running 5 .exec with klen := 65 }
    s.status.lastop = Instr.hmac.opcode ∧ s.phase = .exec ∧ 64 < s.klen.toNat :=
  ⟨rfl, rfl, by decide⟩

theorem witness_KeyNormalisationSteps_hashed :
    let s := unitsAt .done { running 7 .knhash with klen := 65 }
    s.status.lastop = Instr.mac.opcode ∧ s.phase = .knhash ∧ s.hu1.phase = .done :=
  ⟨rfl, rfl, rfl⟩

theorem witness_KeynormAndHmacSteps :
    ((running 4 .kndone).phase = .kndone ∧ (running 4 .kndone).status.lastop = 0x4) ∧
      ((running 5 .kndone).phase = .kndone ∧ (running 5 .kndone).status.lastop = 0x5) ∧
      (running 5 .run).phase = .run ∧ (running 5 .run).status.lastop = 0x5 ∧
      (unitsAt .done (running 5 .run)).hu1.phase = .done :=
  ⟨⟨rfl, rfl⟩, ⟨rfl, rfl⟩, rfl, rfl, rfl⟩

theorem witness_UnitHmacStepIsOneBlock :
    ((startHmac .u2 .lane2 64 (running 7 .fanout)).unit .u2).phase = .inner ∧
      ((unitsAt .outer (running 7 .fanout)).unit .u3).phase = .outer :=
  ⟨rfl, rfl⟩

theorem witness_SplitHasTheClosedForm : 63 < laneLength ([] : List Byte).length ∧ 127 < laneLength (pat1 129).length := by
  decide +kernel

theorem witness_SplitBoundaryCases :
    (pat1 64).length = 128 * 0 + 64 ∧ (pat1 192).length = 128 * 1 + 64 ∧ (pat1 191).length = 128 * 1 + 63 ∧
      (pat1 193).length = 128 * 1 + 65 := by
  decide +kernel

theorem witness_TrailingZerosAreInvisible_same :
    laneLength ([0x01] : List Byte).length = laneLength ([0x01, 0x00] : List Byte).length ∧
      ∀ x, x < 2 * laneLength ([0x01] : List Byte).length →
        byteAt [0x01] x = byteAt [0x01, 0x00] x := by
  decide +kernel

theorem witness_TrailingZerosAreInvisible_appended :
    ([0x01] : List Byte) ≠ [] ∧ ([0x01] : List Byte).length + 127 ≤ 128 * ((([0x01] : List Byte).length + 127) / 128) := by
  decide

theorem witness_TrailingZerosAreInvisible_zeros : 128 ≤ 128 ∧ (zeros 128).length = 128 := by decide +kernel

theorem witness_SplitStepWritesTheLanes :
    (running 6 .exec).phase = .exec ∧ (running 6 .exec).status.lastop = 0x6 := ⟨rfl, rfl⟩

theorem witness_MacSteps :
    (running 7 .kndone).status.lastop = 0x7 ∧ (running 7 .kndone).phase = .kndone ∧
      (unitsAt .done (running 7 .fanout)).phase = .fanout ∧ allDone (unitsAt .done (running 7 .fanout)) = true ∧
      (unitsAt .done (running 7 .final)).phase = .final ∧ (unitsAt .done (running 7 .final)).hu1.phase = .done :=
  ⟨rfl, rfl, rfl, rfl, rfl, rfl⟩

/-- The join waits for the last worker, and every other wait for HU1. -/
theorem witness_CtrlWaitsForItsUnits :
    let s := unitsAt .done (running 7 .fanout)
    let last := { s with hu3 := { s.hu3 with phase := .outer } }
    (last.phase = .fanout ∧ last.status.lastop = 0x7 ∧ last.hu3.phase ≠ .done) ∧
      ((unitsAt .outer (running 7 .final)).phase = .final ∧ (unitsAt .outer (running 7 .final)).hu1.phase ≠ .done) ∧
      ((unitsAt .hash (running 3 .run)).phase = .run ∧ (unitsAt .hash (running 3 .run)).hu1.phase ≠ .done) ∧
      (unitsAt .hash (running 4 .knhash)).phase = .knhash ∧ (unitsAt .hash (running 4 .knhash)).hu1.phase ≠ .done := by
  decide

/-- Two states that agree on what HU1 reads and differ elsewhere. -/
theorem witness_UnitTouchesOnlyItsOwn :
    let s := startHmac .u1 .msg 3 (running 5 .run)
    let t := { s with keylen := 9, hu2 := { s.hu2 with phase := .done } }
    s.unit .u1 = t.unit .u1 ∧ s.pk = t.pk ∧ s.tick = t.tick ∧
      ∀ o, o < (s.unit .u1).blen.toNat → s.held (s.unit .u1).src o = t.held (s.unit .u1).src o :=
  ⟨rfl, rfl, rfl, fun _ _ => rfl⟩

theorem witness_LaneHashShape : (64 : Word).toNat % 64 = 0 ∧ (zeros 64).length = 64 * 1 := by decide +kernel

/-- The state right after the acceptance of a command, its operands loaded; HOST will write to `MSG` (V-E22) and then
poll. -/
def accepted (i : Instr) : State := { running i.opcode .exec with host := [.wr 0x01000000 0xdeadbeef, .wait] }

/-- The invariant holds in it. -/
theorem inv_accepted (i : Instr) (h : i ≠ .clear) : Inv (accepted i) := by
  cases i
  case clear => exact absurd rfl h
  all_goals exact
    { params := (by decide : Params.default.wf)
      key := ⟨by decide, by decide⟩
      msg := ⟨by decide, by decide⟩
      lane1 := ⟨by decide, by decide⟩
      lane2 := ⟨by decide, by decide⟩
      lane3 := ⟨by decide, by decide⟩
      lanelen := ⟨by decide, by decide⟩
      idle := ⟨(fun e => nomatch e), (fun e => nomatch e)⟩
      doneIdle := fun e => nomatch e
      errIdle := fun e => nomatch e
      errcode := rfl
      lastop := by decide
      keyFits := fun _ _ _ _ => by decide
      msgFits := fun _ _ _ _ => by decide
      phase := ⟨⟨rfl, rfl, rfl⟩, by decide, by decide⟩
      job1 := trivial
      job2 := trivial
      job3 := trivial }

theorem accepted_accepted (i : Instr) : Accepted i (accepted i) := by
  refine ⟨rfl, rfl, rfl, fun e he => ?_⟩
  have : e = .wr 0x01000000 0xdeadbeef ∨ e = .wait := by simpa [accepted] using he
  rcases this with rfl | rfl <;> simp

/-- The second clause of `RunsTo`: HOST keeps to the core's range. -/
theorem inRange_accepted (i : Instr) : ∀ e ∈ (accepted i).host, e.inRange (accepted i).params := by
  intro e he
  have : e = .wr 0x01000000 0xdeadbeef ∨ e = .wait := by simpa [accepted] using he
  rcases this with rfl | rfl
  · show 0 ≤ 0x01000000 ∧ 0x01000000 < 0 + 0x05000000
    omega
  · trivial

theorem written_key (i : Instr) : Written (accepted i) .key (accepted i).klen.toNat := by
  show ∀ o, o < 3 → (accepted i).key.get o ≠ none
  show ∀ o, o < 3 → Memory.get (Memory.cells 0 [0x01, 0x02, 0x03]) o ≠ none
  decide

theorem written_msg (i : Instr) : Written (accepted i) .msg (accepted i).mlen.toNat := by
  show ∀ o, o < 3 → Memory.get (Memory.cells 0 [0x61, 0x62, 0x63]) o ≠ none
  decide

theorem witness_HashRunDeliversTheDigest :
    Inv (accepted .hash) ∧ Accepted .hash (accepted .hash) ∧
      Written (accepted .hash) .msg (accepted .hash).mlen.toNat :=
  ⟨inv_accepted .hash (by decide), accepted_accepted .hash, written_msg .hash⟩

theorem witness_KeynormRunDeliversThePaddedKey :
    Inv (accepted .keynorm) ∧ Accepted .keynorm (accepted .keynorm) ∧
      Written (accepted .keynorm) .key (accepted .keynorm).klen.toNat :=
  ⟨inv_accepted .keynorm (by decide), accepted_accepted .keynorm, written_key .keynorm⟩

theorem witness_HmacRunDeliversTheTag :
    Inv (accepted .hmac) ∧ Accepted .hmac (accepted .hmac) ∧
      Written (accepted .hmac) .key (accepted .hmac).klen.toNat ∧
      Written (accepted .hmac) .msg (accepted .hmac).mlen.toNat :=
  ⟨inv_accepted .hmac (by decide), accepted_accepted .hmac, written_key .hmac, written_msg .hmac⟩

theorem witness_MacRunDeliversTheFinalMac :
    Inv (accepted .mac) ∧ Accepted .mac (accepted .mac) ∧
      Written (accepted .mac) .key (accepted .mac).klen.toNat ∧
      Written (accepted .mac) .msg (accepted .mac).mlen.toNat :=
  ⟨inv_accepted .mac (by decide), accepted_accepted .mac, written_key .mac, written_msg .mac⟩

/-- A key of 65 bytes, which HU1 hashes. -/
def acceptedLong : State := { accepted .keynorm with key := Memory.cells 0 (pat 65), klen := 65 }

theorem witness_KeynormRunDeliversThePaddedKey_long :
    Inv acceptedLong ∧ Accepted .keynorm acceptedLong ∧ Written acceptedLong .key acceptedLong.klen.toNat := by
  have h := inv_accepted .keynorm (by decide)
  refine ⟨{ h with key := ?_, keyFits := ?_ }, accepted_accepted .keynorm, ?_⟩
  · exact ⟨by decide +kernel, by decide +kernel⟩
  · exact fun _ _ _ _ => by decide
  · show ∀ o, o < 65 → Memory.get (Memory.cells 0 (pat 65)) o ≠ none
    decide +kernel

/-- An accepted MAC with a schedule for its 24 steps and HOST's two turns. -/
def scheduledMac : State :=
  { accepted .mac with
    schedule :=
      [.ctrl, .host, .ctrl, .host] ++ List.replicate 5 (.hu .u1) ++ List.replicate 5 (.hu .u2) ++ List.replicate 5 (.hu .u3) ++
        [.ctrl] ++ List.replicate 5 (.hu .u1) ++ [.ctrl] }

theorem inv_scheduledMac : Inv scheduledMac :=
  have h := inv_accepted .mac (by decide)
  { params := h.params, key := h.key, msg := h.msg, lane1 := h.lane1, lane2 := h.lane2, lane3 := h.lane3
    lanelen := h.lanelen, idle := h.idle, doneIdle := h.doneIdle, errIdle := h.errIdle, errcode := h.errcode
    lastop := h.lastop, keyFits := h.keyFits, msgFits := h.msgFits, phase := h.phase
    job1 := h.job1, job2 := h.job2, job3 := h.job3 }

/-- Whether an outcome is a next state. -/
def isNext : Host.Outcome State Fault Refusal → Bool
  | .next _ => true
  | .fault _ => false
  | .refused _ => false

theorem next_of_isNext (o : Host.Outcome State Fault Refusal) (h : isNext o = true) : o = .next (nextOf o) := by
  cases o
  · rfl
  all_goals cases h

/-- The `PHASE` after `k` steps of that run. -/
def phaseAfter (k : Nat) : Phase := (nextOf (steps k scheduledMac)).phase

theorem firstIdle_scheduledMac : FirstIdle 26 scheduledMac (nextOf (steps 26 scheduledMac)) := by
  have hbusy : ∀ j, j < 26 → phaseAfter j ≠ .idle := by decide +kernel
  refine ⟨next_of_isNext _ (by decide +kernel), by decide +kernel, fun j hj u hu => ?_⟩
  have := hbusy j hj
  rwa [phaseAfter, hu] at this

/-- V-E22: `STATUS` after a MAC during which HOST wrote. -/
theorem test_mac_hazard : (nextOf (steps 26 scheduledMac)).status.word = 0x0000070A := by decide +kernel

/-- One run taken for both: the operands agree, and it returns to `IDLE`. -/
theorem witness_MacDependsOnlyOnKeyAndMessage :
    Inv scheduledMac ∧ Accepted .mac scheduledMac ∧ Written scheduledMac .key scheduledMac.klen.toNat ∧
      Written scheduledMac .msg scheduledMac.mlen.toNat ∧
      FirstIdle 26 scheduledMac (nextOf (steps 26 scheduledMac)) :=
  ⟨inv_scheduledMac, accepted_accepted .mac, written_key .mac, written_msg .mac, firstIdle_scheduledMac⟩

theorem witness_ClearClearsTheFlags : failed.phase = .idle ∧ failed.status.busy = false := ⟨rfl, rfl⟩

theorem witness_RunsKeepToTheirWriteSets :
    let s := turnOf .ctrl (running 6 .exec)
    nextAgent s = some .ctrl ∧ step s = .next (nextOf (step s)) ∧ s.phase = .exec ∧ s.status.lastop = 0x6 ∧
      (nextOf (step s)).lanelen ≠ s.lanelen ∧ laneLength s.mlen.toNat ≤ 64 :=
  ⟨rfl, rfl, rfl, rfl, by decide, by decide⟩

theorem witness_ResetAbandonsTheRun :
    HostTurn (withHost (running 7 .fanout) [.rst]) .rst [] := ⟨rfl, rfl⟩

theorem witness_IdleCoreWaits :
    State.reset.phase = .idle ∧ unitsIdle State.reset ∧ State.reset.host = [] ∧ State.reset.schedule = [] :=
  ⟨rfl, ⟨rfl, rfl, rfl⟩, rfl, rfl⟩

theorem witness_EveryStepKeepsInv :
    Inv scheduledMac ∧ step scheduledMac = .next (nextOf (step scheduledMac)) :=
  ⟨inv_scheduledMac, rfl⟩

end Sys2Proof.Tests
end

/-! # The state of the core: what a step does to it, and its invariant (spec/10_state.md) -/

namespace Sys2Proof.Machine

/-! ## Command words -/

/-- The two fields of a word are the whole word (R90). -/
theorem toWord_ofWord (w : Word) : (CmdWord.ofWord w).toWord = w := by
  refine BitVec.eq_of_getLsbD_eq fun i hi => ?_
  simp only [CmdWord.ofWord, CmdWord.toWord, BitVec.getLsbD_append, BitVec.getLsbD_extractLsb']
  by_cases h : i < 4
  · simp [h]
  · simp [h, show i - 4 < 28 by omega, show 4 + (i - 4) = i by omega]

/-- A word that decodes is the word of the command it decodes to (R91 to R94). -/
theorem eq_encode_of_decode (w : Word) (i : Instr) (h : decode w = .ok i) : w = encode i := by
  unfold decode at h
  dsimp only at h
  split at h
  next hr =>
    split at h
    next j hj =>
      obtain rfl : j = i := by simpa using h
      have hrsvd : (CmdWord.ofWord w).rsvd = 0 := by simpa [CmdWord.rsvdOk] using hr
      have hop : j.opcode = (CmdWord.ofWord w).op := opcode_of_decodeOp _ _ hj
      rw [encode, hop, ← hrsvd, toWord_ofWord]
    next => cases h
  next => cases h

/-- The words of the commands other than CLEAR are 1 to 7 (R92). -/
theorem encode_toNat_range (i : Instr) (h : i ≠ .clear) : 1 ≤ (encode i).toNat ∧ (encode i).toNat ≤ 7 := by
  revert h
  cases i <;> decide

/-- The opcodes of the commands other than CLEAR are 1 to 7 (R92). -/
theorem opcode_toNat_range (i : Instr) (h : i ≠ .clear) : 1 ≤ i.opcode.toNat ∧ i.opcode.toNat ≤ 7 := by
  revert h
  cases i <;> decide

/-! ## The address map -/

theorem windowAt_of_lt (sp : Space) {cap off : Nat} (h : off < cap) : windowAt sp cap off = .window sp off :=
  if_pos h

theorem windowAt_of_le (sp : Space) {cap off : Nat} (h : cap ≤ off) : windowAt sp cap off = .reserved :=
  if_neg (Nat.not_lt.2 h)

theorem windowAt_eq_window (sp sp' : Space) (cap x off : Nat) :
    windowAt sp cap x = .window sp' off ↔ x < cap ∧ sp = sp' ∧ x = off := by
  unfold windowAt
  split <;> simp [*]

theorem ite_ne {c : Prop} [Decidable c] {l m w : Loc} (hl : l ≠ w) (hm : m ≠ w) : (if c then l else m) ≠ w := by
  split <;> assumption

theorem registerAt_ne_window (o : Nat) (sp : Space) (off : Nat) : registerAt o ≠ .window sp off := by
  unfold registerAt
  repeat' refine ite_ne ?_ ?_
  all_goals simp

/-- Where the `KEY` window lies (R61). -/
theorem locate_eq_key (p : Params) (o off : Nat) (h : locate p o = .window .key off) :
    off < p.keyMax ∧ o = 0x1000 + off := by
  unfold locate at h
  repeat' split at h
  all_goals simp [windowAt_eq_window, registerAt_ne_window] at h
  omega

/-- Where the `MSG` window lies (R61). -/
theorem locate_eq_msg (p : Params) (o off : Nat) (h : locate p o = .window .msg off) :
    off < p.msgMax ∧ o = 0x01000000 + off := by
  unfold locate at h
  repeat' split at h
  all_goals simp [windowAt_eq_window, registerAt_ne_window] at h
  omega

/-- The register page lies below `0x1000` (R61). -/
theorem locate_register (p : Params) (o : Nat) (h : o < 0x1000) : locate p o = registerAt o := by
  rw [locate, if_pos h]

section
variable (p : Params) (i : Nat)

theorem locate_out (h : i < 8) : locate p (0x020 + 4 * i) = .out i := by
  rw [locate_register p _ (by omega), registerAt]
  simp (disch := omega) only [if_neg, if_pos, Nat.add_sub_cancel_left, Nat.mul_div_cancel_left]

theorem locate_hreg (h : i < 8) : locate p (0x040 + 4 * i) = .hreg i := by
  rw [locate_register p _ (by omega), registerAt]
  simp (disch := omega) only [if_neg, if_pos, Nat.add_sub_cancel_left, Nat.mul_div_cancel_left]

theorem locate_breg (h : i < 16) : locate p (0x080 + 4 * i) = .breg i := by
  rw [locate_register p _ (by omega), registerAt]
  simp (disch := omega) only [if_neg, if_pos, Nat.add_sub_cancel_left, Nat.mul_div_cancel_left]

theorem locate_pk (h : i < 16) : locate p (0x100 + 4 * i) = .pk i := by
  rw [locate_register p _ (by omega), registerAt]
  simp (disch := omega) only [if_neg, if_pos, Nat.add_sub_cancel_left, Nat.mul_div_cancel_left]

theorem locate_tagcat (h : i < 24) : locate p (0x140 + 4 * i) = .tagcat i := by
  rw [locate_register p _ (by omega), registerAt]
  simp (disch := omega) only [if_neg, if_pos, Nat.add_sub_cancel_left, Nat.mul_div_cancel_left]

/-- The gaps of the register page (R34). -/
theorem locate_registerGap (o : Nat)
    (h : o = 0x01C ∨ 0x060 ≤ o ∧ o < 0x080 ∨ 0x0C0 ≤ o ∧ o < 0x100 ∨ 0x1A0 ≤ o ∧ o < 0x1000) :
    locate p o = .reserved := by
  rw [locate_register p _ (by omega), registerAt]
  simp (disch := omega) only [if_neg]

end

section
variable {p : Params} (off : Nat)

theorem locate_key (hp : p.wf) (h : off < p.keyMax) : locate p (0x1000 + off) = .window .key off := by
  obtain ⟨⟨_, _, _⟩, _⟩ := hp
  unfold locate
  simp (disch := omega) only [windowAt_of_lt, if_neg, if_pos, Nat.add_sub_cancel_left]

theorem locate_msg (hp : p.wf) (h : off < p.msgMax) : locate p (0x01000000 + off) = .window .msg off := by
  obtain ⟨_, ⟨_, _, _⟩, _⟩ := hp
  unfold locate
  simp (disch := omega) only [windowAt_of_lt, if_neg, if_pos, Nat.add_sub_cancel_left]

theorem locate_lane1 (hp : p.wf) (h : off < p.msgMax / 2) : locate p (0x02000000 + off) = .window .lane1 off := by
  obtain ⟨_, ⟨_, _, _⟩, _⟩ := hp
  unfold locate
  have hlane : p.laneMax = p.msgMax / 2 := rfl
  simp (disch := omega) only [windowAt_of_lt, if_neg, if_pos, Nat.add_sub_cancel_left]

theorem locate_lane2 (hp : p.wf) (h : off < p.msgMax / 2) : locate p (0x03000000 + off) = .window .lane2 off := by
  obtain ⟨_, ⟨_, _, _⟩, _⟩ := hp
  unfold locate
  have hlane : p.laneMax = p.msgMax / 2 := rfl
  simp (disch := omega) only [windowAt_of_lt, if_neg, if_pos, Nat.add_sub_cancel_left]

theorem locate_lane3 (hp : p.wf) (h : off < p.msgMax / 2) : locate p (0x04000000 + off) = .window .lane3 off := by
  obtain ⟨_, ⟨_, _, _⟩, _⟩ := hp
  unfold locate
  have hlane : p.laneMax = p.msgMax / 2 := rfl
  simp (disch := omega) only [windowAt_of_lt, if_neg, if_pos, Nat.add_sub_cancel_left]

/-- At and past its buffer's capacity a window is reserved (R62). -/
theorem locate_windowGap (o : Nat) (hp : p.wf)
    (h : 0x00001000 + p.keyMax ≤ o ∧ o < 0x01000000 ∨ 0x01000000 + p.msgMax ≤ o ∧ o < 0x02000000 ∨
      0x02000000 + p.msgMax / 2 ≤ o ∧ o < 0x03000000 ∨ 0x03000000 + p.msgMax / 2 ≤ o ∧ o < 0x04000000 ∨
      0x04000000 + p.msgMax / 2 ≤ o) : locate p o = .reserved := by
  obtain ⟨⟨_, _, _⟩, ⟨_, _, _⟩, _⟩ := hp
  have hlane : p.laneMax = p.msgMax / 2 := rfl
  rcases h with h | h | h | h | h <;> unfold locate
  · by_cases hk : o < 0x2000 <;> simp (disch := omega) only [windowAt_of_le, if_neg, if_pos]
  · simp (disch := omega) only [windowAt_of_le, if_neg, if_pos]
  · simp (disch := omega) only [windowAt_of_le, if_neg, if_pos]
  · simp (disch := omega) only [windowAt_of_le, if_neg, if_pos]
  · by_cases hk : o < 0x05000000 <;> simp (disch := omega) only [windowAt_of_le, if_neg, if_pos]

end

/-- A routed offset is aligned when the parameters are legal (R7, R65). -/
theorem aligned_of_route (p : Params) (a o : Nat) (hp : p.wf) (h : route p a = .offset o) : o % 4 = 0 := by
  obtain ⟨_, _, hbase⟩ := hp
  rcases route_cases p a with ⟨_, e⟩ | ⟨_, _, e⟩ | ⟨hr, h4, e⟩ <;> rw [e] at h
  · cases h
  · cases h
  · rw [Route.offset.injEq] at h
    omega

/-- Only the address `BASE` leads to offset 0. -/
theorem eq_base_of_route (p : Params) (a : Nat) (h : route p a = .offset 0) : a = p.base := by
  rcases route_cases p a with ⟨_, e⟩ | ⟨_, _, e⟩ | ⟨hr, _, e⟩ <;> rw [e] at h
  · cases h
  · cases h
  · rw [Route.offset.injEq] at h
    omega

/-- An aligned byte offset in the core's range is routed to itself (R7, R60, R65). -/
theorem route_offset (p : Params) (o : Nat) (hp : p.wf) (hlt : o < 0x05000000) (h4 : o % 4 = 0) :
    route p (p.base + o) = .offset o := by
  obtain ⟨_, _, hbase⟩ := hp
  rcases route_cases p (p.base + o) with ⟨hr, _⟩ | ⟨_, hr, _⟩ | ⟨_, _, e⟩
  · omega
  · omega
  · rw [e, Nat.add_sub_cancel_left]

/-! ## What the CTRL actions leave as it was -/

@[simp] theorem hashStart_status (s : State) : (hashStart s).status = s.status := rfl
@[simp] theorem hmacStart_status (s : State) : (hmacStart s).status = s.status := rfl
@[simp] theorem doSplit_status (s : State) : (doSplit s).status = s.status := by rw [doSplit_eq]
@[simp] theorem doSplit_mlen (s : State) : (doSplit s).mlen = s.mlen := by rw [doSplit_eq]
@[simp] theorem doSplit_phase (s : State) : (doSplit s).phase = s.phase := by rw [doSplit_eq]
@[simp] theorem doSplit_hu1 (s : State) : (doSplit s).hu1 = s.hu1 := by rw [doSplit_eq]
@[simp] theorem doSplit_hu2 (s : State) : (doSplit s).hu2 = s.hu2 := by rw [doSplit_eq]
@[simp] theorem doSplit_hu3 (s : State) : (doSplit s).hu3 = s.hu3 := by rw [doSplit_eq]
@[simp] theorem fanOut_status (s : State) : (fanOut s).status = s.status := by rw [fanOut_eq]

@[simp] theorem keyNormFirst_status (s : State) : (keyNormFirst s).status = s.status := by
  rcases keyNormFirst_cases s with ⟨_, e⟩ | ⟨_, e⟩ <;> exact (congrArg State.status e).trans rfl

@[simp] theorem keyNormSecond_status (s : State) : (keyNormSecond s).status = s.status := by
  rcases keyNormSecond_cases s with ⟨_, e⟩ | ⟨_, e⟩ <;> exact (congrArg State.status e).trans rfl

@[simp] theorem join_status (s : State) : (join s).status = s.status := by
  rcases join_cases s with ⟨_, e⟩ | ⟨_, e⟩ <;> rw [e]

/-! ## What CTRL does in a run -/

/-- Everything a step of CTRL can do in a phase other than `IDLE`, `LASTOP` naming the command in progress
(spec/45_system.md R221). -/
inductive CtrlAction (s : State) : State → Prop
  | wait : CtrlAction s s
  | init (hp : s.phase = .exec) (ho : s.status.lastop = Instr.init.opcode) : CtrlAction s (initAction s)
  | compress (hp : s.phase = .exec) (ho : s.status.lastop = Instr.compress.opcode) : CtrlAction s (compressAction s)
  | hashStart (hp : s.phase = .exec) (ho : s.status.lastop = Instr.hash.opcode) : CtrlAction s (hashStart s)
  | keyNormFirst (hp : s.phase = .exec) (ho : keyed s) : CtrlAction s (keyNormFirst s)
  | split (hp : s.phase = .exec) (ho : s.status.lastop = Instr.split.opcode) :
      CtrlAction s (Machine.complete (doSplit s))
  | keyNormSecond (hp : s.phase = .knhash) (ho : keyed s) : CtrlAction s (keyNormSecond s)
  | complete (hp : s.phase = .kndone) (ho : s.status.lastop = Instr.keynorm.opcode) :
      CtrlAction s (Machine.complete s)
  | hmacStart (hp : s.phase = .kndone) (ho : s.status.lastop = Instr.hmac.opcode) : CtrlAction s (hmacStart s)
  | fanOut (hp : s.phase = .kndone) (ho : s.status.lastop = Instr.mac.opcode) : CtrlAction s (fanOut (doSplit s))
  | join (hp : s.phase = .fanout) (ho : s.status.lastop = Instr.mac.opcode) : CtrlAction s (join s)
  | collect (hp : s.phase = .run ∧ (s.status.lastop = Instr.hash.opcode ∨ s.status.lastop = Instr.hmac.opcode) ∨
      s.phase = .final ∧ s.status.lastop = Instr.mac.opcode) : CtrlAction s (collect s)

namespace CtrlAction

variable {s : State}

/-- A CTRL step is guarded by `LASTOP` (R25). -/
theorem guarded {i : Instr} {t : State} (h : s.status.lastop = i.opcode → CtrlAction s t) :
    CtrlAction s (if runs i s then t else s) := by
  split
  · exact h ((runs_eq_true i s).1 ‹_›)
  · exact .wait

theorem of_execInit (h : s.phase ≠ .idle) : ∃ t, execInit s = .next t ∧ CtrlAction s t := by
  unfold execInit
  refine ⟨_, rfl, ?_⟩
  split
  case h_1 hp => exact absurd hp h
  case h_2 hp => exact guarded (.init hp)
  all_goals exact .wait

theorem of_execCompress (h : s.phase ≠ .idle) : ∃ t, execCompress s = .next t ∧ CtrlAction s t := by
  unfold execCompress
  refine ⟨_, rfl, ?_⟩
  split
  case h_1 hp => exact absurd hp h
  case h_2 hp => exact guarded (.compress hp)
  all_goals exact .wait

theorem of_execHash (h : s.phase ≠ .idle) : ∃ t, execHash s = .next t ∧ CtrlAction s t := by
  unfold execHash
  refine ⟨_, rfl, ?_⟩
  split
  case h_1 hp => exact absurd hp h
  case h_2 hp => exact guarded (.hashStart hp)
  case h_3 hp => exact guarded fun ho => .collect (.inl ⟨hp, .inl ho⟩)
  all_goals exact .wait

theorem of_execKeynorm (h : s.phase ≠ .idle) : ∃ t, execKeynorm s = .next t ∧ CtrlAction s t := by
  unfold execKeynorm
  refine ⟨_, rfl, ?_⟩
  split
  case h_1 hp => exact absurd hp h
  case h_2 hp => exact guarded fun ho => .keyNormFirst hp (.inl ho)
  case h_3 hp => exact guarded fun ho => .keyNormSecond hp (.inl ho)
  case h_4 hp => exact guarded (.complete hp)
  all_goals exact .wait

theorem of_execHmac (h : s.phase ≠ .idle) : ∃ t, execHmac s = .next t ∧ CtrlAction s t := by
  unfold execHmac
  refine ⟨_, rfl, ?_⟩
  split
  case h_1 hp => exact absurd hp h
  case h_2 hp => exact guarded fun ho => .keyNormFirst hp (.inr (.inl ho))
  case h_3 hp => exact guarded fun ho => .keyNormSecond hp (.inr (.inl ho))
  case h_4 hp => exact guarded (.hmacStart hp)
  case h_5 hp => exact guarded fun ho => .collect (.inl ⟨hp, .inr ho⟩)
  all_goals exact .wait

theorem of_execSplit (h : s.phase ≠ .idle) : ∃ t, execSplit s = .next t ∧ CtrlAction s t := by
  unfold execSplit
  refine ⟨_, rfl, ?_⟩
  split
  case h_1 hp => exact absurd hp h
  case h_2 hp => exact guarded (.split hp)
  all_goals exact .wait

theorem of_execMac (h : s.phase ≠ .idle) : ∃ t, execMac s = .next t ∧ CtrlAction s t := by
  unfold execMac
  refine ⟨_, rfl, ?_⟩
  split
  case h_1 hp => exact absurd hp h
  case h_2 hp => exact guarded fun ho => .keyNormFirst hp (.inr (.inr ho))
  case h_3 hp => exact guarded fun ho => .keyNormSecond hp (.inr (.inr ho))
  case h_4 hp => exact guarded (.fanOut hp)
  case h_5 hp => exact guarded (.join hp)
  case h_6 hp => exact guarded fun ho => .collect (.inr ⟨hp, ho⟩)
  all_goals exact .wait

theorem of_execClear (h : s.phase ≠ .idle) : ∃ t, execClear s = .next t ∧ CtrlAction s t := by
  unfold execClear
  refine ⟨_, rfl, ?_⟩
  split
  case h_1 hp => exact absurd hp h
  all_goals exact .wait

/-- Outside `IDLE` the meaning of a command is a CTRL action. -/
theorem of_exec {i : Instr} {t : State} (hp : s.phase ≠ .idle) (h : exec i s = .next t) : CtrlAction s t := by
  have hex : ∃ t', exec i s = .next t' ∧ CtrlAction s t' := by
    cases i with
    | init => exact of_execInit hp
    | compress => exact of_execCompress hp
    | hash => exact of_execHash hp
    | keynorm => exact of_execKeynorm hp
    | hmac => exact of_execHmac hp
    | split => exact of_execSplit hp
    | mac => exact of_execMac hp
    | clear => exact of_execClear hp
  obtain ⟨t', ht', ha⟩ := hex
  obtain rfl : t' = t := by simpa [ht'] using h
  exact ha

/-- CTRL touches `STATUS` only by completing, which ends the run (R222). -/
theorem status_cases {t : State} (h : CtrlAction s t) :
    t.status = s.status ∨ (t.status = s.status.completed ∧ t.phase = .idle) := by
  cases h with
  | wait => exact .inl rfl
  | init | compress | split | complete => exact .inr (by simp [initAction, compressAction])
  | hashStart | keyNormFirst | keyNormSecond | hmacStart | fanOut | join => exact .inl (by simp)
  | collect =>
    rcases collect_cases s with ⟨_, e⟩ | ⟨_, e⟩
    · exact .inr (by simp [e, releaseUnit])
    · exact .inl (by rw [e])

end CtrlAction

/-! ## What the issue of a command word does -/

/-- At `IDLE` the meaning of a command is its issue (R220). -/
theorem exec_of_idle (i : Instr) (s : State) (h : s.phase = .idle) :
    exec i s = .next (if i = .clear then issueClear s else issue i s) := by
  cases i <;> simp [exec, execInit, execCompress, execHash, execKeynorm, execHmac, execSplit, execMac, execClear, h]

/-- Everything the issue of the word `w` can do while `BUSY = 0`: the cases 2 to 7 of R220. The last constructor is
for states that no run reaches, `BUSY = 0` outside `IDLE` (log 14). -/
inductive IssueEffect (s : State) (w : Word) : State → Prop
  | dropped (he : s.status.err = true) : IssueEffect s w s
  | cleared (hw : w = encode .clear) : IssueEffect s w (clearStatus s)
  | raised (he : s.status.err = false) (c : ErrCause) (hc : c ≠ .worker) : IssueEffect s w (raiseErr c s)
  | accepted (i : Instr) (hi : i ≠ .clear) (hw : w = encode i) (he : s.status.err = false)
      (hk : usesKey i = true → s.keylen.toNat ≤ s.params.keyMax)
      (hm : usesMsg i = true → s.msglen.toNat ≤ s.params.msgMax) : IssueEffect s w (accept i s)
  | outsideIdle {t : State} (hp : s.phase ≠ .idle) (ha : CtrlAction s t) : IssueEffect s w t

theorem IssueEffect.of_issue {s : State} {i : Instr} (hb : s.status.busy = false) (hi : i ≠ .clear) :
    IssueEffect s (encode i) (issue i s) := by
  rcases issue_cases i s with ⟨hb', _⟩ | ⟨_, he, e⟩ | ⟨_, he, ⟨_, _, e⟩ | ⟨_, _, e⟩ | ⟨hk, hm, e⟩⟩
  · simp [hb] at hb'
  · rw [e]; exact .dropped he
  · rw [e]; exact .raised he _ (by decide)
  · rw [e]; exact .raised he _ (by decide)
  · rw [e]; exact .accepted i hi rfl he hk hm

theorem IssueEffect.of_issueIllegal {s : State} {w : Word} (hb : s.status.busy = false) :
    IssueEffect s w (issueIllegal s) := by
  rcases issueIllegal_cases s with ⟨hb', _⟩ | ⟨_, he, e⟩ | ⟨_, he, e⟩
  · simp [hb] at hb'
  · rw [e]; exact .dropped he
  · rw [e]; exact .raised he _ (by decide)

theorem IssueEffect.of_issueClear {s : State} (hb : s.status.busy = false) :
    IssueEffect s (encode .clear) (issueClear s) := by
  rcases issueClear_cases s with ⟨hb', _⟩ | ⟨_, e⟩
  · simp [hb] at hb'
  · rw [e]; exact .cleared rfl

theorem IssueEffect.of_command {s t : State} {w : Word} (hb : s.status.busy = false)
    (h : command w s = .next t) : IssueEffect s w t := by
  rcases command_cases w s with ⟨i, hd, e⟩ | ⟨_, _, e⟩ <;> rw [e] at h
  · obtain rfl := eq_encode_of_decode w i hd
    by_cases hp : s.phase = .idle
    · rw [exec_of_idle i s hp, Host.Outcome.next.injEq] at h
      subst h
      split
      · subst i; exact .of_issueClear hb
      · exact .of_issue hb ‹_›
    · exact .outsideIdle hp (.of_exec hp h)
  · cases h
    exact .of_issueIllegal hb

/-! ## What a host event does -/

/-- Everything an event can do when the machine goes on, `s` no longer listing it (R63 to R70, R260). -/
inductive HostEffect (s : State) : HostEvent → State → Prop
  | answered (e : HostEvent) (resp : Resp) (datum : Option Word) : HostEffect s e (s.answer resp datum)
  | polled : HostEffect s .wait (pollStatus s)
  | dropped (a : Nat) (d : Word) (hb : s.status.busy = true) :
      HostEffect s (.wr a d) (hazard (s.answer .okay none))
  | stored (a o : Nat) (d : Word) (hr : route s.params a = .offset o) (hb : s.status.busy = false) :
      HostEffect s (.wr a d) (storeWord (s.answer .okay none) (locate s.params o) d)
  | issued (w : Word) {t : State} (hb : s.status.busy = false) (hi : IssueEffect (s.answer .okay none) w t) :
      HostEffect s (.wr s.params.base w) t
  | reset : HostEffect s .rst (hardReset s)

theorem HostEffect.of_hostWrite {s t : State} {a : Nat} {d : Word} (h : hostWrite a d s = .next t) :
    HostEffect s (.wr a d) t := by
  rcases hostWrite_cases a d s with ⟨_, e⟩ | ⟨_, e⟩ | ⟨o, hr, ⟨hb, e⟩ | ⟨hb, hl, e⟩ | ⟨hb, _, e⟩⟩ <;> rw [e] at h
  · cases h
  · cases h; exact .answered _ _ _
  · cases h; exact .dropped a d hb
  · obtain rfl := (locate_eq_cmd _ _).1 hl
    obtain rfl := eq_base_of_route _ _ hr
    exact .issued d hb (.of_command hb h)
  · cases h; exact .stored a o d hr hb

theorem HostEffect.of_event {s t : State} {e : HostEvent} (h : event e s = .next t) : HostEffect s e t := by
  cases e with
  | wr a d => exact .of_hostWrite h
  | rd a =>
    rcases hostRead_cases a s with ⟨_, e⟩ | ⟨_, e⟩ | ⟨o, _, e⟩ <;> simp only [event, e] at h <;> cases h <;>
      exact .answered _ _ _
  | wait => cases h; exact .polled
  | rst => cases h; exact .reset

/-! ## What a step does -/

/-- Everything a step can do when it goes on. -/
inductive StepEffect (s : State) : State → Prop
  | waited : StepEffect s s
  | passed : StepEffect s s.begun
  | host (e : HostEvent) (rest : List HostEvent) {t : State} (turn : HostTurn s e rest)
      (he : HostEffect (s.taken rest) e t) : StepEffect s t
  | ctrl {t : State} (hp : s.phase ≠ .idle) (ha : CtrlAction s.begun t) : StepEffect s t
  | unit (u : UnitId) : StepEffect s (unitStep u s.begun)

theorem StepEffect.of_step {s t : State} (h : step s = .next t) : StepEffect s t := by
  rcases step_cases s t h with ⟨_, rfl⟩ | ⟨a, ha, hm⟩
  · exact .waited
  rcases a with _ | _ | u
  · cases hh : s.host with
    | nil =>
      simp only [move, hostMove, begun_host, hh] at hm
      cases hm
      exact .passed
    | cons e rest =>
      have turn : HostTurn s e rest := ⟨ha, hh⟩
      exact .host e rest turn (.of_event (step_of_hostTurn s e rest turn ▸ h))
  · simp only [move, ctrlMove] at hm
    split at hm
    · cases hm; exact .passed
    · split at hm
      · exact .ctrl ‹_› (.of_exec ‹_› hm)
      · cases hm; exact .passed
  · cases hm
    exact .unit u

/-! ## What a step does to `STATUS` -/

/-- Everything a step can do to `STATUS` (R30 to R33, R69, R220, R222, R223, R241, R260). -/
inductive StatusChange (s t : State) : Prop
  | kept (hs : t.status = s.status)
  | completed (hs : t.status = s.status.completed) (hp : t.phase = .idle)
  | hazarded (a : Nat) (d : Word) (rest : List HostEvent) (turn : HostTurn s (.wr a d) rest)
      (hb : s.status.busy = true) (hs : t.status = s.status.hazarded)
  | cleared (rest : List HostEvent) (turn : HostTurn s (.wr s.params.base (encode .clear)) rest)
      (hb : s.status.busy = false) (hs : t.status = s.status.cleared)
  | raised (c : ErrCause) (w : Word) (rest : List HostEvent) (turn : HostTurn s (.wr s.params.base w) rest)
      (hb : s.status.busy = false) (he : s.status.err = false) (hs : t.status = s.status.raised c)
  | accepted (i : Instr) (hi : i ≠ .clear) (rest : List HostEvent)
      (turn : HostTurn s (.wr s.params.base (encode i)) rest) (hb : s.status.busy = false)
      (he : s.status.err = false) (hs : t.status = s.status.accepted i.opcode) (hp : t.phase = .exec)
  | reset (rest : List HostEvent) (turn : HostTurn s .rst rest) (hs : t.status = State.reset.status)
      (hp : t.phase = .idle)

@[simp] theorem reset_busy : State.reset.status.busy = false := rfl
@[simp] theorem reset_haz : State.reset.status.haz = false := rfl

@[simp] theorem storeWord_status (s : State) (loc : Loc) (d : Word) : (storeWord s loc d).status = s.status := by
  unfold storeWord
  split <;> simp

@[simp] theorem pollStatus_status (s : State) : (pollStatus s).status = s.status := by
  unfold pollStatus
  dsimp only
  split <;> rfl

@[simp] theorem unitStep_status (u : UnitId) (s : State) : (unitStep u s).status = s.status := by
  rw [unitStep_eq_setUnit, setUnit_status]

theorem StatusChange.of_ctrlAction {s s' t : State} (h : CtrlAction s' t) (hs : s'.status = s.status) :
    StatusChange s t := by
  rcases h.status_cases with e | ⟨e, hp⟩
  · exact .kept (e.trans hs)
  · exact .completed (hs ▸ e) hp

theorem StatusChange.of_issueEffect {s t : State} {rest : List HostEvent} {w : Word}
    (turn : HostTurn s (.wr s.params.base w) rest) (hb : s.status.busy = false)
    (h : IssueEffect ((s.taken rest).answer .okay none) w t) : StatusChange s t := by
  cases h with
  | dropped => exact .kept rfl
  | cleared hw => subst hw; exact .cleared rest turn hb rfl
  | raised he c => exact .raised c w rest turn hb he rfl
  | accepted i hi hw he => subst hw; exact .accepted i hi rest turn hb he rfl rfl
  | outsideIdle _ ha => exact .of_ctrlAction ha rfl

theorem StatusChange.of_hostEffect {s t : State} {e : HostEvent} {rest : List HostEvent} (turn : HostTurn s e rest)
    (h : HostEffect (s.taken rest) e t) : StatusChange s t := by
  cases h with
  | answered => exact .kept rfl
  | polled => exact .kept (by simp)
  | dropped a d hb => exact .hazarded a d rest turn hb rfl
  | stored => exact .kept (by simp)
  | issued w hb hi => exact .of_issueEffect turn hb hi
  | reset => exact .reset rest turn rfl rfl

theorem StatusChange.of_step {s t : State} (h : step s = .next t) : StatusChange s t := by
  cases StepEffect.of_step h with
  | waited => exact .kept rfl
  | passed => exact .kept rfl
  | host e rest turn he => exact .of_hostEffect turn he
  | ctrl _ ha => exact .of_ctrlAction ha rfl
  | unit u => exact .kept (by simp)

/-- Settles O10, by the cases of what a step does to `STATUS`. -/
theorem firstErrorStaysUntilClearOrReset : Obligations.FirstErrorStaysUntilClearOrReset := by
  intro s t h he
  cases StatusChange.of_step h with
  | kept hs | completed hs | hazarded _ _ _ _ _ hs => exact .inl (by simp [hs, he])
  | cleared rest turn => exact .inr ⟨rest, .inl turn⟩
  | raised _ _ _ _ _ he' | accepted _ _ _ _ _ he' => simp [he] at he'
  | reset rest turn => exact .inr ⟨rest, .inr turn⟩

/-- Settles O11, by the cases of what a step does to `STATUS`. -/
theorem hazardRisesAndFallsAsStated : Obligations.HazardRisesAndFallsAsStated := by
  intro s t h
  cases StatusChange.of_step h with
  | kept hs | completed hs | raised _ _ _ _ _ _ hs | accepted _ _ _ _ _ _ hs => simp +contextual [hs]
  | hazarded a d rest turn hb hs => exact ⟨fun _ _ => ⟨hb, a, d, rest, turn⟩, by simp [hs]⟩
  | cleared rest turn hb hs => exact ⟨by simp [hs], fun _ _ => ⟨rest, .inr ⟨hb, turn⟩⟩⟩
  | reset rest turn hs => exact ⟨by simp [hs], fun _ _ => ⟨rest, .inl turn⟩⟩

/-- Settles O12, by the cases of what a step does to `STATUS`. -/
theorem busyRisesAndFallsAsStated : Obligations.BusyRisesAndFallsAsStated := by
  intro s t h
  cases StatusChange.of_step h with
  | kept hs | hazarded _ _ _ _ _ hs | cleared _ _ _ hs | raised _ _ _ _ _ _ hs => simp +contextual [hs]
  | completed hs hp => exact ⟨by simp [hs], fun _ _ => ⟨hp, .inl (by simp [hs])⟩⟩
  | accepted i hi rest turn _ he hs hp =>
    exact ⟨fun _ _ => ⟨he, hp, encode i, rest, turn, encode_toNat_range i hi⟩, by simp [hs]⟩
  | reset rest turn hs hp => exact ⟨by simp [hs], fun _ _ => ⟨hp, .inr ⟨rest, turn⟩⟩⟩

/-! ## The step of HOST at an aligned address -/

/-- HOST's step with an aligned write while `BUSY = 0` (R66). -/
theorem step_of_write {s : State} {rest : List HostEvent} {o : Nat} {d : Word}
    (turn : HostTurn s (.wr (s.params.base + o) d) rest) (hp : s.params.wf) (hb : s.status.busy = false)
    (hlt : o < 0x05000000) (h4 : o % 4 = 0) :
    step s = writeLoc (locate s.params o) d ((s.taken rest).answer .okay none) := by
  rw [step_of_hostTurn s _ rest turn]
  simp [event, hostWrite, route_offset _ _ hp hlt h4, hb]

/-- HOST's step with an aligned read (R67, R68, R70). -/
theorem step_of_read {s : State} {rest : List HostEvent} {o : Nat}
    (turn : HostTurn s (.rd (s.params.base + o)) rest) (hp : s.params.wf)
    (hlt : o < 0x05000000) (h4 : o % 4 = 0) :
    step s = .next ((s.taken rest).answer .okay (some (readDatum (s.taken rest) (locate s.params o)))) := by
  rw [step_of_hostTurn s _ rest turn]
  simp [event, hostRead, route_offset _ _ hp hlt h4]

/-- Settles O4: the write is routed to `CMD`, whose meaning is the decoded command. -/
theorem stepRunsTheDecodedCommand : Obligations.StepRunsTheDecodedCommand := by
  intro s rest w i turn hp hb hd
  have hcmd : locate s.params 0 = .cmd := (locate_eq_cmd _ _).2 rfl
  rw [step_of_write (o := 0) turn hp hb (by decide) rfl, hcmd]
  simp [writeLoc, command, hd]

/-- Settles O5, by the move of the agent whose turn it is. -/
theorem stepRunsTheAgentThatMoves : Obligations.StepRunsTheAgentThatMoves := by
  refine ⟨fun s i ha hp ho => ?_, fun s u ha => step_of_nextAgent s _ ha⟩
  rw [step_of_nextAgent s _ ha]
  simp [move, ctrlMove, hp, ho]

/-! ## The status word -/

/-- Every bit of the status word (R36). -/
theorem getLsbD_word (t : Status) (i : Nat) :
    t.word.getLsbD i =
      if i = 0 then t.busy else if i = 1 then t.done else if i = 2 then t.err else if i = 3 then t.haz
      else if i < 8 then t.errcode.getLsbD (i - 4) else if i < 12 then t.lastop.getLsbD (i - 8) else false := by
  simp only [Status.word, BitVec.getLsbD_append]
  match i with
  | 0 | 1 | 2 | 3 => simp
  | j + 4 =>
    simp [show j + 4 < 8 ↔ j < 4 by omega, show j + 4 - 8 = j - 4 by omega,
      show j + 4 < 12 ↔ j - 4 < 4 by omega]

/-- Settles O17, bit by bit. -/
theorem statusWordHoldsTheFields : Obligations.StatusWordHoldsTheFields := by
  intro t
  refine ⟨?_, ?_, ?_, ?_, ?_, ?_, ?_⟩ <;>
    refine BitVec.eq_of_getLsbD_eq fun i hi => ?_ <;>
    rw [BitVec.getLsbD_extractLsb', getLsbD_word]
  case refine_1 | refine_2 | refine_3 | refine_4 =>
    obtain rfl : i = 0 := by omega
    simp
  case refine_5 => simp (disch := omega) [hi, if_neg, if_pos]
  case refine_6 => simp (disch := omega) [hi, if_neg, if_pos]
  case refine_7 => simp (disch := omega) [if_neg]

theorem word_reset : State.reset.status.word = 0x00000000 := by decide

/-- Settles O56, field by field. -/
theorem resetLeavesTheControlState : Obligations.ResetLeavesTheControlState := by
  intro p tick
  refine ⟨word_reset, rfl, rfl, rfl, rfl, rfl, rfl, fun u => ?_⟩
  cases u <;> exact ⟨rfl, rfl, rfl, rfl⟩

/-! ## Reads -/

theorem byteAt_toList {n : Nat} (v : Vector Byte n) (i : Nat) (h : i < n) : byteAt v.toList i = v[i] := by
  simp [byteAt, List.getD_eq_getElem?_getD, h]

/-- Word `i` of a register is the big-endian image of its bytes `4i` to `4i+3` (R72). -/
theorem wordAt_toList {n : Nat} (v : Vector Byte n) (i : Nat) (h : 4 * i + 3 < n) :
    wordAt v.toList i = be32 v[4 * i] v[4 * i + 1] v[4 * i + 2] v[4 * i + 3] := by
  simp (disch := omega) only [wordAt, byteAt_toList]

/-- The word at a window offset is the big-endian image of the four bytes there (R71). -/
theorem wordAt_memRead (s : State) (sp : Space) (off : Nat) :
    wordAt (memRead s sp off 4) 0 =
      be32 (readByte s sp off) (readByte s sp (off + 1)) (readByte s sp (off + 2)) (readByte s sp (off + 3)) := rfl

section
variable {s : State} {rest : List HostEvent} {o : Nat} (turn : HostTurn s (.rd (s.params.base + o)) rest)
  (hp : s.params.wf) (hlt : o < 0x05000000) (h4 : o % 4 = 0) (loc : Loc) (hl : locate s.params o = loc)
include turn hp hlt h4 hl

/-- A location that answers its value whether or not a command runs (R70). -/
theorem step_of_read_always (hr : loc.readableWhileBusy = true) {w : Word} (hw : loadWord (s.taken rest) loc = w) :
    step s = .next ((s.taken rest).answer .okay (some w)) := by
  rw [step_of_read turn hp hlt h4, hl, readDatum, hr, hw]
  simp

/-- A location that answers a free value during a run (R70; log 1). -/
theorem step_of_read_idle (hr : loc.readableWhileBusy = false) {w : Word} (hw : loadWord (s.taken rest) loc = w) :
    step s = .next ((s.taken rest).answer .okay
      (some (if s.status.busy = true then freeDatum (s.taken rest) else w))) := by
  rw [step_of_read turn hp hlt h4, hl, readDatum, hr, hw]
  simp

end

/-- Settles O16, location by location. -/
theorem readAnswersValueOrFreeDatum : Obligations.ReadAnswersValueOrFreeDatum := by
  intro s rest o turn hp hlt h4
  have always := @step_of_read_always s rest o turn hp hlt h4
  have idle := @step_of_read_idle s rest o turn hp hlt h4
  refine ⟨?cmd, ?status, ?keylen, ?msglen, ?lanelen, ?capKeymax, ?capMsgmax, ?out, ?hreg, ?breg, ?pk, ?tagcat,
    ?key, ?msg, ?lane1, ?lane2, ?lane3, ?reserved⟩
  case cmd => exact fun ho => always .cmd (by rw [ho]; rfl) rfl rfl
  case status => exact fun ho => always .status (by rw [ho]; rfl) rfl rfl
  case keylen => exact fun ho => always .keylen (by rw [ho]; rfl) rfl rfl
  case msglen => exact fun ho => always .msglen (by rw [ho]; rfl) rfl rfl
  case capKeymax => exact fun ho => always .capKeymax (by rw [ho]; rfl) rfl rfl
  case capMsgmax => exact fun ho => always .capMsgmax (by rw [ho]; rfl) rfl rfl
  case lanelen => exact fun ho => idle .lanelen (by rw [ho]; rfl) rfl rfl
  case out =>
    exact fun i ho => idle (.out i) (ho ▸ locate_out _ i i.isLt) rfl (wordAt_toList s.out i (by omega))
  case hreg =>
    exact fun i ho => idle (.hreg i) (ho ▸ locate_hreg _ i i.isLt) rfl (by simp [loadWord])
  case breg =>
    exact fun i ho => idle (.breg i) (ho ▸ locate_breg _ i i.isLt) rfl (wordAt_toList s.breg i (by omega))
  case pk =>
    exact fun i ho => idle (.pk i) (ho ▸ locate_pk _ i i.isLt) rfl (wordAt_toList s.pk i (by omega))
  case tagcat =>
    exact fun i ho => idle (.tagcat i) (ho ▸ locate_tagcat _ i i.isLt) rfl (wordAt_toList s.tagcat i (by omega))
  case key =>
    exact fun off ho hoff => idle (.window .key off) (ho ▸ locate_key off hp hoff) rfl (wordAt_memRead ..)
  case msg =>
    exact fun off ho hoff => idle (.window .msg off) (ho ▸ locate_msg off hp hoff) rfl (wordAt_memRead ..)
  case lane1 =>
    exact fun off ho hoff => idle (.window .lane1 off) (ho ▸ locate_lane1 off hp hoff) rfl (wordAt_memRead ..)
  case lane2 =>
    exact fun off ho hoff => idle (.window .lane2 off) (ho ▸ locate_lane2 off hp hoff) rfl (wordAt_memRead ..)
  case lane3 =>
    exact fun off ho hoff => idle (.window .lane3 off) (ho ▸ locate_lane3 off hp hoff) rfl (wordAt_memRead ..)
  case reserved =>
    intro ho
    have hl : locate s.params o = .reserved := by
      rcases ho with h | h | h | h | h
      · exact locate_registerGap _ _ (.inl h)
      · exact locate_registerGap _ _ (.inr (.inl h))
      · exact locate_registerGap _ _ (.inr (.inr (.inl h)))
      · exact locate_registerGap _ _ (.inr (.inr (.inr h)))
      · exact locate_windowGap o hp h
    exact always .reserved hl rfl rfl

/-! ## Writes of registers -/

theorem length_putWord (s : List Byte) (i : Nat) (d : Word) (h : 4 * i + 4 ≤ s.length) :
    (putWord s i d).length = s.length := by
  simp only [putWord, List.length_append, List.length_take, List.length_drop, length_ser32]
  omega

/-- What `putWord` leaves at byte `j`: the datum's byte in word `i`, the old byte elsewhere (R72). -/
theorem byteAt_putWord (s : List Byte) (i j : Nat) (d : Word) (h : 4 * i + 4 ≤ s.length) :
    byteAt (putWord s i d) j = if j / 4 = i then byteAt (ser32 d) (j % 4) else byteAt s j := by
  have htake : (s.take (4 * i)).length = 4 * i := by rw [List.length_take]; omega
  unfold putWord byteAt
  simp only [List.getD_eq_getElem?_getD, List.getElem?_append, List.length_append, htake, length_ser32]
  by_cases hlo : j < 4 * i
  · simp (disch := omega) only [if_pos, if_neg, List.getElem?_take_of_lt]
  · by_cases hhi : j < 4 * i + 4
    · simp (disch := omega) only [if_pos, if_neg, show j % 4 = j - 4 * i by omega]
    · simp (disch := omega) only [if_neg, List.getElem?_drop, show 4 * i + 4 + (j - (4 * i + 4)) = j by omega]

/-- Byte `j` of a 64-byte register after a write to its word `i` (R46, R72). -/
theorem getElem_bytesOf_putWord (b : Block) (i : Fin 16) (d : Word) (j : Fin 64) :
    (bytesOf 64 (putWord b.toList i d))[j] =
      if j.val / 4 = i.val then byteAt (ser32 d) (j.val % 4) else b[j] := by
  have hlen : 4 * i.val + 4 ≤ b.toList.length := by rw [Vector.length_toList]; omega
  calc (bytesOf 64 (putWord b.toList i d))[j]
      = byteAt (bytesOf 64 (putWord b.toList i d)).toList j := (byteAt_toList _ _ j.isLt).symm
    _ = byteAt (putWord b.toList i d) j := by
        rw [toList_bytesOf 64 _ ((length_putWord _ _ _ hlen).trans (Vector.length_toList ..))]
    _ = _ := by rw [byteAt_putWord _ _ _ _ hlen, byteAt_toList _ _ j.isLt]; rfl

/-- Settles O20, register by register. -/
theorem registerWriteTakesTheDatum : Obligations.RegisterWriteTakesTheDatum := by
  intro s rest o d turn hp hb
  refine ⟨fun ho => ?_, fun ho => ?_, fun i ho => ?_, fun i ho => ?_⟩ <;> subst ho
  · exact step_of_write turn hp hb (by omega) rfl
  · exact step_of_write turn hp hb (by omega) rfl
  · rw [step_of_write turn hp hb (by omega) (by omega), locate_hreg _ i i.isLt]
    simp [writeLoc, storeWord, Vector.setIfInBounds, Array.setIfInBounds]
  · refine ⟨_, ?_, getElem_bytesOf_putWord s.breg i d⟩
    rw [step_of_write turn hp hb (by omega) (by omega), locate_breg _ i i.isLt]
    rfl

/-! ## The invariant outside a run -/

theorem Inv.unitsIdle {s : State} (h : Inv s) (hb : s.status.busy = false) : unitsIdle s := by
  have hp := h.phase
  rwa [phaseOk, h.idle.2 hb] at hp

/-- An update of `STATUS` that keeps `BUSY = 0` keeps the invariant when its error fields agree with each other. -/
theorem inv_withStatus {s : State} (h : Inv s) (hb : s.status.busy = false) {t : Status} (hbusy : t.busy = false)
    (hdone : t.err = true → t.done = false)
    (hcode : if t.err then 1 ≤ t.errcode.toNat ∧ t.errcode.toNat ≤ 3 else t.errcode = 0)
    (hop : t.lastop.toNat ≤ 8) : Inv { s with status := t } :=
  { h with
    idle := ⟨fun _ => hbusy, fun _ => h.idle.2 hb⟩
    doneIdle := fun _ => hbusy
    errIdle := fun he => ⟨hbusy, hdone he⟩
    errcode := hcode
    lastop := hop
    keyFits := fun e => absurd e (by simp [hbusy])
    msgFits := fun e => absurd e (by simp [hbusy])
    phase := by
      show phaseOk _
      simp only [phaseOk, h.idle.2 hb]
      exact h.unitsIdle hb }

theorem inv_clearStatus {s : State} (h : Inv s) (hb : s.status.busy = false) : Inv (clearStatus s) :=
  inv_withStatus h hb hb (fun e => nomatch e) rfl (Nat.le_refl 8)

/-- The codes of the causes that are raised (R231, R235). -/
theorem code_toNat_range (c : ErrCause) (hc : c ≠ .worker) : 1 ≤ c.code.toNat ∧ c.code.toNat ≤ 3 := by
  revert hc
  cases c <;> decide

theorem inv_raiseErr {s : State} (h : Inv s) (hb : s.status.busy = false) (c : ErrCause) (hc : c ≠ .worker) :
    Inv (raiseErr c s) :=
  inv_withStatus h hb hb (fun _ => rfl) (code_toNat_range c hc) h.lastop

/-- Acceptance latches operands that fit, and starts in `EXEC` with no error pending (R220, case 7). -/
theorem inv_accept {s : State} (h : Inv s) (hb : s.status.busy = false) (i : Instr) (hi : i ≠ .clear)
    (he : s.status.err = false)
    (hk : usesKey i = true → s.keylen.toNat ≤ s.params.keyMax)
    (hm : usesMsg i = true → s.msglen.toNat ≤ s.params.msgMax) : Inv (accept i s) :=
  { h with
    idle := ⟨(fun e => nomatch e), (fun e => nomatch e)⟩
    doneIdle := fun e => nomatch e
    errIdle := fun e => absurd e (by simp [he])
    errcode := h.errcode
    lastop := (opcode_toNat_range i hi).2.trans (by decide)
    keyFits := fun _ j hj hu => hk (opcode_injective i j hj ▸ hu)
    msgFits := fun _ j hj hu => hm (opcode_injective i j hj ▸ hu)
    phase := ⟨h.unitsIdle hb, opcode_toNat_range i hi⟩ }

/-- A write that the address map routes to a location stays inside its buffer (R62, R66). -/
theorem inv_storeWord {s : State} (h : Inv s) (o : Nat) (d : Word) (ho : o % 4 = 0) :
    Inv (storeWord s (locate s.params o) d) := by
  obtain ⟨⟨hkey, _⟩, ⟨hmsg, _⟩, _⟩ := h.params
  cases hl : locate s.params o with
  | window sp off =>
    cases sp with
    | key =>
      obtain ⟨hlt, ho'⟩ := locate_eq_key _ _ _ hl
      exact { h with key := Memory.bufferOk_write _ s.params.keyMax _ _ h.key (by rw [length_ser32]; omega) }
    | msg =>
      obtain ⟨hlt, ho'⟩ := locate_eq_msg _ _ _ hl
      exact { h with msg := Memory.bufferOk_write _ s.params.msgMax _ _ h.msg (by rw [length_ser32]; omega) }
    | _ => exact h
  | _ => exact { h with }

theorem inv_afterReset (p : Params) (tick : Nat) (hp : p.wf) : Inv (State.afterReset p tick) where
  params := hp
  key := ⟨.nil, fun _ hc => nomatch hc⟩
  msg := ⟨.nil, fun _ hc => nomatch hc⟩
  lane1 := ⟨.nil, fun _ hc => nomatch hc⟩
  lane2 := ⟨.nil, fun _ hc => nomatch hc⟩
  lane3 := ⟨.nil, fun _ hc => nomatch hc⟩
  lanelen := ⟨rfl, Nat.zero_le _⟩
  idle := ⟨fun _ => rfl, fun _ => rfl⟩
  doneIdle := fun e => nomatch e
  errIdle := fun e => nomatch e
  errcode := rfl
  lastop := Nat.zero_le _
  keyFits := fun e => nomatch e
  msgFits := fun e => nomatch e
  phase := ⟨rfl, rfl, rfl⟩
  job1 := trivial
  job2 := trivial
  job3 := trivial

/-- Settles O59: the reset state meets each field of the invariant. -/
theorem invHoldsAtReset : Obligations.InvHoldsAtReset :=
  ⟨inv_afterReset, rfl, inv_afterReset _ _ (by decide)⟩

/-! ## The invariant during a run -/

theorem Inv.busy {s : State} (h : Inv s) (hp : s.phase ≠ .idle) : s.status.busy = true := by
  have := h.idle
  simpa [hp] using this

/-- CTRL moves on within a run: only its phase, `PK`, `TAGCAT` and the units change. -/
theorem inv_advance {s : State} (h : Inv s) (hs : s.phase ≠ .idle) {ph : Phase} (hph : ph ≠ .idle)
    {pk : PaddedKey} {tagcat : TagCat} {x y z : HashUnit}
    (hp : phaseOk { s with phase := ph, pk := pk, tagcat := tagcat, hu1 := x, hu2 := y, hu3 := z })
    (hx : x.jobOk) (hy : y.jobOk) (hz : z.jobOk) :
    Inv { s with phase := ph, pk := pk, tagcat := tagcat, hu1 := x, hu2 := y, hu3 := z } :=
  { h with
    idle := by simp [hph, h.busy hs]
    phase := hp
    job1 := hx
    job2 := hy
    job3 := hz }

theorem jobOk_of_idle {x : HashUnit} (h : x.phase = .idle) : x.jobOk := by
  simp [HashUnit.jobOk, h]

/-- The completion step of a run: all units are idle after it, and `HREG`, `OUT` and HU1 may have changed. -/
theorem inv_complete {s : State} (h : Inv s) (hs : s.phase ≠ .idle) {hreg : HashState} {out : Digest} {x : HashUnit}
    (hx : x.phase = .idle) (hy : s.hu2.phase = .idle) (hz : s.hu3.phase = .idle) :
    Inv (complete { s with hreg := hreg, out := out, hu1 := x }) :=
  { h with
    idle := ⟨fun _ => rfl, fun _ => rfl⟩
    doneIdle := fun _ => rfl
    errIdle := fun he => absurd (h.errIdle he).1 (by simp [h.busy hs])
    keyFits := fun e => nomatch e
    msgFits := fun e => nomatch e
    phase := ⟨hx, hy, hz⟩
    job1 := jobOk_of_idle hx }

/-- The lane length of a message that fits: a multiple of 64 that fits a lane buffer (R39, R181, R190). -/
theorem laneLength_fits (p : Params) (n : Nat) (hp : p.wf) (hn : n ≤ p.msgMax) :
    laneLength n % 64 = 0 ∧ laneLength n ≤ p.laneMax ∧ laneLength n < 2 ^ 32 := by
  obtain ⟨_, ⟨hmod, hlo, hhi⟩, _⟩ := hp
  unfold laneLength Params.laneMax
  split <;> omega

/-- The three lanes have the lane length (R181). -/
theorem length_split (m : List Byte) :
    (split m).lane1.length = laneLength m.length ∧ (split m).lane2.length = laneLength m.length ∧
      (split m).lane3.length = laneLength m.length := by
  have hq : 128 * (m.length / 128) ≤ m.length := Nat.mul_div_le ..
  obtain ⟨f1, f2, f3⟩ := length_fullChunks (m.length / 128) m hq
  unfold split laneLength
  dsimp only
  split
  · rw [f1, f2, f3, if_neg (by omega)]
    omega
  · have hr : (m.drop (128 * (m.length / 128))).length < 128 := by rw [List.length_drop]; omega
    obtain ⟨l1, l2, l3⟩ := length_lastChunks _ hr
    simp only [List.length_append, f1, f2, f3, l1, l2, l3]
    split <;> omega

/-- The split keeps the invariant in the two phases in which CTRL does it. -/
theorem inv_doSplit {s : State} (h : Inv s) (hp : s.phase = .exec ∨ s.phase = .kndone)
    (hm : s.mlen.toNat ≤ s.params.msgMax) : Inv (doSplit s) := by
  obtain ⟨hmod, hfit, h32⟩ := laneLength_fits s.params _ h.params hm
  have hlen : (msgOperand s).length = s.mlen.toNat := length_memRead ..
  obtain ⟨h1, h2, h3⟩ := length_split (msgOperand s)
  rw [hlen] at h1 h2 h3
  rw [doSplit_eq]
  exact
    { h with
      lane1 := Memory.bufferOk_write _ s.params.laneMax _ _ h.lane1 (by omega)
      lane2 := Memory.bufferOk_write _ s.params.laneMax _ _ h.lane2 (by omega)
      lane3 := Memory.bufferOk_write _ s.params.laneMax _ _ h.lane3 (by omega)
      lanelen := by
        rw [BitVec.toNat_ofNat, Nat.mod_eq_of_lt h32]
        exact ⟨hmod, hfit⟩
      phase := by
        have := h.phase
        rcases hp with hp | hp <;> simp only [phaseOk, hp] at this ⊢ <;> exact this }

/-! ## The invariant across a CTRL action -/

section
variable {s : State}

theorem phaseOk_exec (h : phaseOk s) (hp : s.phase = .exec) : unitsIdle s := by
  rw [phaseOk, hp] at h; exact h.1

theorem phaseOk_kndone (h : phaseOk s) (hp : s.phase = .kndone) : unitsIdle s := by
  rw [phaseOk, hp] at h; exact h.2

theorem phaseOk_knhash (h : phaseOk s) (hp : s.phase = .knhash) : s.hu2.phase = .idle ∧ s.hu3.phase = .idle := by
  rw [phaseOk, hp] at h
  obtain ⟨_, _, _, h2, h3⟩ := h
  exact ⟨h2, h3⟩

theorem phaseOk_run_final (h : phaseOk s) (hp : s.phase = .run ∨ s.phase = .final) :
    s.hu2.phase = .idle ∧ s.hu3.phase = .idle := by
  rcases hp with hp | hp <;> rw [phaseOk, hp] at h
  · exact h.2
  · exact h.2.2

theorem inv_keyNormFirst (h : Inv s) (hp : s.phase = .exec) (ho : keyed s) : Inv (keyNormFirst s) := by
  have hs : s.phase ≠ .idle := by simp [hp]
  obtain ⟨h1, h2, h3⟩ := phaseOk_exec h.phase hp
  rcases keyNormFirst_cases s with ⟨_, e⟩ | ⟨hk, e⟩ <;> rw [e]
  · exact inv_advance h hs (by decide) ⟨ho, h1, h2, h3⟩ h.job1 h.job2 h.job3
  · exact inv_advance h hs (by decide) ⟨ho, hk, ⟨.inl rfl, rfl, rfl⟩, h2, h3⟩ (nblocks_pos _) h.job2 h.job3

theorem inv_keyNormSecond (h : Inv s) (hp : s.phase = .knhash) (ho : keyed s) : Inv (keyNormSecond s) := by
  obtain ⟨h2, h3⟩ := phaseOk_knhash h.phase hp
  rcases keyNormSecond_cases s with ⟨_, e⟩ | ⟨_, e⟩ <;> rw [e]
  · exact inv_advance h (by simp [hp]) (by decide) ⟨ho, rfl, h2, h3⟩ trivial h.job2 h.job3
  · exact h

theorem inv_hashStart (h : Inv s) (hp : s.phase = .exec) (ho : s.status.lastop = Instr.hash.opcode) :
    Inv (hashStart s) := by
  obtain ⟨_, h2, h3⟩ := phaseOk_exec h.phase hp
  exact inv_advance h (by simp [hp]) (by decide) ⟨.inl ⟨ho, .inl rfl, rfl, rfl⟩, h2, h3⟩ (nblocks_pos _)
    h.job2 h.job3

theorem inv_hmacStart (h : Inv s) (hp : s.phase = .kndone) (ho : s.status.lastop = Instr.hmac.opcode) :
    Inv (hmacStart s) := by
  obtain ⟨_, h2, h3⟩ := phaseOk_kndone h.phase hp
  exact inv_advance h (by simp [hp]) (by decide) ⟨.inr ⟨ho, .inl rfl, rfl, rfl⟩, h2, h3⟩ (nblocks_pos _)
    h.job2 h.job3

theorem inv_fanOut (h : Inv s) (hs : s.phase ≠ .idle) (ho : s.status.lastop = Instr.mac.opcode)
    (hl : s.lanelen.toNat = laneLength s.mlen.toNat) : Inv (fanOut s) := by
  rw [fanOut_eq]
  exact inv_advance h hs (by decide)
    ⟨ho, hl, ⟨.inl rfl, rfl, rfl⟩, ⟨.inl rfl, rfl, rfl⟩, ⟨.inl rfl, rfl, rfl⟩⟩
    (nblocks_pos _) (nblocks_pos _) (nblocks_pos _)

theorem inv_join (h : Inv s) (hp : s.phase = .fanout) (ho : s.status.lastop = Instr.mac.opcode) : Inv (join s) := by
  rcases join_cases s with ⟨_, e⟩ | ⟨_, e⟩ <;> rw [e]
  · exact inv_advance h (by simp [hp]) (by decide) ⟨ho, ⟨.inl rfl, rfl, rfl⟩, rfl, rfl⟩ (nblocks_pos _)
      trivial trivial
  · exact h

theorem inv_collect (h : Inv s) (hp : s.phase = .run ∨ s.phase = .final) : Inv (collect s) := by
  obtain ⟨h2, h3⟩ := phaseOk_run_final h.phase hp
  rcases collect_cases s with ⟨_, e⟩ | ⟨_, e⟩ <;> rw [e]
  · exact inv_complete h (by rcases hp with hp | hp <;> simp [hp]) rfl h2 h3
  · exact h

theorem lanelen_doSplit (h : Inv s) (hm : s.mlen.toNat ≤ s.params.msgMax) :
    (doSplit s).lanelen.toNat = laneLength s.mlen.toNat := by
  rw [doSplit_eq]
  exact (BitVec.toNat_ofNat ..).trans (Nat.mod_eq_of_lt (laneLength_fits s.params _ h.params hm).2.2)

theorem inv_ctrlAction {t : State} (h : Inv s) (ha : CtrlAction s t) : Inv t := by
  cases ha with
  | wait => exact h
  | init hp =>
    obtain ⟨h1, h2, h3⟩ := phaseOk_exec h.phase hp
    exact inv_complete h (by simp [hp]) h1 h2 h3
  | compress hp =>
    obtain ⟨h1, h2, h3⟩ := phaseOk_exec h.phase hp
    exact inv_complete h (by simp [hp]) h1 h2 h3
  | hashStart hp ho => exact inv_hashStart h hp ho
  | keyNormFirst hp ho => exact inv_keyNormFirst h hp ho
  | split hp ho =>
    obtain ⟨h1, h2, h3⟩ := phaseOk_exec h.phase hp
    have hs : s.phase ≠ .idle := by simp [hp]
    have hm := h.msgFits (h.busy hs) .split ho rfl
    exact inv_complete (inv_doSplit h (.inl hp) hm) (by simpa) (by simpa using h1) (by simpa) (by simpa)
  | keyNormSecond hp ho => exact inv_keyNormSecond h hp ho
  | complete hp =>
    obtain ⟨h1, h2, h3⟩ := phaseOk_kndone h.phase hp
    exact inv_complete h (by simp [hp]) h1 h2 h3
  | hmacStart hp ho => exact inv_hmacStart h hp ho
  | fanOut hp ho =>
    have hs : s.phase ≠ .idle := by simp [hp]
    have hm := h.msgFits (h.busy hs) .mac ho rfl
    exact inv_fanOut (inv_doSplit h (.inr hp) hm) (by simpa) (by simpa) (by simpa using lanelen_doSplit h hm)
  | join hp ho => exact inv_join h hp ho
  | collect hp => exact inv_collect h (hp.imp And.left And.left)

end

/-! ## The invariant across a unit's step -/

/-- What a unit's step keeps of its job: the operand, and the kind of the job until it has ended. -/
structure HashUnit.Continues (x y : HashUnit) : Prop where
  src : y.src = x.src
  blen : y.blen = x.blen
  idle : x.phase = .idle → y.phase = .idle
  hashing : x.phase = .hash ∨ x.phase = .done → y.phase = .hash ∨ y.phase = .done
  macing : x.phase = .inner ∨ x.phase = .outer ∨ x.phase = .done →
    y.phase = .inner ∨ y.phase = .outer ∨ y.phase = .done

namespace HashUnit.Continues

variable {x y : HashUnit}

theorem refl (x : HashUnit) : x.Continues x := ⟨rfl, rfl, id, id, id⟩

theorem keeps_hashing (h : x.Continues y) {src : Space} {len : Word} (hx : x.hashing src len) :
    y.hashing src len := by
  obtain ⟨hp, hsrc, hlen⟩ := hx
  exact ⟨h.hashing hp, h.src.trans hsrc, h.blen.trans hlen⟩

theorem keeps_macing (h : x.Continues y) {src : Space} {len : Word} (hx : x.macing src len) :
    y.macing src len := by
  obtain ⟨hp, hsrc, hlen⟩ := hx
  exact ⟨h.macing hp, h.src.trans hsrc, h.blen.trans hlen⟩

theorem endBlock (x : HashUnit) (n : Nat) : x.Continues (x.endBlock n) := by
  rcases endBlock_cases x n with ⟨_, e⟩ | ⟨_, ⟨hp, e⟩ | ⟨hp, e⟩ | ⟨_, e⟩⟩ <;> rw [e]
  · exact refl x
  · rcases hp with hp | hp <;> constructor <;> simp [hp]
  · constructor <;> simp [hp]
  · exact refl x

end HashUnit.Continues

/-- The phase table lets every unit go on with its job. -/
theorem phaseOk_of_continues {s : State} {x y z : HashUnit} (h : phaseOk s) (hx : s.hu1.Continues x)
    (hy : s.hu2.Continues y) (hz : s.hu3.Continues z) : phaseOk { s with hu1 := x, hu2 := y, hu3 := z } := by
  have hidle : unitsIdle s → unitsIdle { s with hu1 := x, hu2 := y, hu3 := z } :=
    fun ⟨h1, h2, h3⟩ => ⟨hx.idle h1, hy.idle h2, hz.idle h3⟩
  unfold phaseOk at h ⊢
  cases hp : s.phase <;> simp only [hp] at h ⊢
  case idle => exact hidle h
  case exec => exact ⟨hidle h.1, h.2⟩
  case knhash =>
    obtain ⟨ho, hk, h1, h2, h3⟩ := h
    exact ⟨ho, hk, hx.keeps_hashing h1, hy.idle h2, hz.idle h3⟩
  case kndone => exact ⟨h.1, hidle h.2⟩
  case run =>
    obtain ⟨⟨ho, h1⟩ | ⟨ho, h1⟩, h2, h3⟩ := h
    · exact ⟨.inl ⟨ho, hx.keeps_hashing h1⟩, hy.idle h2, hz.idle h3⟩
    · exact ⟨.inr ⟨ho, hx.keeps_macing h1⟩, hy.idle h2, hz.idle h3⟩
  case fanout =>
    obtain ⟨ho, hl, h1, h2, h3⟩ := h
    exact ⟨ho, hl, hx.keeps_macing h1, hy.keeps_macing h2, hz.keeps_macing h3⟩
  case final =>
    obtain ⟨ho, h1, h2, h3⟩ := h
    exact ⟨ho, hx.keeps_macing h1, hy.idle h2, hz.idle h3⟩

/-- A unit's step goes on with the unit's job. -/
theorem unitStep_continues (u : UnitId) (s : State) : (s.unit u).Continues ((unitStep u s).unit u) := by
  cases h : (s.unit u).active
  · rw [unitStep_of_inactive u s h]; exact .refl _
  · rw [unitStep_of_active u s h, unit_setUnit_self]
    have hc := HashUnit.Continues.endBlock (compressBlock s u) (stream s u).length
    exact ⟨hc.src, hc.blen, hc.idle, hc.hashing, hc.macing⟩

/-- The length of the stream of the job in progress (R150, R167). -/
def HashUnit.streamLength (x : HashUnit) : Nat :=
  match x.phase with
  | .hash => x.blen.toNat
  | .inner => 64 + x.blen.toNat
  | .outer => 96
  | .idle => 0
  | .done => 0

theorem length_stream_eq (s : State) (u : UnitId) : (stream s u).length = (s.unit u).streamLength := by
  rw [length_stream]
  rfl

theorem streamLength_lt (x : HashUnit) : x.streamLength < 2 ^ 33 := by
  have := x.blen.isLt
  unfold HashUnit.streamLength
  split <;> omega

/-- While a job is in progress, `jobOk` bounds the block index by the blocks of the stream. -/
theorem jobOk_iff_of_active {x : HashUnit} (h : x.active = true) :
    x.jobOk ↔ x.bidx.toNat < nblocks x.streamLength := by
  cases hp : x.phase <;> simp [HashUnit.active, HashUnit.jobOk, HashUnit.streamLength, hp] at h ⊢

/-- The index of the next block after a block that was not the last: it has not wrapped (R28). -/
theorem bidx_succ_lt {b : Word} {n : Nat} (hn : n < 2 ^ 33) (hb : b.toNat < nblocks n)
    (hne : (b + 1).toNat ≠ nblocks n) : (b + 1).toNat < nblocks n := by
  have := nblocks_lt n hn
  have hadd : (b + 1).toNat = b.toNat + 1 := by
    rw [BitVec.toNat_add]
    exact Nat.mod_eq_of_lt (by simp; omega)
  omega

/-- A unit's step keeps its block index below the number of blocks (R151, R167). -/
theorem unitStep_jobOk (u : UnitId) (s : State) (h : (s.unit u).jobOk) : ((unitStep u s).unit u).jobOk := by
  cases ha : (s.unit u).active
  · rwa [unitStep_of_inactive u s ha]
  · rw [unitStep_of_active u s ha, unit_setUnit_self, length_stream_eq]
    have hlt := (jobOk_iff_of_active ha).1 h
    rcases endBlock_cases (compressBlock s u) (s.unit u).streamLength with
      ⟨hne, e⟩ | ⟨_, ⟨_, e⟩ | ⟨_, e⟩ | ⟨hp, _⟩⟩
    · rw [e]
      exact (jobOk_iff_of_active (x := compressBlock s u) ha).2 (bidx_succ_lt (streamLength_lt _) hlt hne)
    · rw [e]; exact trivial
    · rw [e]; exact nblocks_pos 96
    · exact absurd ha (by rcases hp with hp | hp <;> simp_all [HashUnit.active])

theorem inv_unitStep {s : State} (h : Inv s) (u : UnitId) : Inv (unitStep u s) := by
  have hc := unitStep_continues u s
  have hj := unitStep_jobOk u s
  rw [unitStep_eq_setUnit]
  cases u with
  | u1 => exact { h with phase := phaseOk_of_continues h.phase hc (.refl _) (.refl _), job1 := hj h.job1 }
  | u2 => exact { h with phase := phaseOk_of_continues h.phase (.refl _) hc (.refl _), job2 := hj h.job2 }
  | u3 => exact { h with phase := phaseOk_of_continues h.phase (.refl _) (.refl _) hc, job3 := hj h.job3 }

/-! ## The invariant across a step -/

theorem inv_issueEffect {s t : State} {w : Word} (h : Inv s) (hb : s.status.busy = false) (he : IssueEffect s w t) :
    Inv t := by
  cases he with
  | dropped => exact h
  | cleared => exact inv_clearStatus h hb
  | raised _ c hc => exact inv_raiseErr h hb c hc
  | accepted i hi _ he hk hm => exact inv_accept h hb i hi he hk hm
  | outsideIdle hp => exact absurd (h.idle.2 hb) hp

theorem inv_pollStatus {s : State} (h : Inv s) : Inv (pollStatus s) := by
  unfold pollStatus
  dsimp only
  split <;> exact { h with }

theorem inv_hostEffect {s t : State} {e : HostEvent} (h : Inv s) (he : HostEffect s e t) : Inv t := by
  have hans : Inv (s.answer .okay none) := { h with }
  cases he with
  | answered => exact { h with }
  | polled => exact inv_pollStatus h
  | dropped => exact { h with }
  | stored a o d hr => exact inv_storeWord hans o d (aligned_of_route _ _ _ h.params hr)
  | issued w hb hi => exact inv_issueEffect hans hb hi
  | reset => exact { inv_afterReset s.params s.tick h.params with }

/-- Settles O60, by the cases of what a step can do. -/
theorem everyStepKeepsInv : Obligations.EveryStepKeepsInv := by
  intro s t h hst
  have hbegun : Inv s.begun := { h with }
  cases StepEffect.of_step hst with
  | waited => exact h
  | passed => exact hbegun
  | host e rest _ he =>
    have htaken : Inv (s.taken rest) := { h with }
    exact inv_hostEffect htaken he
  | ctrl _ ha => exact inv_ctrlAction hbegun ha
  | unit u => exact inv_unitStep hbegun u

end Sys2Proof.Machine

/-! # The address map, the host's transactions and the private registers of the units (spec/20_memory.md) -/

namespace Sys2Proof.Machine

/-! ## When a step stops -/

theorem route_misaligned {p : Params} {a : Nat} (hlo : p.base ≤ a) (hhi : a < p.base + 0x05000000)
    (h4 : a % 4 ≠ 0) : route p a = .misaligned := by
  rcases route_cases p a with ⟨hr, _⟩ | ⟨_, _, e⟩ | ⟨_, hr, _⟩
  · exact absurd ⟨hlo, hhi⟩ hr
  · exact e
  · exact absurd hr h4

theorem route_aligned {p : Params} {a : Nat} (hlo : p.base ≤ a) (hhi : a < p.base + 0x05000000)
    (h4 : a % 4 = 0) : route p a = .offset (a - p.base) := by
  rcases route_cases p a with ⟨hr, _⟩ | ⟨_, hr, _⟩ | ⟨_, _, e⟩
  · exact absurd ⟨hlo, hhi⟩ hr
  · exact absurd h4 hr
  · exact e

/-- The addresses that lead outside the core are those out of its range (R60). -/
theorem route_eq_outside (p : Params) (a : Nat) :
    route p a = .outside ↔ ¬ (p.base ≤ a ∧ a < p.base + 0x05000000) := by
  rcases route_cases p a with ⟨hr, e⟩ | ⟨hr, _, e⟩ | ⟨hr, _, e⟩ <;> simp [e, hr]

/-- A command word never stops the machine (spec/60_exceptions.md R230). -/
theorem command_next (w : Word) (s : State) : ∃ t, command w s = .next t := by
  rcases command_cases w s with ⟨i, _, e⟩ | ⟨_, _, e⟩ <;> rw [e]
  · exact exec_next i s
  · exact ⟨_, rfl⟩

theorem event_of_inRange {e : HostEvent} {s : State} (h : e.inRange s.params) : ∃ t, event e s = .next t := by
  cases e with
  | wr a d =>
    rcases hostWrite_cases a d s with ⟨hr, _⟩ | ⟨_, e⟩ | ⟨o, _, ⟨_, e⟩ | ⟨_, _, e⟩ | ⟨_, _, e⟩⟩ <;> rw [event]
    · exact absurd h ((route_eq_outside _ _).1 hr)
    · exact ⟨_, e⟩
    · exact ⟨_, e⟩
    · exact e ▸ command_next d _
    · exact ⟨_, e⟩
  | rd a =>
    rcases hostRead_cases a s with ⟨hr, _⟩ | ⟨_, e⟩ | ⟨o, _, e⟩ <;> rw [event]
    · exact absurd h ((route_eq_outside _ _).1 hr)
    · exact ⟨_, e⟩
    · exact ⟨_, e⟩
  | wait => exact ⟨_, rfl⟩
  | rst => exact ⟨_, rfl⟩

/-- A transaction out of the core's range stops the machine (log 10). -/
theorem event_of_not_inRange {e : HostEvent} {s : State} (h : ¬ e.inRange s.params) :
    event e s = .fault .outsideCore := by
  cases e with
  | wr a d => rw [event, hostWrite, (route_eq_outside _ _).2 h]
  | rd a => rw [event, hostRead, (route_eq_outside _ _).2 h]
  | wait => exact absurd trivial h
  | rst => exact absurd trivial h

/-- CTRL never stops the machine. -/
theorem ctrlMove_next (s : State) : ∃ t, ctrlMove s = .next t := by
  unfold ctrlMove
  split
  · exact ⟨_, rfl⟩
  · split
    · exact exec_next _ s
    · exact ⟨_, rfl⟩

/-- A step goes on unless HOST's turn is a transaction out of the core's range (R60; log 10). -/
theorem step_next {s : State} (h : ∀ e rest, HostTurn s e rest → e.inRange s.params) : ∃ t, step s = .next t := by
  cases ha : nextAgent s with
  | none => exact ⟨s, by rw [step, nextMove, ha]⟩
  | some a =>
    rcases a with _ | _ | u
    · cases hh : s.host with
      | nil => exact ⟨s.begun, by simp [step_of_nextAgent s _ ha, move, hostMove, hh]⟩
      | cons e rest =>
        have turn : HostTurn s e rest := ⟨ha, hh⟩
        rw [step_of_hostTurn s e rest turn]
        exact event_of_inRange (s := s.taken rest) (h e rest turn)
    · exact step_of_nextAgent s _ ha ▸ ctrlMove_next s.begun
    · exact ⟨_, step_of_nextAgent s _ ha⟩

/-- Settles O6: a step is the fault at a transaction out of the core's range, and goes on everywhere else. -/
theorem stepStopsOnlyOutsideTheCore : Obligations.StepStopsOnlyOutsideTheCore := by
  intro s
  by_cases h : ∃ e rest, HostTurn s e rest ∧ ¬ e.inRange s.params
  · obtain ⟨e, rest, turn, hr⟩ := h
    have hf : step s = .fault .outsideCore :=
      (step_of_hostTurn s e rest turn).trans (event_of_not_inRange (s := s.taken rest) hr)
    exact ⟨by simp [hf], fun _ => ⟨e, rest, turn, hr⟩, fun _ => hf⟩
  · obtain ⟨t, ht⟩ := step_next fun e rest turn => by_contra fun hr => h ⟨e, rest, turn, hr⟩
    exact ⟨by simp [ht], by simp [ht], fun h' => absurd h' h⟩

/-! ## What is outside the core -/

/-- What no step of CTRL touches: the parameters, and the model's own fields outside the core (log 17). -/
structure KeepsOutside (s t : State) : Prop where
  params : t.params = s.params
  host : t.host = s.host
  replies : t.replies = s.replies
  schedule : t.schedule = s.schedule
  tick : t.tick = s.tick

theorem KeepsOutside.refl (s : State) : KeepsOutside s s := ⟨rfl, rfl, rfl, rfl, rfl⟩

theorem CtrlAction.keepsOutside {s t : State} (h : CtrlAction s t) : KeepsOutside s t := by
  cases h with
  | wait => exact .refl s
  | init | compress | hashStart | complete | hmacStart => exact ⟨rfl, rfl, rfl, rfl, rfl⟩
  | split | fanOut => rw [doSplit_eq]; exact ⟨rfl, rfl, rfl, rfl, rfl⟩
  | keyNormFirst => rcases keyNormFirst_cases s with ⟨_, e⟩ | ⟨_, e⟩ <;> rw [e] <;> exact ⟨rfl, rfl, rfl, rfl, rfl⟩
  | keyNormSecond =>
    rcases keyNormSecond_cases s with ⟨_, e⟩ | ⟨_, e⟩ <;> rw [e] <;> exact ⟨rfl, rfl, rfl, rfl, rfl⟩
  | join => rcases join_cases s with ⟨_, e⟩ | ⟨_, e⟩ <;> rw [e] <;> exact ⟨rfl, rfl, rfl, rfl, rfl⟩
  | collect => rcases collect_cases s with ⟨_, e⟩ | ⟨_, e⟩ <;> rw [e] <;> exact ⟨rfl, rfl, rfl, rfl, rfl⟩

/-- The issue of a command word touches nothing outside the core. -/
theorem IssueEffect.keepsOutside {s t : State} {w : Word} (h : IssueEffect s w t) : KeepsOutside s t := by
  cases h with
  | dropped => exact .refl s
  | cleared | raised | accepted => exact ⟨rfl, rfl, rfl, rfl, rfl⟩
  | outsideIdle _ ha => exact ha.keepsOutside

/-- A unit's step touches nothing outside the core. -/
theorem unitStep_keepsOutside (u : UnitId) (s : State) : KeepsOutside s (unitStep u s) := by
  rw [unitStep_eq_setUnit]
  constructor <;> simp

/-- A store touches nothing outside the core. -/
theorem storeWord_keepsOutside (s : State) (loc : Loc) (d : Word) : KeepsOutside s (storeWord s loc d) := by
  unfold storeWord
  split <;> exact ⟨rfl, rfl, rfl, rfl, rfl⟩

/-- An event keeps the parameters, and the events still to come but for a WAIT that goes on. -/
theorem HostEffect.params_host {s t : State} {e : HostEvent} (h : HostEffect s e t) :
    t.params = s.params ∧ (t.host = s.host ∨ t.host = e :: s.host) := by
  cases h with
  | answered | dropped | reset => exact ⟨rfl, .inl rfl⟩
  | polled =>
    unfold pollStatus
    dsimp only
    split
    · exact ⟨rfl, .inr rfl⟩
    · exact ⟨rfl, .inl rfl⟩
  | stored a o d =>
    have hk := storeWord_keepsOutside (s.answer .okay none) (locate s.params o) d
    exact ⟨hk.params, .inl hk.host⟩
  | issued w _ hi => exact ⟨hi.keepsOutside.params, .inl hi.keepsOutside.host⟩

/-- A step keeps the parameters and brings no new event (log 5, log 6). -/
theorem step_params_host {s t : State} (h : step s = .next t) : t.params = s.params ∧ t.host <:+ s.host := by
  cases StepEffect.of_step h with
  | waited | passed => exact ⟨rfl, List.suffix_rfl⟩
  | host e rest turn he =>
    obtain ⟨hp, hh⟩ := he.params_host
    refine ⟨hp, ?_⟩
    rw [turn.2]
    rcases hh with hh | hh <;> rw [hh]
    · exact List.suffix_cons e rest
    · exact List.suffix_rfl
  | ctrl _ ha =>
    have hk := ha.keepsOutside
    exact ⟨hk.params, hk.host ▸ List.suffix_rfl⟩
  | unit u =>
    have hk := unitStep_keepsOutside u s.begun
    exact ⟨hk.params, hk.host ▸ List.suffix_rfl⟩

/-! ## Safe and fair runs -/

theorem steps_succ {s t : State} (h : step s = .next t) (k : Nat) : steps (k + 1) s = steps k t := by
  rw [steps, h]

/-- A host that keeps to the core's addresses never stops the machine. -/
theorem safeRun_of_inRange {s : State} (h : ∀ e ∈ s.host, e.inRange s.params) : SafeRun s := by
  intro k
  induction k generalizing s with
  | zero => exact ⟨s, rfl⟩
  | succ k ih =>
    have hmem : ∀ e rest, HostTurn s e rest → e ∈ s.host := fun e rest turn => by simp [turn.2]
    obtain ⟨t, ht⟩ := step_next fun e rest turn => h e (hmem e rest turn)
    obtain ⟨hp, hh⟩ := step_params_host ht
    rw [steps_succ ht]
    exact ih fun e he => hp ▸ h e (hh.subset he)

/-- A safe run goes on with a safe run. -/
theorem SafeRun.step {s : State} (h : SafeRun s) : ∃ t, Machine.step s = .next t ∧ SafeRun t := by
  obtain ⟨t, ht⟩ := h 1
  cases hs : Machine.step s with
  | next t => exact ⟨t, rfl, fun k => steps_succ hs k ▸ h (k + 1)⟩
  | fault r | refused r => simp [steps, hs] at ht

theorem SafeRun.steps {s t : State} (h : SafeRun s) {k : Nat} (ht : Machine.steps k s = .next t) : SafeRun t :=
  fun j => steps_add k j s t ht ▸ h (k + j)

/-- Some state of the run from `s` gives agent `a` the turn. -/
def TakesTurn (a : Agent) (s : State) : Prop := ∃ j u, steps j s = .next u ∧ nextAgent u = some a

theorem TakesTurn.of_step {a : Agent} {s t : State} (h : step s = .next t) (ht : TakesTurn a t) : TakesTurn a s := by
  obtain ⟨j, u, hu, ha⟩ := ht
  exact ⟨j + 1, u, (steps_succ h j).trans hu, ha⟩

/-- An agent among the turns to come gets its turn. -/
theorem takesTurn_of_mem_turns {a : Agent} {s : State} {l : List Agent} (hsafe : SafeRun s) (hl : turns s = l)
    (ha : a ∈ l) : TakesTurn a s := by
  induction l generalizing s with
  | nil => cases ha
  | cons b l ih =>
    have hb : nextAgent s = some b := by simp [nextAgent, hl]
    rcases List.mem_cons.1 ha with rfl | ha
    · exact ⟨0, s, rfl, hb⟩
    · obtain ⟨t, ht, hsafe'⟩ := hsafe.step
      rcases step_schedule s t ht with ⟨hn, _⟩ | ⟨c, hc, _⟩
      · simp [hb] at hn
      · obtain rfl : l = t.schedule := (List.cons.inj (hl.symm.trans hc)).2
        refine TakesTurn.of_step ht (ih hsafe' ?_ ha)
        rcases turns_cases t with ⟨_, e⟩ | ⟨hs, _⟩ | ⟨hs, _⟩
        · exact e
        all_goals simp [hs] at ha

/-- An agent whose step remains enabled gets its turn: at the latest in the round after the present one (R272). -/
theorem takesTurn_of_enabled {a : Agent} {s : State} {l : List Agent} (hsafe : SafeRun s) (hl : s.schedule = l)
    (hen : ∀ j u, steps j s = .next u → enabled u a = true) : TakesTurn a s := by
  induction l generalizing s with
  | nil => exact takesTurn_of_mem_turns hsafe rfl (mem_turns_of_enabled s a hl (hen 0 s rfl))
  | cons b l ih =>
    obtain ⟨t, ht, hsafe'⟩ := hsafe.step
    have hturns : turns s = b :: l := by simp [turns, hl]
    rcases step_schedule s t ht with ⟨hn, _⟩ | ⟨c, hc, _⟩
    · simp [nextAgent, hturns] at hn
    · have hl' : t.schedule = l := (List.cons.inj (hc.symm.trans hturns)).2
      exact TakesTurn.of_step ht (ih hsafe' hl' fun j u hu => hen (j + 1) u ((steps_succ ht j).trans hu))

/-- Settles O7: no step of the run stops, and the rounds of turns leave no agent out. -/
theorem hostInRangeIsSafe : Obligations.HostInRangeIsSafe := by
  intro s h
  have hsafe := safeRun_of_inRange h
  exact ⟨hsafe, fun a k t ht hen => takesTurn_of_enabled (hsafe.steps ht) rfl hen⟩

/-! ## Writes and reads of the windows -/

/-- A store to a word of the `KEY` or `MSG` window (R66). -/
theorem storeWord_window (s : State) {sp : Space} (off : Nat) (d : Word) (h : sp = .key ∨ sp = .msg) :
    storeWord s (.window sp off) d = memWrite s sp off (ser32 d) := by
  rcases h with rfl | rfl <;> rfl

/-- The four bytes at `off` after `ser32 d` is written there: the datum's, most significant first (R71). -/
theorem held_memWrite_ser32 (s : State) {sp : Space} (off : Nat) (d : Word) (h : sp ≠ .tagcat) (i : Nat) (hi : i < 4) :
    (memWrite s sp off (ser32 d)).held sp (off + i) = some (byteAt (ser32 d) i) := by
  rw [held_memWrite _ _ _ _ _ _ h, if_pos ⟨rfl, by omega, by rw [length_ser32]; omega⟩, Nat.add_sub_cancel_left]
  exact byteAt_of_lt _ _ hi

/-- A word is read back where its four bytes are held (R68, R71). -/
theorem wordAt_memRead_of_held {s : State} {sp : Space} {off : Nat} {d : Word}
    (h : ∀ i < 4, s.held sp (off + i) = some (byteAt (ser32 d) i)) : wordAt (memRead s sp off 4) 0 = d := by
  have hbyte : ∀ i < 4, readByte s sp (off + i) = byteAt (ser32 d) i := fun i hi => by simp [readByte, h i hi]
  have h0 : readByte s sp off = _ := hbyte 0 (by decide)
  rw [wordAt_memRead, h0, hbyte 1 (by decide), hbyte 2 (by decide), hbyte 3 (by decide)]
  exact wordAt_ser32 d

/-- The byte offset from `BASE` of the `KEY` window, and for any other space that of the `MSG` window (R61). -/
def windowBase (sp : Space) : Nat := if sp = .key then 0x00001000 else 0x01000000

/-- The windows that the host may write lie in the core's range, at aligned offsets (R61). -/
theorem locate_windowBase {p : Params} {sp : Space} {off : Nat} (hp : p.wf)
    (h : sp = .key ∧ off < p.keyMax ∨ sp = .msg ∧ off < p.msgMax) :
    locate p (windowBase sp + off) = .window sp off ∧ windowBase sp + off < 0x05000000 ∧ windowBase sp % 4 = 0 := by
  have ⟨⟨_, _, _⟩, ⟨_, _, _⟩, _⟩ := hp
  rcases h with ⟨rfl, h⟩ | ⟨rfl, h⟩
  · exact ⟨locate_key off hp h, by rw [windowBase, if_pos rfl]; omega, rfl⟩
  · exact ⟨locate_msg off hp h, by rw [windowBase, if_neg (by decide)]; omega, rfl⟩

section
variable {s : State} {rest : List HostEvent} {sp : Space} {off a : Nat} {d : Word}
  (ha : a = s.params.base + (windowBase sp + off)) (hp : s.params.wf) (hb : s.status.busy = false) (h4 : off % 4 = 0)
  (hsp : sp = .key ∧ off < s.params.keyMax ∨ sp = .msg ∧ off < s.params.msgMax)
include ha hp hb h4 hsp

/-- HOST's write of a word of the `KEY` or `MSG` window while `BUSY = 0` (R66). -/
theorem step_of_windowWrite (turn : HostTurn s (.wr a d) rest) :
    step s = .next (memWrite ((s.taken rest).answer .okay none) sp off (ser32 d)) := by
  obtain ⟨hl, hlt, hw4⟩ := locate_windowBase hp hsp
  subst ha
  rw [step_of_write turn hp hb hlt (by omega), hl, writeLoc, storeWord_window _ _ _ (hsp.imp And.left And.left)]
  simp

/-- HOST's read of a window word whose bytes are those of `d` (R68). -/
theorem step_of_windowRead (turn : HostTurn s (.rd a) rest)
    (hd : ∀ i < 4, s.held sp (off + i) = some (byteAt (ser32 d) i)) :
    step s = .next ((s.taken rest).answer .okay (some d)) := by
  obtain ⟨hl, hlt, hw4⟩ := locate_windowBase hp hsp
  subst ha
  have hw : loadWord (s.taken rest) (.window sp off) = d := wordAt_memRead_of_held hd
  rw [step_of_read_idle turn hp hlt (by omega) _ hl rfl hw]
  simp [hb]

end

theorem hostTurn_of_schedule {s : State} {e : HostEvent} {rest : List HostEvent} {sched : List Agent}
    (hhost : s.host = e :: rest) (hsched : s.schedule = .host :: sched) : HostTurn s e rest :=
  ⟨by rw [nextAgent, turns, hsched]; rfl, hhost⟩

/-- Settles O19: the write stores `ser32` of the datum, and the read that follows finds it. -/
theorem windowWriteReadsBack : Obligations.WindowWriteReadsBack := by
  intro s rest sched sp off d hp hb h4 hsp a hhost hsched
  have ha : a = s.params.base + (windowBase sp + off) := Nat.add_assoc ..
  have hbuf : sp ≠ .tagcat := by rcases hsp with ⟨rfl, _⟩ | ⟨rfl, _⟩ <;> decide
  have hturns : turns s = .host :: .host :: sched := by rw [turns, hsched]
  have hwrite := step_of_windowWrite ha hp hb h4 hsp (hostTurn_of_schedule hhost hsched)
  have hheld := held_memWrite_ser32 ((s.taken (.rd a :: rest)).answer .okay none) off d hbuf
  have turn : HostTurn (memWrite ((s.taken (.rd a :: rest)).answer .okay none) sp off (ser32 d)) (.rd a) rest :=
    hostTurn_of_schedule (sched := sched) (by simp) (by simp [hturns])
  have hread := step_of_windowRead (by simpa using ha) (by simpa using hp) (by simpa using hb) h4
    (by simpa using hsp) turn hheld
  refine ⟨_, _, hwrite, hread, ?frame, hheld 0 (by decide), hheld 1 (by decide), hheld 2 (by decide),
    hheld 3 (by decide), ?others, rfl⟩
  case frame =>
    rcases hsp with ⟨rfl, _⟩ | ⟨rfl, _⟩ <;> simp [memWrite, State.answer, State.taken, State.begun, hturns]
  case others =>
    intro sp' o' ho
    rw [held_memWrite _ _ _ _ _ _ hbuf, if_neg (by rw [length_ser32]; exact ho)]
    rfl

/-! ## The digest -/

/-- A word list written out big-endian holds word `i` at bytes `4i` to `4i+3` (R71). -/
theorem wordAt_flatMap_ser32 (ws : List Word) (i : Nat) (hi : i < ws.length) :
    wordAt (ws.flatMap ser32) i = ws[i] := by
  induction ws generalizing i with
  | nil => cases hi
  | cons w ws ih =>
    cases i with
    | zero => exact wordAt_ser32 w
    | succ i => exact ih i (Nat.lt_of_succ_lt_succ hi)

theorem digestBytes_eq_flatMap (s : HashState) : digestBytes s = s.toList.flatMap ser32 := by
  have hs : s.toList = [s[0], s[1], s[2], s[3], s[4], s[5], s[6], s[7]] := by
    refine List.ext_getElem (by simp) fun i hi _ => ?_
    rw [Vector.length_toList] at hi
    rw [Vector.getElem_toList]
    interval_cases i <;> rfl
  rw [hs]
  rfl

/-- Settles O29: the digest is the words' bytes one after another, so its words are those of the HashState. -/
theorem digestIsBigEndianWords : Obligations.DigestIsBigEndianWords := by
  intro s
  have hd : (digest s).toList = s.toList.flatMap ser32 := (toList_digest s).trans (digestBytes_eq_flatMap s)
  refine ⟨hd, fun i => ?_⟩
  rw [hd, wordAt_flatMap_ser32 _ _ (by simp)]
  simp

/-! ## The two forms of the engine -/

/-- Groups of two rounds are single rounds (R119). -/
theorem groupedRounds_eq_portableRounds (v : Working) (l : List (Word × Word)) :
    groupedRounds v l = portableRounds v l := by
  induction v, l using groupedRounds.induct with
  | case1 v => rfl
  | case2 v k w => rfl
  | case3 v k0 w0 k1 w1 rest ih => exact ih

/-- Both forms of the engine compute `compress` (R122). -/
theorem engine_eq_compress (accel : Accel) (s : HashState) (b : Block) : engine accel s b = compress s b := by
  cases accel with
  | portable => rfl
  | accelerated => rw [engine, groupedRounds_eq_portableRounds, compress]

/-! ## What a unit's step depends on -/

/-- What the step of unit `u` reads is the same in both states: the unit itself, `PK`, the draws and its body (R79). -/
structure AgreesFor (u : UnitId) (s t : State) : Prop where
  unit : s.unit u = t.unit u
  pk : s.pk = t.pk
  tick : s.tick = t.tick
  body : ∀ o, o < (s.unit u).blen.toNat → s.held (s.unit u).src o = t.held (s.unit u).src o

namespace AgreesFor

variable {u : UnitId} {s t : State}

theorem body_eq (h : AgreesFor u s t) : Machine.body s u = Machine.body t u := by
  rw [Machine.body, Machine.body, ← h.unit]
  exact memRead_congr s t _ _ _ h.tick fun o _ ho => h.body o (by omega)

theorem stream_eq (h : AgreesFor u s t) : stream s u = stream t u := by
  unfold stream
  rw [h.body_eq, h.unit, h.pk]

theorem compressBlock_eq (h : AgreesFor u s t) : compressBlock s u = compressBlock t u := by
  simp only [compressBlock, engine_eq_compress, h.stream_eq, h.unit, h.tick]

theorem unitStep_eq (h : AgreesFor u s t) : (unitStep u s).unit u = (unitStep u t).unit u := by
  cases ha : (s.unit u).active
  · rw [unitStep_of_inactive u s ha, unitStep_of_inactive u t (h.unit ▸ ha), h.unit]
  · rw [unitStep_of_active u s ha, unitStep_of_active u t (h.unit ▸ ha), unit_setUnit_self, unit_setUnit_self,
      h.compressBlock_eq, h.stream_eq]

/-- The other units are none of a unit's business (R79). -/
theorem setUnit (s : State) {u v : UnitId} (x : HashUnit) (h : u ≠ v) : AgreesFor u (s.setUnit v x) s where
  unit := unit_setUnit_ne s v u x h
  pk := setUnit_pk s v x
  tick := setUnit_tick s v x
  body := fun _ _ => by cases v <;> rfl

end AgreesFor

/-- Settles O49: the frame of a unit's step, and what it reads. -/
theorem unitTouchesOnlyItsOwn : Obligations.UnitTouchesOnlyItsOwn :=
  fun s _ u => ⟨unitStep_eq_setUnit u s, fun hu hpk ht hbody => AgreesFor.unitStep_eq ⟨hu, hpk, ht, hbody⟩⟩

/-- Unit `u` steps in the same way before and after the step of another unit. -/
theorem unitStep_setUnit (s : State) {u v : UnitId} (x : HashUnit) (h : u ≠ v) :
    unitStep u (s.setUnit v x) = (s.setUnit v x).setUnit u ((unitStep u s).unit u) := by
  rw [unitStep_eq_setUnit u (s.setUnit v x), (AgreesFor.setUnit s x h).unitStep_eq]

/-- Settles O50: each step writes its own unit, from what the other leaves alone. -/
theorem unitStepsCommute : Obligations.UnitStepsCommute := by
  intro s u v
  by_cases h : u = v
  · rw [h]
  · calc unitStep u (unitStep v s)
        = (s.setUnit v ((unitStep v s).unit v)).setUnit u ((unitStep u s).unit u) := by
          rw [unitStep_eq_setUnit v s, unitStep_setUnit s _ h, unit_setUnit_self]
      _ = (s.setUnit u ((unitStep u s).unit u)).setUnit v ((unitStep v s).unit v) :=
          setUnit_comm s v u _ _ (Ne.symm h)
      _ = unitStep v (unitStep u s) := by
          rw [unitStep_eq_setUnit u s, unitStep_setUnit s _ (Ne.symm h), unit_setUnit_self]

/-! ## Transactions that leave the core as it is -/

/-- Settles O13: a misaligned address is routed to no location, before `BUSY` is looked at. -/
theorem misalignedTransactionChangesNothing : Obligations.MisalignedTransactionChangesNothing := by
  intro s rest a d hlo hhi h4
  have hr : route (s.taken rest).params a = .misaligned := route_misaligned hlo hhi h4
  exact ⟨fun turn => by rw [step_of_hostTurn s _ rest turn, event, hostWrite, hr],
    fun turn => by rw [step_of_hostTurn s _ rest turn, event, hostRead, hr]⟩

/-- Settles O14: the write is routed to a location, and `BUSY` drops it there. -/
theorem writeDuringRunIsDropped : Obligations.WriteDuringRunIsDropped := by
  intro s rest a d turn hlo hhi h4 hb
  have hr : route (s.taken rest).params a = .offset (a - s.params.base) := route_aligned hlo hhi h4
  have hb' : (s.taken rest).status.busy = true := hb
  rw [step_of_hostTurn s _ rest turn, event, hostWrite, hr]
  simp only [hb', if_true]
  rfl

/-- Settles O15: a read records a reply, and a turn of WAIT records one and may keep its event. -/
theorem readsChangeNothing : Obligations.ReadsChangeNothing := by
  refine ⟨fun s t rest a turn h => ?read, fun s rest turn => ?wait⟩
  case read =>
    rw [step_of_hostTurn s _ rest turn, event] at h
    rcases hostRead_cases a (s.taken rest) with ⟨_, e⟩ | ⟨_, e⟩ | ⟨o, _, e⟩ <;> rw [e] at h <;> cases h <;> rfl
  case wait =>
    rw [step_of_hostTurn s _ rest turn, event, pollStatus]
    cases hb : s.status.busy <;> simp [hb, State.answer, State.taken]

/-- Settles O18, window by window. -/
theorem windowsMapTheBuffers : Obligations.WindowsMapTheBuffers := by
  intro p o
  have hlane : p.laneMax = p.msgMax / 2 := rfl
  refine ⟨fun h => ?key, fun h => ?msg, fun h => ?lane1, fun h => ?lane2, fun h => ?lane3, fun hlo hhi => ?gap⟩ <;>
    unfold locate
  case gap => simp (disch := omega) only [if_neg, if_pos]
  all_goals simp (disch := omega) only [if_neg, if_pos, Nat.add_sub_cancel_left, windowAt, hlane]

/-- Settles O21, location by location: where the host may not write, a write is the state as it is. -/
theorem readOnlyWritesAreIgnored : Obligations.ReadOnlyWritesAreIgnored := by
  intro s rest o d turn hp hb hlt h4 hro
  rw [step_of_write turn hp hb hlt h4]
  revert hro
  cases locate s.params o with
  | cmd | keylen | msglen | hreg | breg => exact False.elim
  | window sp off =>
    cases sp with
    | key | msg => exact False.elim
    | lane1 | lane2 | lane3 | tagcat => exact fun _ => rfl
  | status | lanelen | capKeymax | capMsgmax | out | pk | tagcat | reserved => exact fun _ => rfl

/-! ## The waits of CTRL -/

theorem collect_of_not_done {s : State} (h : s.hu1.phase ≠ .done) : collect s = s := if_neg h

theorem keyNormSecond_of_not_done {s : State} (h : s.hu1.phase ≠ .done) : keyNormSecond s = s := if_neg h

/-- The join waits for all three units (R81). -/
theorem join_of_not_allDone {s : State} (h : s.hu1.phase ≠ .done ∨ s.hu2.phase ≠ .done ∨ s.hu3.phase ≠ .done) :
    join s = s := by
  rcases join_cases s with ⟨hall, _⟩ | ⟨_, e⟩
  · obtain ⟨h1, h2, h3⟩ := (allDone_eq_true s).1 hall
    simp [h1, h2, h3] at h
  · exact e

/-- Settles O48: each waiting phase guards its action by the units it waits for. -/
theorem ctrlWaitsForItsUnits : Obligations.CtrlWaitsForItsUnits := by
  refine fun s => ⟨fun hp _ h => ?fanout, fun hp h => ?final, fun hp h => ?run, fun hp h i => ?knhash⟩
  case fanout => simp [exec, execMac, hp, join_of_not_allDone h]
  case final => simp [exec, execMac, hp, collect_of_not_done h]
  case run => simp [exec, execHash, execHmac, hp, collect_of_not_done h]
  case knhash =>
    cases i with
    | keynorm => simp [exec, execKeynorm, hp, keyNormSecond_of_not_done h]
    | hmac => simp [exec, execHmac, hp, keyNormSecond_of_not_done h]
    | mac => simp [exec, execMac, hp, keyNormSecond_of_not_done h]
    | init => simp [exec, execInit, hp]
    | compress => simp [exec, execCompress, hp]
    | hash => simp [exec, execHash, hp]
    | split => simp [exec, execSplit, hp]
    | clear => simp [exec, execClear, hp]

end Sys2Proof.Machine

/-! # Command words and the host's pseudo-instruction LOADMSG (spec/30_encoding.md) -/

namespace Sys2Proof.Machine

/-! ## The decoder on the fields of a word -/

/-- Cutting a word into fields undoes putting the fields together (R90). -/
theorem ofWord_toWord (c : CmdWord) : CmdWord.ofWord c.toWord = c := by
  have hrsvd : c.toWord.extractLsb' 4 28 = c.rsvd := BitVec.extractLsb'_append_eq_left
  have hop : c.toWord.extractLsb' 0 4 = c.op := BitVec.extractLsb'_append_eq_right
  rw [CmdWord.ofWord, hrsvd, hop]

/-- A word with a bit of 31:4 set is illegal whatever its opcode (R93). -/
theorem decode_of_rsvd_ne_zero {w : Word} (h : (CmdWord.ofWord w).rsvd ≠ 0) : decode w = .error .reservedBitsSet :=
  if_neg (mt eq_of_beq h)

section
variable {w : Word} (h : (CmdWord.ofWord w).rsvd = 0)
include h

/-- With the reserved field zero, an opcode of the table is its command (R92). -/
theorem decode_of_decodeOp_eq_some {i : Instr} (hop : decodeOp (CmdWord.ofWord w).op = some i) : decode w = .ok i := by
  simp only [decode, CmdWord.rsvdOk, h, hop, BEq.rfl, if_true]

/-- With the reserved field zero, an opcode outside the table is illegal (R92, R94). -/
theorem decode_of_decodeOp_eq_none (hop : decodeOp (CmdWord.ofWord w).op = none) :
    decode w = .error .noSuchOpcode := by
  simp only [decode, CmdWord.rsvdOk, h, hop, BEq.rfl, if_true]

end

/-- Settles O1: the fields of the word are zero and the command's opcode. -/
theorem decodeOfEncodeIsTheCommand : Obligations.DecodeOfEncodeIsTheCommand := by
  intro i
  have hfields : CmdWord.ofWord (encode i) = ⟨0, i.opcode⟩ := ofWord_toWord _
  exact decode_of_decodeOp_eq_some (by rw [hfields]) (by rw [hfields, decodeOp_opcode])

/-- The words of the commands are 1 to 8 (R92). -/
theorem exists_eq_encode_iff (w : Word) : (∃ i, w = encode i) ↔ 1 ≤ w.toNat ∧ w.toNat ≤ 8 := by
  constructor
  · rintro ⟨i, rfl⟩
    cases i <;> decide
  · rintro ⟨hlo, hhi⟩
    have hw : w = BitVec.ofNat 32 w.toNat := by simp
    generalize w.toNat = n at hw hlo hhi
    subst hw
    interval_cases n
    exacts [⟨.init, rfl⟩, ⟨.compress, rfl⟩, ⟨.hash, rfl⟩, ⟨.keynorm, rfl⟩, ⟨.hmac, rfl⟩, ⟨.split, rfl⟩, ⟨.mac, rfl⟩,
      ⟨.clear, rfl⟩]

/-- Settles O2: a word decodes to the one command that it is the word of, and those words are 1 to 8. -/
theorem legalWordsAreExactlyTheEight : Obligations.LegalWordsAreExactlyTheEight := by
  intro w
  have hdecode : ∀ i, decode w = .ok i ↔ w = encode i := fun i =>
    ⟨eq_encode_of_decode w i, fun h => h ▸ decodeOfEncodeIsTheCommand i⟩
  exact ⟨hdecode, by simpa only [hdecode] using exists_eq_encode_iff w⟩

/-- Settles O3: eight words are encodings, two have no opcode and two have a reserved bit set. -/
theorem specWordsDecode : Obligations.SpecWordsDecode := by
  have hlegal := decodeOfEncodeIsTheCommand
  refine ⟨hlegal .init, hlegal .compress, hlegal .hash, hlegal .keynorm, hlegal .hmac, hlegal .split, hlegal .mac,
    hlegal .clear, ?_, ?_, ?_, ?_⟩
  · exact decode_of_decodeOp_eq_none (by decide) (by decide)
  · exact decode_of_decodeOp_eq_none (by decide) (by decide)
  · exact decode_of_rsvd_ne_zero (by decide)
  · exact decode_of_rsvd_ne_zero (by decide)

/-! ## The bytes of a word -/

/-- The bits of a big-endian word are those of its bytes, the last byte lowest (R11). -/
theorem getLsbD_be32 (b0 b1 b2 b3 : Byte) (i : Nat) :
    (be32 b0 b1 b2 b3).getLsbD i =
      if i < 8 then b3.getLsbD i else if i - 8 < 8 then b2.getLsbD (i - 8)
      else if i - 8 - 8 < 8 then b1.getLsbD (i - 8 - 8) else b0.getLsbD (i - 8 - 8 - 8) := by
  simp only [be32, BitVec.getLsbD_append]

/-- `ser32` gives back the bytes that `be32` puts together (R11). -/
theorem ser32_be32 (b0 b1 b2 b3 : Byte) : ser32 (be32 b0 b1 b2 b3) = [b0, b1, b2, b3] := by
  simp only [ser32, List.cons.injEq, and_true]
  refine ⟨?_, ?_, ?_, ?_⟩ <;> refine BitVec.eq_of_getLsbD_eq fun i hi => ?_ <;>
    simp (disch := omega) only [BitVec.getLsbD_extractLsb', getLsbD_be32, hi, if_pos, if_neg, if_true,
      decide_true, Bool.true_and, Nat.sub_sub, Nat.reduceAdd, Nat.add_sub_cancel_left, Nat.zero_add]

/-- Byte `a` of a sequence is byte `a % 4` of its word `a / 4` (R71). -/
theorem byteAt_ser32_wordAt (bs : List Byte) (a : Nat) :
    byteAt (ser32 (wordAt bs (a / 4))) (a % 4) = byteAt bs a := by
  rw [wordAt, ser32_be32]
  have hlt : a % 4 < 4 := Nat.mod_lt _ (by decide)
  conv_rhs => rw [← Nat.div_add_mod a 4]
  interval_cases a % 4 <;> rfl

/-! ## A run of HOST alone that loads words into `MSG` -/

/-- `MSG` after the words `f 0` to `f (n - 1)` are written from offset 0 upward, lowest first (R100). -/
def loadWords (f : Nat → Word) (m : Memory) : Nat → Memory
  | 0 => m
  | n + 1 => (loadWords f m n).write (4 * n) (ser32 (f n))

/-- The loaded words hold their bytes, and every other byte is kept (R66). -/
theorem get_loadWords (f : Nat → Word) (m : Memory) (n a : Nat) :
    (loadWords f m n).get a = if a < 4 * n then some (byteAt (ser32 (f (a / 4))) (a % 4)) else m.get a := by
  induction n with
  | zero => rfl
  | succ n ih =>
    rw [loadWords, Memory.get_write, length_ser32, ih]
    by_cases hlo : a < 4 * n
    · simp (disch := omega) only [if_neg, if_pos]
    · by_cases hhi : a < 4 * (n + 1)
      · rw [if_pos ⟨by omega, by omega⟩, if_pos hhi, byteAt_of_lt _ _ (by rw [length_ser32]; omega),
          show a / 4 = n by omega, show a % 4 = a - 4 * n by omega]
      · simp (disch := omega) only [if_neg]

/-- `s` after HOST alone has written the words `f 0` to `f (n - 1)` to `MSG`, the events `rest` still to come. -/
def State.msgLoaded (s : State) (f : Nat → Word) (n : Nat) (rest : List HostEvent) : State :=
  { s with
    msg := loadWords f s.msg n
    host := rest
    replies := List.replicate n { resp := .okay, datum := none } ++ s.replies
    schedule := List.replicate rest.length .host
    tick := s.tick + n }

section
variable (s : State) (f : Nat → Word) (n : Nat) (rest : List HostEvent)

@[simp] theorem msgLoaded_params : (s.msgLoaded f n rest).params = s.params := rfl
@[simp] theorem msgLoaded_status : (s.msgLoaded f n rest).status = s.status := rfl

theorem hostTurn_msgLoaded (e : HostEvent) : HostTurn (s.msgLoaded f n (e :: rest)) e rest :=
  hostTurn_of_schedule rfl rfl

end

section
variable {s : State} (hp : s.params.wf) (hb : s.status.busy = false)
include hp hb

/-- HOST's write of the next word to `MSG` (R66). -/
theorem step_msgLoaded (f : Nat → Word) {n : Nat} (hn : 4 * n < s.params.msgMax) (rest : List HostEvent) :
    step (s.msgLoaded f n (.wr (s.params.base + 0x01000000 + 4 * n) (f n) :: rest)) =
      .next (s.msgLoaded f (n + 1) rest) := by
  have turn := hostTurn_msgLoaded s f n rest (.wr (s.params.base + 0x01000000 + 4 * n) (f n))
  have ha : s.params.base + 0x01000000 + 4 * n = s.params.base + (windowBase .msg + 4 * n) := Nat.add_assoc ..
  rw [step_of_windowWrite (sp := .msg) (off := 4 * n) (by simpa using ha) (by simpa using hp) (by simpa using hb)
    (Nat.mul_mod_right 4 n) (.inr ⟨rfl, by simpa using hn⟩) turn]
  simp only [State.msgLoaded]
  rfl

/-- The writes of the words, HOST alone moving. -/
theorem steps_loadWords (f : Nat → Word) {n : Nat} (hfit : ∀ i < n, 4 * i < s.params.msgMax) (rest : List HostEvent)
    (hhost : s.host = (List.range n).map (fun i => .wr (s.params.base + 0x01000000 + 4 * i) (f i)) ++ rest)
    (hsched : s.schedule = List.replicate s.host.length .host) :
    steps n s = .next (s.msgLoaded f n rest) := by
  induction n generalizing rest with
  | zero =>
    have hrest : s.host = rest := hhost
    subst hrest
    rw [steps, State.msgLoaded, ← hsched]
    rfl
  | succ n ih =>
    rw [List.range_succ, List.map_append, List.append_assoc] at hhost
    have hrun := ih (fun i hi => hfit i (Nat.lt_succ_of_lt hi)) _ hhost
    have hnext := step_msgLoaded hp hb f (hfit n (Nat.lt_succ_self n)) rest
    exact (steps_add n 1 s _ hrun).trans (steps_succ hnext 0)

/-- HOST's write of the length to `MSGLEN` (R66). -/
theorem step_msgLoaded_msglen (f : Nat → Word) (n : Nat) (d : Word) (rest : List HostEvent) :
    step (s.msgLoaded f n (.wr (s.params.base + 0x00C) d :: rest)) =
      .next { s.msgLoaded f n rest with
        msglen := d
        replies := { resp := .okay, datum := none } :: (s.msgLoaded f n rest).replies
        tick := s.tick + (n + 1) } :=
  have ⟨_, hmsglen, _⟩ := registerWriteTakesTheDatum _ rest 0x00C d
    (hostTurn_msgLoaded s f n rest (.wr (s.params.base + 0x00C) d)) hp hb
  hmsglen rfl

end

/-- Settles O22: the writes of the words, then the write of the length. -/
theorem loadMessageScriptFillsTheBuffer : Obligations.LoadMessageScriptFillsTheBuffer := by
  intro s bs hp hb hlen hhost hsched
  have ⟨_, ⟨_, _, hmax⟩, _⟩ := hp
  obtain ⟨n, hn⟩ : ∃ n, (bs.length + 3) / 4 = n := ⟨_, rfl⟩
  rw [ScriptLine.expand, loadBytes, hn] at hhost
  have hfit : ∀ i < n, 4 * i < s.params.msgMax := fun i hi => by omega
  have hcount : s.host.length = n + 1 := by simp [hhost]
  have hload := steps_loadWords hp hb (wordAt bs) hfit _ hhost hsched
  have hlength := step_msgLoaded_msglen hp hb (wordAt bs) n (BitVec.ofNat 32 bs.length) []
  have hrun := (steps_add n 1 s _ hload).trans (steps_succ hlength 0)
  have hheld := get_loadWords (wordAt bs) s.msg n
  rw [hcount, hn]
  refine ⟨_, hrun, rfl, ?length, fun o ho => ?loaded, fun o ho => ?kept, rfl⟩
  case length => exact (BitVec.toNat_ofNat ..).trans (Nat.mod_eq_of_lt (by omega))
  case loaded => exact (hheld o).trans (by rw [if_pos (by omega), byteAt_ser32_wordAt, byteAt_of_lt _ _ ho])
  case kept => exact (hheld o).trans (if_neg (by omega))

end Sys2Proof.Machine

/-! # The compression function, its schedule, and the commands INIT and COMPRESS (spec/40_compress.md) -/

namespace Sys2Proof.Machine

/-! ## The message schedule

The model builds the schedule newest word first, so the words that `W[t]` is computed from are the tail of the list that
begins with `W[t]`: the recurrence is a fact about the suffixes of the list. -/

theorem length_extendSchedule (n : Nat) (ws : List Word) : (extendSchedule n ws).length = ws.length + n := by
  induction n generalizing ws with
  | zero => rfl
  | succ n ih => rw [extendSchedule, ih, List.length_cons, Nat.add_right_comm, Nat.add_assoc]

/-- New words stand in front of those there were. -/
theorem suffix_extendSchedule (n : Nat) (ws : List Word) : ws <:+ extendSchedule n ws := by
  induction n generalizing ws with
  | zero => exact List.suffix_rfl
  | succ n ih => exact (List.suffix_cons _ ws).trans (ih _)

/-- Each new word is computed from the words behind it (R112). -/
theorem eq_nextScheduleWord_of_suffix {n : Nat} {w : Word} {ws rest : List Word}
    (h : w :: rest <:+ extendSchedule n ws) (hlen : ws.length ≤ rest.length) : w = nextScheduleWord rest := by
  induction n generalizing ws with
  | zero =>
    have hle : rest.length + 1 ≤ ws.length := h.length_le
    omega
  | succ n ih =>
    by_cases hnew : ws.length < rest.length
    · exact ih h hnew
    · have hfront := suffix_extendSchedule n (nextScheduleWord ws :: ws)
      have hlen' : (w :: rest).length = (nextScheduleWord ws :: ws).length := by simp; omega
      have heq := (List.suffix_of_suffix_length_le h hfront hlen'.le).eq_of_length hlen'
      obtain ⟨rfl, rfl⟩ := List.cons.inj heq
      rfl

/-- `W[63..0]`, as the recurrence builds it. -/
def newestFirst (b : Block) : List Word := extendSchedule 48 (blockWords b).reverse

theorem length_blockWords (b : Block) : (blockWords b).length = 16 := by simp [blockWords]

theorem length_newestFirst (b : Block) : (newestFirst b).length = 64 := by
  rw [newestFirst, length_extendSchedule, List.length_reverse, length_blockWords]

/-- The register holds the words in the opposite order (R24). -/
theorem toList_schedule (b : Block) : (schedule b).toList = (newestFirst b).reverse := by
  have hlen : (newestFirst b).reverse.length = 64 := List.length_reverse.trans (length_newestFirst b)
  exact List.take_left' hlen

theorem getElem_schedule (b : Block) {t : Nat} (h : t < 64) :
    (schedule b)[t] = (newestFirst b)[63 - t]'(by rw [length_newestFirst]; omega) := by
  rw [← Vector.getElem_toList (by simpa using h)]
  simp only [toList_schedule, List.getElem_reverse, length_newestFirst]

/-- The first sixteen words are the block's (R111). -/
theorem getElem_schedule_of_lt (b : Block) {t : Nat} (h : t < 16) : (schedule b)[t] = wordAt b.toList t := by
  have hsuffix : (blockWords b).reverse = (newestFirst b).drop 48 := by
    have hdrop := List.suffix_iff_eq_drop.1 (suffix_extendSchedule 48 (blockWords b).reverse)
    rwa [← newestFirst, length_newestFirst, List.length_reverse, length_blockWords] at hdrop
  have hword : (blockWords b).reverse[15 - t]'(by simp [length_blockWords]; omega) = wordAt b.toList t := by
    simp [blockWords, show 15 - (15 - t) = t by omega]
  rw [getElem_schedule b (by omega), ← hword]
  simp only [hsuffix, List.getElem_drop]
  congr 1
  omega

/-- From `W[t-1]` down, place `k` holds `W[t-1-k]`. -/
theorem getD_drop_newestFirst (b : Block) {t k : Nat} (ht : t < 64) (hk : k < t) :
    ((newestFirst b).drop (64 - t)).getD k 0 = (schedule b)[t - 1 - k]'(by omega) := by
  have hlen := length_newestFirst b
  rw [getElem_schedule b (by omega), List.getD_eq_getElem _ _ (by simp; omega), List.getElem_drop]
  congr 1
  omega

/-- The later words are the recurrence's (R112). -/
theorem getElem_schedule_of_ge (b : Block) {t : Nat} (h16 : 16 ≤ t) (h : t < 64) :
    (schedule b)[t] = nextScheduleWord ((newestFirst b).drop (64 - t)) := by
  have hlen := length_newestFirst b
  rw [getElem_schedule b h]
  refine eq_nextScheduleWord_of_suffix (n := 48) (ws := (blockWords b).reverse) ?_ ?_
  · rw [show 64 - t = 63 - t + 1 by omega, List.getElem_cons_drop]
    exact List.drop_suffix _ _
  · simp [length_blockWords, hlen]
    omega

/-- Settles O23: the words of the block stay at the front of the schedule, and the others are the recurrence's. -/
theorem scheduleFollowsTheRecurrence : Obligations.ScheduleFollowsTheRecurrence := by
  intro b t
  refine ⟨fun h => ?_, fun h => ?_⟩
  · exact (getElem_schedule_of_lt b h).trans (wordAt_toList b t (by omega))
  · refine (getElem_schedule_of_ge b h t.isLt).trans ?_
    simp (disch := omega) only [nextScheduleWord, getD_drop_newestFirst, Nat.sub_sub]

/-! ## The engine -/

/-- Settles O24: groups of two rounds are single rounds. -/
theorem engineFormsAgree : Obligations.EngineFormsAgree := engine_eq_compress

/-! ## INIT and COMPRESS -/

/-- A legal command other than CLEAR is accepted when the lengths it uses fit (R220, case 7). -/
theorem exec_eq_accept {i : Instr} {s : State} (hi : i ≠ .clear) (hp : s.phase = .idle) (hb : s.status.busy = false)
    (he : s.status.err = false) (hk : usesKey i = true → s.keylen.toNat ≤ s.params.keyMax)
    (hm : usesMsg i = true → s.msglen.toNat ≤ s.params.msgMax) : exec i s = .next (accept i s) := by
  rw [exec_of_idle i s hp, if_neg hi]
  rcases issue_cases i s with ⟨hb', _⟩ | ⟨_, he', _⟩ | ⟨_, _, ⟨hu, hlt, _⟩ | ⟨hu, hlt, _⟩ | ⟨_, _, e⟩⟩
  · cases hb.symm.trans hb'
  · cases he.symm.trans he'
  · exact absurd (hk hu) (Nat.not_le.2 hlt)
  · exact absurd (hm hu) (Nat.not_le.2 hlt)
  · rw [e]

/-- INIT's CTRL step (R123). -/
theorem exec_init_of_exec {s : State} (hp : s.phase = .exec) (ho : s.status.lastop = Instr.init.opcode) :
    exec .init s = .next (initAction s) := by
  simp only [exec, execInit, hp, (runs_eq_true .init s).2 ho, if_true]

/-- COMPRESS's CTRL step (R124). -/
theorem exec_compress_of_exec {s : State} (hp : s.phase = .exec) (ho : s.status.lastop = Instr.compress.opcode) :
    exec .compress s = .next (compressAction s) := by
  simp only [exec, execCompress, hp, (runs_eq_true .compress s).2 ho, if_true]

/-- COMPRESS delivers the value of the rules in either build (R122, R124). -/
theorem compressAction_eq (s : State) :
    compressAction s =
      complete { s with hreg := compress s.hreg s.breg, hu1 := s.hu1.engineUsed s.tick .u1 s.breg } := by
  rw [compressAction, engine_eq_compress]

/-- Settles O25: INIT uses no length, and its one CTRL step loads the vector. -/
theorem initLoadsTheVector : Obligations.InitLoadsTheVector :=
  ⟨fun _ hp hb he => exec_eq_accept nofun hp hb he nofun nofun, fun _ hp ho => exec_init_of_exec hp ho⟩

/-- Settles O26: COMPRESS uses no length, and its one CTRL step applies the compression function of the rules. -/
theorem compressAppliesTheFunction : Obligations.CompressAppliesTheFunction :=
  ⟨fun _ hp hb he => exec_eq_accept nofun hp hb he nofun nofun,
    fun s hp ho => ⟨compressAction s, exec_compress_of_exec hp ho, compressAction_eq s⟩⟩

end Sys2Proof.Machine

/-! # The padding unit, the hash sequencer and the command HASH (spec/41_hash.md) -/

namespace Sys2Proof.Machine

/-! ## The padded stream -/

/-- Settles O27: the three parts are arithmetic on the quotient and the remainder by 64. -/
theorem blockCountFormula : Obligations.BlockCountFormula := by
  intro n
  refine ⟨rfl, ?_, nblocks_pos n⟩
  unfold nblocks
  split <;> omega

/-- The full blocks are the sequence up to its tail (R141). -/
theorem flatMap_fullBlocks (s : List Byte) (q : Nat) :
    (List.range q).flatMap (fun i => (s.drop (64 * i)).take 64) = s.take (64 * q) := by
  induction q with
  | zero => rfl
  | succ q ih => simp [List.range_succ, ih, Nat.mul_succ, List.take_add]

theorem padBytes_of_lt {s : List Byte} {i : Nat} (h : i < s.length / 64) :
    padBytes s i = (s.drop (64 * i)).take 64 := if_pos h

/-- The one final block of a short tail (R142). -/
theorem padBytes_single {s : List Byte} (h : s.length % 64 ≤ 55) :
    padBytes s (s.length / 64) =
      s.drop (64 * (s.length / 64)) ++ [0x80] ++ zeros (55 - s.length % 64) ++ lengthField s.length := by
  simp [padBytes, h]

/-- The first of the two final blocks of a long tail (R143). -/
theorem padBytes_tail {s : List Byte} (h : 55 < s.length % 64) :
    padBytes s (s.length / 64) = s.drop (64 * (s.length / 64)) ++ [0x80] ++ zeros (63 - s.length % 64) := by
  simp [padBytes, Nat.not_le.2 h]

/-- The second of the two final blocks of a long tail (R143). -/
theorem padBytes_length {s : List Byte} (h : 55 < s.length % 64) :
    padBytes s (s.length / 64 + 1) = zeros 56 ++ lengthField s.length := by
  simp [padBytes, Nat.not_le.2 h]

theorem zeros_add (m n : Nat) : zeros (m + n) = zeros m ++ zeros n := List.replicate_add m n 0x00

/-- The blocks up to the tail, and then the tail's own, are the sequence and what the padding adds (R141). -/
theorem flatMap_padBytes_tail {s t : List Byte}
    (h : padBytes s (s.length / 64) = s.drop (64 * (s.length / 64)) ++ t) :
    (List.range (s.length / 64 + 1)).flatMap (padBytes s) = s ++ t := by
  have hfull : (List.range (s.length / 64)).flatMap (padBytes s) = s.take (64 * (s.length / 64)) := by
    rw [← flatMap_fullBlocks]
    exact List.flatMap_congr fun i hi => padBytes_of_lt (List.mem_range.1 hi)
  rw [List.range_succ, List.flatMap_append, hfull, List.flatMap_singleton, h, ← List.append_assoc,
    List.take_append_drop]

/-- The padded stream of a sequence with a short tail (R142). -/
theorem flatMap_padBytes_of_le {s : List Byte} (h : s.length % 64 ≤ 55) :
    (List.range (nblocks s.length)).flatMap (padBytes s) =
      s ++ [0x80] ++ zeros (55 - s.length % 64) ++ lengthField s.length := by
  rw [nblocks, if_pos h, flatMap_padBytes_tail ((padBytes_single h).trans (by simp only [List.append_assoc]; rfl))]
  simp

/-- The padded stream of a sequence with a long tail (R143). -/
theorem flatMap_padBytes_of_gt {s : List Byte} (h : 55 < s.length % 64) :
    (List.range (nblocks s.length)).flatMap (padBytes s) =
      s ++ [0x80] ++ zeros (63 - s.length % 64 + 56) ++ lengthField s.length := by
  rw [nblocks, if_neg (Nat.not_le.2 h), List.range_succ, List.flatMap_append,
    flatMap_padBytes_tail ((padBytes_tail h).trans (List.append_assoc ..)), List.flatMap_singleton,
    padBytes_length h, zeros_add]
  simp

/-- Settles O28: each block is one of the four cases, and the padding is short or long as the tail is. -/
theorem paddedBlocksSpellTheStream : Obligations.PaddedBlocksSpellTheStream := by
  intro s
  refine ⟨fun i _ => toList_padBlock s i, ?_⟩
  simp only [toList_padBlock]
  by_cases h : s.length % 64 ≤ 55
  · exact ⟨_, by omega, by omega, flatMap_padBytes_of_le h⟩
  · exact ⟨_, by omega, by omega, flatMap_padBytes_of_gt (Nat.not_le.1 h)⟩

/-! ## The step of a hash unit -/

/-- The end of a block of a plain hash (R151). -/
theorem endBlock_of_hash {x : HashUnit} (h : x.phase = .hash) (n : Nat) :
    x.endBlock n = { x with
      tag := if x.bidx.toNat = nblocks n then digest x.h else x.tag
      phase := if x.bidx.toNat = nblocks n then .done else .hash } := by
  rcases endBlock_cases x n with ⟨hne, e⟩ | ⟨heq, ⟨_, e⟩ | ⟨hp, _⟩ | ⟨hp, _⟩⟩
  · rw [e, if_neg hne, if_neg hne, ← h]
  · rw [e, if_pos heq, if_pos heq]
  · simp [h] at hp
  · simp [h] at hp

theorem stream_of_hash {s : State} {u : UnitId} (h : (s.unit u).phase = .hash) : stream s u = body s u := by
  rw [stream, h]

theorem active_of_hash {x : HashUnit} (h : x.phase = .hash) : x.active = true := by
  rw [HashUnit.active, h]

/-- What the step of a unit in phase `HASH` makes of the unit (R151). -/
theorem unit_unitStep_of_hash {s : State} {u : UnitId} (h : (s.unit u).phase = .hash) :
    (unitStep u s).unit u = { compressBlock s u with
      tag := if (compressBlock s u).bidx.toNat = nblocks (s.unit u).blen.toNat
        then digest (compressBlock s u).h else (s.unit u).tag
      phase := if (compressBlock s u).bidx.toNat = nblocks (s.unit u).blen.toNat then .done else .hash } := by
  have hb : (compressBlock s u).phase = .hash := h
  rw [unitStep_of_active u s (active_of_hash h), unit_setUnit_self, length_stream, h, endBlock_of_hash hb,
    compressBlock_tag]

/-- The block of a unit in phase `HASH`, and what is left open of it: the engine's own registers (R151). -/
theorem compressBlock_of_hash {s : State} {u : UnitId} (h : (s.unit u).phase = .hash) :
    compressBlock s u = { s.unit u with
      v := (compressBlock s u).v
      w := (compressBlock s u).w
      blk := padBlock (body s u) (s.unit u).bidx.toNat
      h := compress (s.unit u).h (padBlock (body s u) (s.unit u).bidx.toNat)
      bidx := (s.unit u).bidx + 1 } := by
  rw [← stream_of_hash h, ← engine_eq_compress s.params.accel]
  rfl

/-- Settles O31: the unit's block, and the end of a block of a plain hash. -/
theorem unitHashStepIsOneBlock : Obligations.UnitHashStepIsOneBlock := by
  intro s u h
  refine ⟨unitStep_eq_setUnit u s, ?_⟩
  rw [unit_unitStep_of_hash h, compressBlock_of_hash h]
  rfl

/-! ## The drive of a unit's job -/

/-- The drive takes its last block last (R147). -/
theorem driveBlocks_succ_last (m : List Byte) (fuel i : Nat) (st : HashState) :
    driveBlocks m (fuel + 1) i st = compress (driveBlocks m fuel i st) (padBlock m (i + fuel)) := by
  induction fuel generalizing i st with
  | zero => rfl
  | succ fuel ih =>
    rw [driveBlocks_succ, ih, driveBlocks_succ, Nat.add_right_comm, Nat.add_assoc]

/-- The unit has hashed the first `k` blocks of the padded stream of `m`, and there are more (R28, R147). -/
structure HashUnit.AtBlock (x : HashUnit) (m : List Byte) (k : Nat) : Prop where
  lt : k < nblocks m.length
  bidx : x.bidx.toNat = k
  h : x.h = driveBlocks m k 0 iv

/-- A job begins at block 0 (R150). -/
theorem HashUnit.AtBlock.of_start {x : HashUnit} (m : List Byte) (hb : x.bidx = 0) (hh : x.h = iv) :
    x.AtBlock m 0 := ⟨nblocks_pos _, by rw [hb]; rfl, hh⟩

/-- One block more (R147, R151, R167): the index does not wrap. -/
theorem HashUnit.AtBlock.compressBlock {s : State} {u : UnitId} {k : Nat} (h : (s.unit u).AtBlock (stream s u) k) :
    (Machine.compressBlock s u).bidx.toNat = k + 1 ∧
      (Machine.compressBlock s u).h = driveBlocks (stream s u) (k + 1) 0 iv := by
  have hn : nblocks (stream s u).length < 2 ^ 28 := nblocks_lt _ (length_stream_eq s u ▸ streamLength_lt _)
  have hk := h.lt
  constructor
  · rw [compressBlock_bidx, BitVec.toNat_add, h.bidx]
    exact Nat.mod_eq_of_lt (by simp; omega)
  · rw [compressBlock_h, engine_eq_compress, h.bidx, h.h, driveBlocks_succ_last, Nat.zero_add]

/-- The step of a unit that hashes `m`: one block on, or the job's end (R147, R151). -/
theorem unitStep_of_hash {s : State} {u : UnitId} {k : Nat} (hp : (s.unit u).phase = .hash)
    (h : (s.unit u).AtBlock (body s u) k) :
    (((unitStep u s).unit u).phase = .hash ∧ ((unitStep u s).unit u).AtBlock (body s u) (k + 1)) ∨
    (k + 1 = nblocks (body s u).length ∧ ((unitStep u s).unit u).phase = .done ∧
      ((unitStep u s).unit u).tag = sha256 (body s u)) := by
  have hlen : (body s u).length = (s.unit u).blen.toNat := length_memRead ..
  have hlt := h.lt
  rw [← stream_of_hash hp] at h
  obtain ⟨hbidx, hh⟩ := h.compressBlock
  rw [unit_unitStep_of_hash hp, ← hlen, hbidx, hh, stream_of_hash hp]
  by_cases hlast : k + 1 = nblocks (body s u).length
  · exact .inr ⟨hlast, if_pos hlast, by rw [if_pos hlast, hlast, sha256]⟩
  · exact .inl ⟨if_neg hlast, by omega, hbidx, by rw [hh, stream_of_hash hp]⟩

/-! ## A hash job alone -/

@[simp] theorem memRead_setUnit (s : State) (u : UnitId) (x : HashUnit) (sp : Space) (off n : Nat) :
    memRead (s.setUnit u x) sp off n = memRead s sp off n := by cases u <;> rfl

/-- What is left to do of the plain hash of `m`, the first `len` bytes of `src`: all but `k` blocks. -/
structure HashUnit.HashJob (x : HashUnit) (src : Space) (len : Word) (m : List Byte) (k : Nat) : Prop where
  phase : x.phase = .hash
  src : x.src = src
  blen : x.blen = len
  block : x.AtBlock m k

theorem HashUnit.HashJob.body_eq {s : State} {u : UnitId} {src : Space} {len : Word} {m : List Byte} {k : Nat}
    (h : (s.unit u).HashJob src len m k) : body s u = memRead s src 0 len.toNat := by
  rw [body, h.src, h.blen]

/-- StartHash begins the job (R150). -/
theorem hashJob_startHash (s : State) (u : UnitId) (src : Space) (len : Word) (m : List Byte) :
    ((startHash u src len s).unit u).HashJob src len m 0 := by
  rw [startHash, startJob, unit_setUnit_self]
  exact ⟨rfl, rfl, rfl, .of_start _ rfl rfl⟩

/-- A unit's step goes on with a plain hash or ends it (R151). -/
theorem HashUnit.HashJob.unitStep {s : State} {u : UnitId} {src : Space} {len : Word} {m : List Byte} {k : Nat}
    (h : (s.unit u).HashJob src len m k) (hm : memRead s src 0 len.toNat = m) :
    ((Machine.unitStep u s).unit u).HashJob src len m (k + 1) ∨
    (k + 1 = nblocks m.length ∧ ((Machine.unitStep u s).unit u).phase = .done ∧
      ((Machine.unitStep u s).unit u).tag = sha256 m) := by
  have hc := unitStep_continues u s
  have hb := h.body_eq.trans hm
  have hstep := unitStep_of_hash h.phase (hb ▸ h.block)
  rw [hb] at hstep
  exact hstep.imp_left fun ⟨hp, hblock⟩ => ⟨hp, hc.src.trans h.src, hc.blen.trans h.blen, hblock⟩

/-- The steps of a unit keep what it reads. -/
theorem memRead_iterate_unitStep (s : State) (u : UnitId) (k : Nat) (sp : Space) (off n : Nat) :
    memRead ((unitStep u)^[k] s) sp off n = memRead s sp off n := by
  induction k with
  | zero => rfl
  | succ k ih => rw [Function.iterate_succ_apply', unitStep_eq_setUnit, memRead_setUnit, ih]

/-- After `k` steps of its own a unit has hashed `k` blocks (R147, R151). -/
theorem hashJob_iterate {s : State} {u : UnitId} {src : Space} {len : Word} {m : List Byte}
    (h : (s.unit u).HashJob src len m 0) (hm : memRead s src 0 len.toNat = m) {k : Nat} (hk : k < nblocks m.length) :
    (((unitStep u)^[k] s).unit u).HashJob src len m k := by
  induction k with
  | zero => exact h
  | succ k ih =>
    have hread := (memRead_iterate_unitStep s u k src 0 len.toNat).trans hm
    rw [Function.iterate_succ_apply']
    exact ((ih (by omega)).unitStep hread).resolve_right fun ⟨he, _⟩ => by omega

/-- Settles O32: all blocks but the last leave the job in phase `HASH`, and the last ends it. -/
theorem hashJobComputesTheHash : Obligations.HashJobComputesTheHash := by
  intro s u src blen run
  obtain ⟨m, hm⟩ : ∃ m, memRead s src 0 blen.toNat = m := ⟨_, rfl⟩
  have hread : memRead (startHash u src blen s) src 0 blen.toNat = m := (memRead_setUnit ..).trans hm
  have hlen : m.length = blen.toNat := hm ▸ length_memRead ..
  have hjob : ∀ k, k < nblocks blen.toNat → ((run k).unit u).HashJob src blen m k := fun k hk =>
    hashJob_iterate (hashJob_startHash s u src blen m) hread (hlen ▸ hk)
  refine ⟨fun k hk => (hjob k hk).phase, ?_⟩
  obtain ⟨n, hn⟩ := Nat.exists_eq_add_one.2 (nblocks_pos blen.toNat)
  have hlast := (hjob n (by omega)).unitStep ((memRead_iterate_unitStep ..).trans hread)
  have hrun : run (nblocks blen.toNat) = unitStep u (run n) := by
    rw [hn]; exact Function.iterate_succ_apply' ..
  rw [hrun, hm]
  rcases hlast with hjob' | ⟨_, hdone⟩
  · have hlt := hjob'.block.lt
    rw [hlen] at hlt
    omega
  · exact hdone

/-! ## The CTRL steps of HASH -/

theorem exec_hash_of_exec {s : State} (hp : s.phase = .exec) (ho : s.status.lastop = Instr.hash.opcode) :
    exec .hash s = .next (hashStart s) := by
  simp only [exec, execHash, hp, (runs_eq_true .hash s).2 ho, if_true]

theorem exec_hash_of_run {s : State} (hp : s.phase = .run) (ho : s.status.lastop = Instr.hash.opcode) :
    exec .hash s = .next (collect s) := by
  simp only [exec, execHash, hp, (runs_eq_true .hash s).2 ho, if_true]

/-- The collection, with its effect on the state written out (R149). -/
theorem collect_of_done {s : State} (h : s.hu1.phase = .done) :
    collect s = { s with
      out := s.hu1.tag
      hu1 := { s.hu1 with phase := .idle }
      status := s.status.completed
      phase := .idle } := if_pos h

/-- Settles O30: step 1 is the job start, step 2 the collection. -/
theorem hashStepsStartAndCollect : Obligations.HashStepsStartAndCollect :=
  fun _ ho => ⟨fun hp => exec_hash_of_exec hp ho, fun hp hd => by
    rw [exec_hash_of_run hp ho, collect_of_done hd]; rfl⟩

end Sys2Proof.Machine

/-! # Runs of a command: HOST, CTRL and the units side by side (spec/44_mac.md R211 to R213, spec/45_system.md R221) -/

namespace Sys2Proof.Machine

/-! ## The core apart from what HOST sees of its own doings -/

/-- The core of `s` with all else from `o`: the model's own fields, and `HAZ`, which HOST raises by writing. -/
def State.withOutside (s o : State) : State :=
  { s with
    status := { s.status with haz := o.status.haz }
    host := o.host
    replies := o.replies
    schedule := o.schedule
    tick := o.tick }

/-- `t` has the core of `s`: HOST may have moved and turns may have passed in between, nothing else. -/
def SameCore (s t : State) : Prop := ∃ o, t = s.withOutside o

namespace SameCore

variable {s t u : State}

theorem refl (s : State) : SameCore s s := ⟨s, rfl⟩

theorem trans (h : SameCore s t) (h' : SameCore t u) : SameCore s u := by
  obtain ⟨o, rfl⟩ := h
  obtain ⟨o', rfl⟩ := h'
  exact ⟨o', rfl⟩

theorem begun (s : State) : SameCore s s.begun := ⟨s.begun, rfl⟩

theorem answer (s : State) (resp : Resp) (datum : Option Word) : SameCore s (s.answer resp datum) :=
  ⟨s.answer resp datum, rfl⟩

theorem hazard (s : State) : SameCore s (hazard s) := ⟨Machine.hazard s, rfl⟩

/-- Whether CTRL or a unit has an enabled step is a matter of the core. -/
theorem enabled_eq (h : SameCore s t) {a : Agent} (ha : a ≠ .host) : enabled t a = enabled s a := by
  obtain ⟨o, rfl⟩ := h
  rcases a with _ | _ | u
  · exact absurd rfl ha
  · rfl
  · cases u <;> rfl

end SameCore

/-! ## What HOST did -/

namespace HostProgress

variable {s t u : State}

theorem trans (h : HostProgress s t) (h' : HostProgress t u) : HostProgress s u := by
  obtain ⟨l, hl, hr, hz⟩ := h
  obtain ⟨l', hl', hr', hz'⟩ := h'
  refine ⟨l ++ l', by rw [hl, hl', List.append_assoc], hr.trans hr', ?_⟩
  simp only [hz', hz, List.mem_append, or_and_right, exists_or, or_assoc]

/-- HOST did nothing. -/
theorem of_eq (hhost : t.host = s.host) (hreplies : t.replies = s.replies) (hhaz : t.status.haz = s.status.haz) :
    HostProgress s t :=
  ⟨[], hhost.symm, hreplies ▸ List.suffix_rfl, by simp [hhaz]⟩

/-- One event was used up. -/
theorem of_event {e : HostEvent} (hhost : s.host = e :: t.host) (hreplies : s.replies <:+ t.replies)
    (hhaz : t.status.haz = true ↔ s.status.haz = true ∨ ∃ a d, .wr a d = e ∧ a % 4 = 0) : HostProgress s t :=
  ⟨[e], hhost, hreplies, by simpa only [List.mem_singleton] using hhaz⟩

end HostProgress

/-- No reset is among the events still to come. -/
def NoReset (s : State) : Prop := ∀ e ∈ s.host, e ≠ .rst

theorem NoReset.step {s t : State} (h : NoReset s) (hst : step s = .next t) : NoReset t :=
  fun e he => h e ((step_params_host hst).2.subset he)

/-! ## One step of a run -/

section
variable {s t : State} (hb : s.status.busy = true)
include hb

/-- A write during a run leaves the core as it is, and raises `HAZ` if it is aligned (R65, R69). -/
theorem hostWrite_of_busy {a : Nat} {d : Word} (h : hostWrite a d s = .next t) :
    a % 4 ≠ 0 ∧ t = s.answer .error none ∨ a % 4 = 0 ∧ t = hazard (s.answer .okay none) := by
  unfold hostWrite at h
  rcases route_cases s.params a with ⟨_, e⟩ | ⟨_, h4, e⟩ | ⟨_, h4, e⟩ <;> simp only [e, hb, if_true] at h <;> cases h
  · exact .inl ⟨h4, rfl⟩
  · exact .inr ⟨h4, rfl⟩

/-- WAIT goes on during a run (R100). -/
theorem pollStatus_of_busy :
    pollStatus s = { s.answer .okay (some s.status.word) with host := .wait :: s.host } := by
  simp only [pollStatus, hb, if_true]

end

/-- An event during a run, but for a reset, leaves the core as it is (R68, R69). -/
theorem sameCore_of_event {s t : State} {e : HostEvent} (hb : s.status.busy = true) (he : e ≠ .rst)
    (h : event e s = .next t) : SameCore s t := by
  cases e with
  | wr a d =>
    rcases hostWrite_of_busy hb h with ⟨_, rfl⟩ | ⟨_, rfl⟩
    · exact .answer ..
    · exact (SameCore.answer ..).trans (.hazard _)
  | rd a =>
    rcases hostRead_cases a s with ⟨_, e⟩ | ⟨_, e⟩ | ⟨_, _, e⟩ <;> rw [event, e] at h <;> cases h <;> exact .answer ..
  | wait =>
    cases h
    exact ⟨pollStatus s, by rw [pollStatus_of_busy hb]; rfl⟩
  | rst => exact absurd rfl he

/-- What HOST did when its event took effect during a run (R69, R236). -/
theorem hostProgress_of_event {s t : State} {e : HostEvent} {rest : List HostEvent} (hb : s.status.busy = true)
    (he : e ≠ .rst) (hhost : s.host = e :: rest) (h : event e (s.taken rest) = .next t) : HostProgress s t := by
  cases e with
  | wr a d =>
    rcases hostWrite_of_busy (s := s.taken rest) hb h with ⟨h4, rfl⟩ | ⟨h4, rfl⟩
    · exact .of_event hhost (List.suffix_cons ..) (by simp [h4])
    · exact .of_event hhost (List.suffix_cons ..) (by simp [h4])
  | rd a =>
    rcases hostRead_cases a (s.taken rest) with ⟨_, e⟩ | ⟨_, e⟩ | ⟨_, _, e⟩ <;> rw [event, e] at h <;> cases h <;>
      exact .of_event hhost (List.suffix_cons ..) (by simp)
  | wait =>
    cases h
    rw [pollStatus_of_busy (s := s.taken rest) hb]
    exact ⟨[], hhost, List.suffix_cons .., by simp⟩
  | rst => exact absurd rfl he

/-- CTRL's step changes nothing where CTRL has no enabled step (R221; log 12). -/
theorem CtrlAction.eq_of_not_enabled {s t : State} (h : CtrlAction s t) (hen : ctrlEnabled s = false) : t = s := by
  cases h with
  | wait => rfl
  | init hp | compress hp | hashStart hp | keyNormFirst hp | split hp | complete hp | hmacStart hp | fanOut hp =>
    simp [ctrlEnabled, hp] at hen
  | keyNormSecond hp =>
    exact keyNormSecond_of_not_done (by simpa [ctrlEnabled, hp] using hen)
  | join hp =>
    rcases join_cases s with ⟨hall, _⟩ | ⟨_, e⟩
    · simp [ctrlEnabled, hp, hall] at hen
    · exact e
  | collect hp => exact collect_of_not_done (by rcases hp with ⟨hp, _⟩ | ⟨hp, _⟩ <;> simpa [ctrlEnabled, hp] using hen)

/-- The move of an agent that has no enabled step, in a run, is no move. -/
theorem move_of_not_enabled {s t : State} {a : Agent} (hp : s.phase ≠ .idle) (ha : a ≠ .host)
    (hen : enabled s a = false) (h : move a s = .next t) : t = s := by
  rcases a with _ | _ | u
  · exact absurd rfl ha
  · simp only [move, ctrlMove, if_neg hp] at h
    split at h
    · exact (CtrlAction.of_exec hp h).eq_of_not_enabled hen
    · cases h; rfl
  · cases h
    exact unitStep_of_inactive u s hen

/-- A state in the middle of a run: a command is in progress, and no reset is to come. -/
structure MidRun (s : State) : Prop where
  phase : s.phase ≠ .idle
  busy : s.status.busy = true
  noReset : NoReset s

/-- HOST's move in a run leaves the core as it is. -/
theorem MidRun.sameCore_of_host {s t : State} (h : MidRun s) (hm : move .host s.begun = .next t) : SameCore s t := by
  cases hh : s.host with
  | nil =>
    simp only [move, hostMove, begun_host, hh] at hm
    cases hm
    exact .begun s
  | cons e rest =>
    simp only [move, hostMove, begun_host, hh] at hm
    have htaken : SameCore s (s.taken rest) := ⟨s.taken rest, rfl⟩
    exact htaken.trans (sameCore_of_event (s := s.taken rest) h.busy (h.noReset e (by simp [hh])) hm)

/-- A step of a run is the move of an enabled agent of the core, or leaves the core as it is. -/
theorem MidRun.step_cases {s t : State} (h : MidRun s) (hst : step s = .next t) :
    (∃ a, a ≠ .host ∧ enabled s a = true ∧ move a s.begun = .next t) ∨
    (SameCore s t ∧ ∀ a, a ≠ .host → enabled s a = true → nextAgent s ≠ some a) := by
  rcases Machine.step_cases s t hst with ⟨hn, rfl⟩ | ⟨a, ha, hm⟩
  · exact .inr ⟨.refl t, fun _ _ _ => by simp [hn]⟩
  · have hturn : ∀ b, nextAgent s = some b → b = a := fun b hb => Option.some.inj (hb.symm.trans ha)
    by_cases hhost : a = .host
    · subst hhost
      exact .inr ⟨h.sameCore_of_host hm, fun b hb _ hn => hb (hturn b hn)⟩
    · have hbegun := SameCore.begun s
      cases hen : enabled s a
      · obtain rfl := move_of_not_enabled (s := s.begun) h.phase hhost ((hbegun.enabled_eq hhost).trans hen) hm
        exact .inr ⟨hbegun, fun b _ hb hn => by simp [hturn b hn, hen] at hb⟩
      · exact .inl ⟨a, hhost, hen, hm⟩

/-- What HOST did in one step of a run. -/
theorem MidRun.hostProgress {s t : State} (h : MidRun s) (hst : step s = .next t) : HostProgress s t := by
  cases StepEffect.of_step hst with
  | waited => exact .of_eq rfl rfl rfl
  | passed => exact .of_eq rfl rfl rfl
  | host e rest turn _ =>
    rw [step_of_hostTurn s e rest turn] at hst
    exact hostProgress_of_event h.busy (h.noReset e (by simp [turn.2])) turn.2 hst
  | ctrl _ ha =>
    have hk := ha.keepsOutside
    refine .of_eq hk.host hk.replies ?_
    rcases ha.status_cases with e | ⟨e, _⟩ <;> simp [e]
  | unit u =>
    have hk := unitStep_keepsOutside u s.begun
    exact .of_eq hk.host hk.replies (by simp)

/-! ## A plan of a run -/

/-- The plan of a run: `P n s` says that `s` is a state of the run with `n` moves of the core still to come. Such a
move makes one less of them, whichever enabled agent takes it, and the outside of the core is left open. -/
structure RunPlan (P : Nat → State → Prop) : Prop where
  ended : ∀ s, P 0 s → s.phase = .idle
  inRun : ∀ n s, P (n + 1) s → s.phase ≠ .idle ∧ s.status.busy = true
  sameCore : ∀ n s t, P n s → SameCore s t → P n t
  enabled : ∀ n s, P (n + 1) s → ∃ a, a ≠ .host ∧ enabled s a = true
  move : ∀ n s t a, P (n + 1) s → a ≠ .host → Machine.enabled s a = true → Machine.move a s = .next t → P n t

namespace RunPlan

variable {P : Nat → State → Prop} (hP : RunPlan P)
include hP

theorem midRun {n : Nat} {s : State} (h : P (n + 1) s) (hr : NoReset s) : MidRun s :=
  ⟨(hP.inRun n s h).1, (hP.inRun n s h).2, hr⟩

/-- A step of a run brings it forward, or keeps what was enabled until it gets its turn. -/
theorem step {n : Nat} {s t : State} (h : P (n + 1) s) (hr : NoReset s) (hst : step s = .next t) :
    P n t ∨ (P (n + 1) t ∧ ∀ a, a ≠ .host → Machine.enabled s a = true →
      Machine.enabled t a = true ∧ nextAgent s ≠ some a) := by
  rcases (hP.midRun h hr).step_cases hst with ⟨a, ha, hen, hm⟩ | ⟨hc, hn⟩
  · have hbegun := SameCore.begun s
    exact .inl (hP.move n _ t a (hP.sameCore _ s _ h hbegun) ha ((hbegun.enabled_eq ha).trans hen) hm)
  · exact .inr ⟨hP.sameCore _ s t h hc, fun a ha hen => ⟨(hc.enabled_eq ha).trans hen, hn a ha hen⟩⟩

/-- The first state of a run with `PHASE = IDLE` is where the plan ends. -/
theorem of_firstIdle {n k : Nat} {s t : State} (h : P n s) (hr : NoReset s) (hf : FirstIdle k s t) :
    HostProgress s t ∧ P 0 t := by
  obtain ⟨hk, hidle, hfirst⟩ := hf
  induction k generalizing n s with
  | zero =>
    cases hk
    cases n with
    | zero => exact ⟨.of_eq rfl rfl rfl, h⟩
    | succ n => exact absurd hidle (hP.midRun h hr).phase
  | succ k ih =>
    have hp : s.phase ≠ .idle := hfirst 0 k.succ_pos s rfl
    cases n with
    | zero => exact absurd (hP.ended s h) hp
    | succ n =>
      cases hst : Machine.step s with
      | fault | refused => simp [steps, hst] at hk
      | next u =>
        have hsteps := steps_succ hst
        have hu : ∃ m, P m u := (hP.step h hr hst).elim (⟨_, ·⟩) fun hu => ⟨_, hu.1⟩
        obtain ⟨m, hu⟩ := hu
        obtain ⟨hprog, hend⟩ := ih hu (hr.step hst) (hsteps k ▸ hk) fun j hj v hv =>
          hfirst (j + 1) (Nat.succ_lt_succ hj) v ((hsteps j).trans hv)
        exact ⟨((hP.midRun h hr).hostProgress hst).trans hprog, hend⟩

/-- A safe run comes forward: an enabled agent of the core gets its turn (R272). -/
theorem comes_forward {n : Nat} {s : State} (h : P (n + 1) s) (hr : NoReset s) (hsafe : SafeRun s) :
    ∃ k t, steps k s = .next t ∧ P n t ∧ NoReset t := by
  obtain ⟨a, ha, hen⟩ := hP.enabled n s h
  by_contra hno
  have hstay : ∀ j u, steps j s = .next u → P (n + 1) u ∧ NoReset u ∧ Machine.enabled u a = true := by
    intro j
    induction j with
    | zero => rintro u ⟨⟩; exact ⟨h, hr, hen⟩
    | succ j ih =>
      intro u hu
      obtain ⟨v, hv⟩ := hsafe j
      obtain ⟨hPv, hrv, henv⟩ := ih v hv
      obtain ⟨w, hw, _⟩ := (hsafe.steps hv).step
      have hjw : steps (j + 1) s = .next w := (steps_add j 1 s v hv).trans (steps_succ hw 0)
      obtain rfl : w = u := by simpa [hjw] using hu
      rcases hP.step hPv hrv hw with hPw | ⟨hPw, hkeep⟩
      · exact absurd ⟨j + 1, w, hjw, hPw, hrv.step hw⟩ hno
      · exact ⟨hPw, hrv.step hw, (hkeep a ha henv).1⟩
  obtain ⟨j, u, hu, hturn⟩ := takesTurn_of_enabled hsafe rfl fun j u hu => (hstay j u hu).2.2
  obtain ⟨hPu, hru, henu⟩ := hstay j u hu
  obtain ⟨w, hw, _⟩ := (hsafe.steps hu).step
  rcases hP.step hPu hru hw with hPw | ⟨_, hkeep⟩
  · exact hno ⟨j + 1, w, (steps_add j 1 s u hu).trans (steps_succ hw 0), hPw, hru.step hw⟩
  · exact (hkeep a ha henu).2 hturn

/-- A safe run ends. -/
theorem reaches_idle {n : Nat} {s : State} (h : P n s) (hr : NoReset s) (hsafe : SafeRun s) :
    ∃ k t, steps k s = .next t ∧ t.phase = .idle := by
  induction n generalizing s with
  | zero => exact ⟨0, s, rfl, hP.ended s h⟩
  | succ n ih =>
    obtain ⟨j, u, hu, hPu, hru⟩ := hP.comes_forward h hr hsafe
    obtain ⟨k, t, ht, hidle⟩ := ih hPu hru (hsafe.steps hu)
    exact ⟨j + k, t, (steps_add j k s u hu).trans ht, hidle⟩

end RunPlan

/-- A run that reaches `IDLE` reaches it a first time. -/
theorem exists_firstIdle {s : State} (h : ∃ k t, steps k s = .next t ∧ t.phase = .idle) :
    ∃ k t, FirstIdle k s t := by
  classical
  obtain ⟨t, ht, hidle⟩ := Nat.find_spec h
  exact ⟨Nat.find h, t, ht, hidle, fun j hj u hu hp => Nat.find_min h hj ⟨u, hu, hp⟩⟩

/-- A run with a plan ends where the plan does, and does end when HOST keeps to the core's addresses (R213, R272). -/
theorem RunPlan.runsTo {P : Nat → State → Prop} (hP : RunPlan P) {n : Nat} {s : State} (h : P n s) (hr : NoReset s)
    {result : State → State} (hres : ∀ t, P 0 t → t = result t) : RunsTo s result := by
  refine ⟨fun k t hf => ?_, fun hin => ?_⟩
  · obtain ⟨hprog, hend⟩ := hP.of_firstIdle h hr hf
    exact ⟨hprog, hres t hend⟩
  · exact exists_firstIdle (hP.reaches_idle h hr (safeRun_of_inRange hin))

end Sys2Proof.Machine

/-! # The run of HASH (spec/41_hash.md R149) -/

namespace Sys2Proof.Machine

/-- A read of written bytes is a matter of the core. -/
theorem SameCore.memRead_eq {s t : State} (h : SameCore s t) {sp : Space} {n : Nat} (hw : Written s sp n) :
    memRead t sp 0 n = memRead s sp 0 n := by
  obtain ⟨o, rfl⟩ := h
  exact (memRead_congr_written s _ sp n hw fun a _ => by cases sp <;> rfl).symm

/-- A unit without a job in progress has no enabled step (R26). -/
theorem active_eq_false {x : HashUnit} (h : x.phase = .idle ∨ x.phase = .done) : x.active = false := by
  rcases h with h | h <;> rw [HashUnit.active, h]

theorem move_ctrl {s : State} {i : Instr} (hp : s.phase ≠ .idle) (ho : s.status.lastop = i.opcode) :
    move .ctrl s = exec i s := by
  simp only [move, ctrlMove, if_neg hp, ho, decodeOp_opcode]

/-- `s` with CTRL in phase `ph` and HU1 in state `x` (spec/45_system.md R221). -/
def State.withHu1 (s : State) (ph : Phase) (x : HashUnit) : State := { s with hu1 := x, phase := ph }

/-- HU1's step during a plain hash of written bytes, whatever CTRL's phase: one block on, or the job's end (R151). -/
theorem SameCore.unitStep_hashJob {s t : State} {ph : Phase} {x : HashUnit} {src : Space} {len : Word} {k : Nat}
    (h : SameCore (s.withHu1 ph x) t) (hw : Written s src len.toNat)
    (hx : x.HashJob src len (memRead s src 0 len.toNat) k) :
    ∃ y, SameCore (s.withHu1 ph y) (unitStep .u1 t) ∧
      (y.HashJob src len (memRead s src 0 len.toNat) (k + 1) ∨
        k + 1 = nblocks len.toNat ∧ y.phase = .done ∧ y.tag = sha256 (memRead s src 0 len.toNat)) := by
  have hw' : Written (s.withHu1 ph x) src len.toNat := fun o ho => by cases src <;> exact hw o ho
  have hread : memRead t src 0 len.toNat = memRead s src 0 len.toNat :=
    (h.memRead_eq hw').trans (by cases src <;> rfl)
  obtain ⟨o, rfl⟩ := h
  refine ⟨(unitStep .u1 ((s.withHu1 ph x).withOutside o)).unit .u1, ⟨o, unitStep_eq_setUnit ..⟩, ?_⟩
  have hstep := HashUnit.HashJob.unitStep (s := (s.withHu1 ph x).withOutside o) (u := .u1) hx hread
  rwa [length_memRead] at hstep

/-- The states of the run of HASH that was accepted in `s`, HU1 being in state `x`, with the number of moves of CTRL and
HU1 still to come (R149). -/
inductive HashRun (s : State) : Nat → State → Prop
  | accepted {t : State} (h : SameCore s t) : HashRun s (nblocks s.mlen.toNat + 2) t
  | hashing {t : State} (k : Nat) (x : HashUnit) (hx : x.HashJob .msg s.mlen (msgOperand s) k)
      (h : SameCore (s.withHu1 .run x) t) : HashRun s (nblocks s.mlen.toNat - k + 1) t
  | hashed {t : State} (x : HashUnit) (hp : x.phase = .done) (ht : x.tag = sha256 (msgOperand s))
      (h : SameCore (s.withHu1 .run x) t) : HashRun s 1 t
  | finished {t : State} (x : HashUnit)
      (h : SameCore { s with
        out := sha256 (msgOperand s), hu1 := x, status := s.status.completed, phase := .idle } t) : HashRun s 0 t

namespace HashRun

variable {s : State}

theorem sameCore {n : Nat} {t u : State} (h : HashRun s n t) (htu : SameCore t u) : HashRun s n u := by
  cases h with
  | accepted h => exact .accepted (h.trans htu)
  | hashing k x hx h => exact .hashing k x hx (h.trans htu)
  | hashed x hp ht h => exact .hashed x hp ht (h.trans htu)
  | finished x h => exact .finished x (h.trans htu)

/-- What the run leaves at its end (R149, R222). -/
theorem result {t : State} (h : HashRun s 0 t) :
    t = { s with
      out := sha256 (msgOperand s)
      status := { s.status with busy := false, done := true, haz := t.status.haz }
      phase := .idle
      hu1 := t.hu1, host := t.host, replies := t.replies, schedule := t.schedule, tick := t.tick } := by
  cases h with
  | finished x h =>
    obtain ⟨o, rfl⟩ := h
    rfl

section
variable (ha : Accepted .hash s)
include ha

/-- HASH is in progress until the end. -/
theorem inRun {n : Nat} {t : State} (h : HashRun s (n + 1) t) :
    t.phase ≠ .idle ∧ t.status.busy = true ∧ t.status.lastop = Instr.hash.opcode := by
  obtain ⟨hp, hb, ho, _⟩ := ha
  cases h with
  | accepted h => obtain ⟨o, rfl⟩ := h; exact ⟨by simp [State.withOutside, hp], hb, ho⟩
  | hashing _ _ _ h | hashed _ _ _ h => obtain ⟨o, rfl⟩ := h; exact ⟨nofun, hb, ho⟩

theorem enabled {n : Nat} {t : State} (h : HashRun s (n + 1) t) :
    ∃ a, a ≠ .host ∧ Machine.enabled t a = true := by
  obtain ⟨hp, _⟩ := ha
  have hctrl : Agent.ctrl ≠ .host := by decide
  have hunit : Agent.hu .u1 ≠ .host := by decide
  cases h with
  | accepted h => exact ⟨_, hctrl, by rw [h.enabled_eq hctrl, Machine.enabled, ctrlEnabled, hp]⟩
  | hashing k x hx h => exact ⟨_, hunit, (h.enabled_eq hunit).trans (active_of_hash hx.phase)⟩
  | hashed x hd _ h => exact ⟨_, hctrl, (h.enabled_eq hctrl).trans (decide_eq_true hd)⟩

end

/-- HU2 and HU3 take no part. -/
theorem eq_ctrl_or_hu1 (hidle : unitsIdle s) {n : Nat} {t : State} {a : Agent} (h : HashRun s n t) (hhost : a ≠ .host)
    (hen : Machine.enabled t a = true) : a = .ctrl ∨ a = .hu .u1 := by
  obtain ⟨_, h2, h3⟩ := hidle
  have hunits : t.hu2 = s.hu2 ∧ t.hu3 = s.hu3 := by
    cases h with
    | accepted h | hashing _ _ _ h | hashed _ _ _ h | finished _ h => obtain ⟨o, rfl⟩ := h; exact ⟨rfl, rfl⟩
  rcases a with _ | _ | u
  · exact absurd rfl hhost
  · exact .inl rfl
  · cases u with
    | u1 => exact .inr rfl
    | u2 => exact nomatch hen.symm.trans (active_eq_false (x := t.hu2) (.inl (hunits.1 ▸ h2)))
    | u3 => exact nomatch hen.symm.trans (active_eq_false (x := t.hu3) (.inl (hunits.2 ▸ h3)))

/-- CTRL's step brings the run forward where it is enabled: at its start and at its end (R149). -/
theorem move_ctrl (ha : Accepted .hash s) {n : Nat} {t u : State} (h : HashRun s (n + 1) t)
    (hen : ctrlEnabled t = true) (hm : exec .hash t = .next u) : HashRun s n u := by
  obtain ⟨hp, _, ho, _⟩ := ha
  cases h with
  | accepted h =>
    obtain ⟨o, rfl⟩ := h
    rw [exec_hash_of_exec (s := s.withOutside o) hp ho] at hm
    cases hm
    exact .hashing 0 _ (hashJob_startHash s .u1 .msg s.mlen _) ⟨o, rfl⟩
  | hashing k x hx h =>
    obtain ⟨o, rfl⟩ := h
    have hd : x.phase = .done := of_decide_eq_true hen
    exact nomatch hx.phase.symm.trans hd
  | hashed x hd ht h =>
    obtain ⟨o, rfl⟩ := h
    rw [exec_hash_of_run (s := (s.withHu1 .run x).withOutside o) rfl ho, collect_of_done hd] at hm
    cases hm
    exact .finished { x with phase := .idle } ⟨o, by rw [← ht]; rfl⟩

/-- HU1's step brings the run forward where it is enabled: it is one block (R151). -/
theorem move_hu1 (hidle : unitsIdle s) (hw : Written s .msg s.mlen.toNat) {n : Nat} {t : State}
    (h : HashRun s (n + 1) t) (hen : t.hu1.active = true) : HashRun s n (unitStep .u1 t) := by
  obtain ⟨h1, _⟩ := hidle
  generalize hN : n + 1 = N at h
  cases h with
  | accepted h => obtain ⟨o, rfl⟩ := h; exact nomatch hen.symm.trans (active_eq_false (.inl h1))
  | hashing k x hx h =>
    have hlt : k < nblocks s.mlen.toNat := length_memRead s .msg 0 s.mlen.toNat ▸ hx.block.lt
    obtain ⟨y, hcore, hx' | ⟨hlast, hd, ht⟩⟩ := h.unitStep_hashJob hw hx
    · obtain rfl : n = nblocks s.mlen.toNat - (k + 1) + 1 := by omega
      exact .hashing (k + 1) y hx' hcore
    · obtain rfl : n = 1 := by omega
      exact .hashed y hd ht hcore
  | hashed x hd _ h => obtain ⟨o, rfl⟩ := h; exact nomatch hen.symm.trans (active_eq_false (.inr hd))
  | finished => omega

/-- The plan of HASH: a CTRL step, a step of HU1 for each block, and a CTRL step (R149). -/
theorem plan (ha : Accepted .hash s) (hidle : unitsIdle s) (hw : Written s .msg s.mlen.toNat) :
    RunPlan (HashRun s) where
  ended t h := by rw [h.result]
  inRun _ _ h := ⟨(h.inRun ha).1, (h.inRun ha).2.1⟩
  sameCore _ _ _ h htu := h.sameCore htu
  enabled _ _ h := h.enabled ha
  move n t u a h hhost hen hm := by
    rcases h.eq_ctrl_or_hu1 hidle hhost hen with rfl | rfl
    · obtain ⟨hp, _, ho⟩ := h.inRun ha
      rw [Machine.move_ctrl hp ho] at hm
      exact h.move_ctrl ha hen hm
    · cases hm
      exact h.move_hu1 hidle hw hen

end HashRun

/-- Settles O33: the run follows the plan of HASH. -/
theorem hashRunDeliversTheDigest : Obligations.HashRunDeliversTheDigest := by
  intro s hinv ha hw
  have ⟨hp, _, _, hr⟩ := ha
  exact (HashRun.plan ha (phaseOk_exec hinv.phase hp) hw).runsTo (.accepted (.refl s)) hr fun _ h => h.result

end Sys2Proof.Machine

/-! # Key normalisation, the HMAC sequencer and the CTRL steps of KEYNORM and HMAC (spec/42_hmac.md) -/

namespace Sys2Proof.Machine

/-! ## The functions -/

/-- A PaddedKey is a key of 64 bytes, which normalisation keeps (R161). -/
theorem normalize_toList (pk : PaddedKey) : normalize pk.toList = pk := by
  have hlen : pk.toList.length ≤ 64 := by simp
  rw [normalize_of_le _ hlen, ← Vector.toList_inj, toList_padKey _ hlen]
  simp [zeros, rep]

/-- Settles O36: the normalised key is a PaddedKey. -/
theorem normaliseIsIdempotent : Obligations.NormaliseIsIdempotent := by
  intro m k
  have hnorm := normalize_toList (normalize k)
  exact ⟨hnorm, by rw [hmac, hnorm, hmac]⟩

@[simp] theorem length_outerStream (pk : PaddedKey) (d : Digest) : (opad pk ++ d.toList).length = 96 := by simp

/-- Settles O37: the outer stream is one full block and a tail of 32 bytes. -/
theorem outerHashIsTwoBlocks : Obligations.OuterHashIsTwoBlocks := by
  intro pk d
  have hlen := length_outerStream pk d
  refine ⟨hlen, rfl, ?_, ?_⟩
  · rw [toList_padBlock, padBytes_of_lt (by rw [hlen]; decide)]
    simp
  · have htail := padBytes_single (s := opad pk ++ d.toList) (by rw [hlen]; decide)
    rw [hlen] at htail
    rw [toList_padBlock, htail, List.drop_left' (length_opad pk)]
    rfl

/-! ## The step of a hash unit in an HMAC -/

theorem active_of_inner {x : HashUnit} (h : x.phase = .inner) : x.active = true := by
  rw [HashUnit.active, h]

theorem active_of_outer {x : HashUnit} (h : x.phase = .outer) : x.active = true := by
  rw [HashUnit.active, h]

theorem stream_of_inner {s : State} {u : UnitId} (h : (s.unit u).phase = .inner) :
    stream s u = ipad s.pk ++ body s u := by rw [stream, h]

theorem stream_of_outer {s : State} {u : UnitId} (h : (s.unit u).phase = .outer) :
    stream s u = opad s.pk ++ (s.unit u).idig.toList := by rw [stream, h]

/-- The end of a block of an inner hash (R167). -/
theorem endBlock_of_inner {x : HashUnit} (h : x.phase = .inner) (n : Nat) :
    x.endBlock n = if x.bidx.toNat = nblocks n
      then { x with idig := digest x.h, h := iv, bidx := 0, phase := .outer } else x := by
  simp only [HashUnit.endBlock, h]

/-- The end of a block of an outer hash (R167). -/
theorem endBlock_of_outer {x : HashUnit} (h : x.phase = .outer) (n : Nat) :
    x.endBlock n = if x.bidx.toNat = nblocks n then { x with tag := digest x.h, phase := .done } else x := by
  simp only [HashUnit.endBlock, h]

/-- The block of a unit, and what is left open of it: the engine's own registers (R151, R167). -/
theorem compressBlock_eq (s : State) (u : UnitId) :
    compressBlock s u = { s.unit u with
      v := (compressBlock s u).v
      w := (compressBlock s u).w
      blk := padBlock (stream s u) (s.unit u).bidx.toNat
      h := compress (s.unit u).h (padBlock (stream s u) (s.unit u).bidx.toNat)
      bidx := (s.unit u).bidx + 1 } := by
  rw [← engine_eq_compress s.params.accel]
  rfl

/-- What the step of a unit in phase `INNER` makes of the unit (R167). -/
theorem unit_unitStep_of_inner {s : State} {u : UnitId} (h : (s.unit u).phase = .inner) :
    (unitStep u s).unit u = if (compressBlock s u).bidx.toNat = nblocks (64 + (s.unit u).blen.toNat)
      then { compressBlock s u with idig := digest (compressBlock s u).h, h := iv, bidx := 0, phase := .outer }
      else compressBlock s u := by
  rw [unitStep_of_active u s (active_of_inner h), unit_setUnit_self, length_stream, h,
    endBlock_of_inner (x := compressBlock s u) h]

/-- What the step of a unit in phase `OUTER` makes of the unit (R167). -/
theorem unit_unitStep_of_outer {s : State} {u : UnitId} (h : (s.unit u).phase = .outer) :
    (unitStep u s).unit u = if (compressBlock s u).bidx.toNat = nblocks 96
      then { compressBlock s u with tag := digest (compressBlock s u).h, phase := .done }
      else compressBlock s u := by
  rw [unitStep_of_active u s (active_of_outer h), unit_setUnit_self, length_stream, h,
    endBlock_of_outer (x := compressBlock s u) h]

/-- Settles O38: the unit's block, and the end of a block of the inner and of the outer hash. -/
theorem unitHmacStepIsOneBlock : Obligations.UnitHmacStepIsOneBlock := by
  intro s u
  refine ⟨fun h => ⟨unitStep_eq_setUnit u s, ?_⟩, fun h => ⟨unitStep_eq_setUnit u s, ?_⟩⟩
  · rw [unit_unitStep_of_inner h, compressBlock_bidx, compressBlock_eq, stream_of_inner h]
    split <;> rfl
  · rw [unit_unitStep_of_outer h, compressBlock_bidx, compressBlock_eq, stream_of_outer h]
    split <;> rfl

/-! ## The blocks of an HMAC -/

/-- The step of a unit at a block of the inner hash: one block on, or on to the outer hash (R167). -/
theorem unitStep_of_inner {s : State} {u : UnitId} {k : Nat} (hp : (s.unit u).phase = .inner)
    (h : (s.unit u).AtBlock (ipad s.pk ++ body s u) k) :
    (((unitStep u s).unit u).phase = .inner ∧ ((unitStep u s).unit u).AtBlock (ipad s.pk ++ body s u) (k + 1)) ∨
    (k + 1 = nblocks (64 + (body s u).length) ∧ ((unitStep u s).unit u).phase = .outer ∧
      ((unitStep u s).unit u).idig = innerDigest (body s u) s.pk ∧
      ∀ m, ((unitStep u s).unit u).AtBlock m 0) := by
  have hlen : (body s u).length = (s.unit u).blen.toNat := length_memRead ..
  have hstream : (ipad s.pk ++ body s u).length = 64 + (body s u).length := by simp
  have hlt := h.lt
  rw [← stream_of_inner hp] at h hlt hstream
  obtain ⟨hbidx, hh⟩ := h.compressBlock
  rw [unit_unitStep_of_inner hp, ← hlen, hbidx, innerDigest, ← stream_of_inner hp]
  by_cases hlast : k + 1 = nblocks (64 + (body s u).length)
  · rw [if_pos hlast]
    exact .inr ⟨hlast, rfl, by rw [sha256, hstream, ← hlast, ← hh], fun m => .of_start m rfl rfl⟩
  · rw [if_neg hlast]
    exact .inl ⟨hp, by rw [hstream] at hlt ⊢; omega, hbidx, hh⟩

/-- The step of a unit at a block of the outer hash: one block on, or the job's end (R167). -/
theorem unitStep_of_outer {s : State} {u : UnitId} {k : Nat} (hp : (s.unit u).phase = .outer)
    (h : (s.unit u).AtBlock (opad s.pk ++ (s.unit u).idig.toList) k) :
    (((unitStep u s).unit u).phase = .outer ∧ ((unitStep u s).unit u).idig = (s.unit u).idig ∧
      ((unitStep u s).unit u).AtBlock (opad s.pk ++ (s.unit u).idig.toList) (k + 1)) ∨
    (k + 1 = nblocks 96 ∧ ((unitStep u s).unit u).phase = .done ∧
      ((unitStep u s).unit u).tag = sha256 (opad s.pk ++ (s.unit u).idig.toList)) := by
  have hlt := h.lt
  have hstream := length_outerStream s.pk (s.unit u).idig
  rw [← stream_of_outer hp] at h hlt hstream
  obtain ⟨hbidx, hh⟩ := h.compressBlock
  rw [unit_unitStep_of_outer hp, hbidx, ← stream_of_outer hp]
  by_cases hlast : k + 1 = nblocks 96
  · rw [if_pos hlast]
    exact .inr ⟨hlast, rfl, by rw [sha256, hstream, ← hlast, ← hh]⟩
  · rw [if_neg hlast]
    exact .inl ⟨hp, rfl, by rw [hstream] at hlt ⊢; omega, hbidx, hh⟩

/-! ## An HMAC job alone -/

/-- The steps of a unit change that unit alone. -/
theorem iterate_unitStep_eq_setUnit (s : State) (u : UnitId) (k : Nat) :
    (unitStep u)^[k] s = s.setUnit u (((unitStep u)^[k] s).unit u) := by
  induction k with
  | zero => exact (setUnit_unit s u).symm
  | succ k ih =>
    rw [Function.iterate_succ_apply', unitStep_eq_setUnit, unit_setUnit_self, ih, setUnit_setUnit]

/-- The unit has made `j` steps of the HMAC of `m`, the first `len` bytes of `src`, under `pk`, and there are more: it
is at block `j` of the inner hash, or past that at a block of the outer one (R167). -/
structure HashUnit.MacJob (x : HashUnit) (pk : PaddedKey) (src : Space) (len : Word) (m : List Byte) (j : Nat) :
    Prop where
  src : x.src = src
  blen : x.blen = len
  stage : x.phase = .inner ∧ x.AtBlock (ipad pk ++ m) j ∨
    x.phase = .outer ∧ x.idig = innerDigest m pk ∧ ∃ k, j = nblocks (64 + m.length) + k ∧
      x.AtBlock (opad pk ++ (innerDigest m pk).toList) k

namespace HashUnit.MacJob

variable {x : HashUnit} {pk : PaddedKey} {src : Space} {len : Word} {m : List Byte} {j : Nat}

theorem phase (h : x.MacJob pk src len m j) : x.phase = .inner ∨ x.phase = .outer :=
  h.stage.imp (·.1) (·.1)

theorem active (h : x.MacJob pk src len m j) : x.active = true :=
  h.phase.elim active_of_inner active_of_outer

/-- An HMAC has the blocks of its inner hash and two more (R166). -/
theorem lt (h : x.MacJob pk src len m j) : j < nblocks (64 + m.length) + 2 := by
  have houter : nblocks 96 = 2 := rfl
  rcases h.stage with ⟨_, hblock⟩ | ⟨_, _, k, rfl, hblock⟩
  · have hlt := hblock.lt
    rw [List.length_append, length_ipad] at hlt
    omega
  · have hlt := hblock.lt
    rw [length_outerStream] at hlt
    omega

/-- A unit's step goes on with an HMAC or ends it (R167). -/
theorem unitStep {s : State} {u : UnitId} (h : (s.unit u).MacJob s.pk src len m j)
    (hm : memRead s src 0 len.toNat = m) :
    ((Machine.unitStep u s).unit u).MacJob s.pk src len m (j + 1) ∨
    (j + 1 = nblocks (64 + m.length) + 2 ∧ ((Machine.unitStep u s).unit u).phase = .done ∧
      ((Machine.unitStep u s).unit u).tag = hmacPk m s.pk) := by
  have hc := unitStep_continues u s
  have hsrc := hc.src.trans h.src
  have hblen := hc.blen.trans h.blen
  have hbody : body s u = m := by rw [body, h.src, h.blen, hm]
  rcases h.stage with ⟨hp, hblock⟩ | ⟨hp, hidig, k, rfl, hblock⟩
  · have hstep := unitStep_of_inner hp (hbody ▸ hblock)
    rw [hbody] at hstep
    rcases hstep with hinner | ⟨hlast, hp', hidig, hstart⟩
    · exact .inl ⟨hsrc, hblen, .inl hinner⟩
    · exact .inl ⟨hsrc, hblen, .inr ⟨hp', hidig, 0, hlast, hstart _⟩⟩
  · have hstep := unitStep_of_outer hp (hidig ▸ hblock)
    rw [hidig] at hstep
    rcases hstep with ⟨hp', hidig', hblock'⟩ | ⟨hlast, hd, htag⟩
    · exact .inl ⟨hsrc, hblen, .inr ⟨hp', hidig', k + 1, Nat.add_assoc .., hblock'⟩⟩
    · exact .inr ⟨by rw [Nat.add_assoc, hlast]; rfl, hd, htag⟩

end HashUnit.MacJob

/-- StartHmac begins the job (R150). -/
theorem macJob_startHmac (s : State) (u : UnitId) (src : Space) (len : Word) (pk : PaddedKey) (m : List Byte) :
    ((startHmac u src len s).unit u).MacJob pk src len m 0 := by
  rw [startHmac, startJob, unit_setUnit_self]
  exact ⟨rfl, rfl, .inl ⟨rfl, .of_start _ rfl rfl⟩⟩

/-- After `k` steps of its own a unit has made `k` steps of its HMAC (R167). -/
theorem macJob_iterate {s : State} {u : UnitId} {src : Space} {len : Word} {m : List Byte}
    (h : (s.unit u).MacJob s.pk src len m 0) (hm : memRead s src 0 len.toNat = m) {k : Nat}
    (hk : k < nblocks (64 + m.length) + 2) : (((unitStep u)^[k] s).unit u).MacJob s.pk src len m k := by
  induction k with
  | zero => exact h
  | succ k ih =>
    have hread := (memRead_iterate_unitStep s u k src 0 len.toNat).trans hm
    have hpk : ((unitStep u)^[k] s).pk = s.pk := by rw [iterate_unitStep_eq_setUnit, setUnit_pk]
    have hjob := ih (by omega)
    rw [← hpk] at hjob ⊢
    rw [Function.iterate_succ_apply']
    exact (hjob.unitStep hread).resolve_right fun ⟨he, _⟩ => by omega

/-- Settles O39: all steps but the last leave the job in phase `INNER` or `OUTER`, and the last ends it. -/
theorem hmacJobComputesTheTag : Obligations.HmacJobComputesTheTag := by
  intro s u src blen run n
  obtain ⟨m, hm⟩ : ∃ m, memRead s src 0 blen.toNat = m := ⟨_, rfl⟩
  have hlen : m.length = blen.toNat := hm ▸ length_memRead ..
  have hread : memRead (startHmac u src blen s) src 0 blen.toNat = m := (memRead_setUnit ..).trans hm
  have hpk : (startHmac u src blen s).pk = s.pk := setUnit_pk ..
  have hjob : ∀ k, k < n → ((run k).unit u).MacJob s.pk src blen m k := fun k hk =>
    hpk ▸ macJob_iterate (macJob_startHmac s u src blen _ m) hread (hlen ▸ hk)
  refine ⟨fun k hk => (hjob k hk).phase, ?_⟩
  obtain ⟨i, hi⟩ : ∃ i, n = i + 1 := ⟨_, rfl⟩
  have hrunPk : (run i).pk = s.pk :=
    ((congrArg State.pk (iterate_unitStep_eq_setUnit ..)).trans (setUnit_pk ..)).trans hpk
  have hlast := (hrunPk ▸ hjob i (by omega)).unitStep ((memRead_iterate_unitStep ..).trans hread)
  have hrun : run n = unitStep u (run i) := by rw [hi]; exact Function.iterate_succ_apply' ..
  rw [hrun, hm, ← hrunPk]
  rcases hlast with hjob' | ⟨_, hdone⟩
  · have hlt := hjob'.lt
    rw [hlen] at hlt
    omega
  · exact hdone

/-! ## The CTRL steps of KEYNORM and HMAC -/

/-- A command that normalises a key (R162). -/
def NormalisesKey (i : Instr) : Prop := i = .keynorm ∨ i = .hmac ∨ i = .mac

section
variable {i : Instr} {s : State} (hi : NormalisesKey i) (ho : s.status.lastop = i.opcode)
include hi ho

theorem exec_keyed_of_exec (hp : s.phase = .exec) : exec i s = .next (keyNormFirst s) := by
  rcases hi with rfl | rfl | rfl <;>
    simp only [exec, execKeynorm, execHmac, execMac, hp, (runs_eq_true _ s).2 ho, if_true]

theorem exec_keyed_of_knhash (hp : s.phase = .knhash) : exec i s = .next (keyNormSecond s) := by
  rcases hi with rfl | rfl | rfl <;>
    simp only [exec, execKeynorm, execHmac, execMac, hp, (runs_eq_true _ s).2 ho, if_true]

end

theorem exec_keynorm_of_kndone {s : State} (hp : s.phase = .kndone) (ho : s.status.lastop = Instr.keynorm.opcode) :
    exec .keynorm s = .next (complete s) := by
  simp only [exec, execKeynorm, hp, (runs_eq_true .keynorm s).2 ho, if_true]

theorem exec_hmac_of_kndone {s : State} (hp : s.phase = .kndone) (ho : s.status.lastop = Instr.hmac.opcode) :
    exec .hmac s = .next (hmacStart s) := by
  simp only [exec, execHmac, hp, (runs_eq_true .hmac s).2 ho, if_true]

theorem exec_hmac_of_run {s : State} (hp : s.phase = .run) (ho : s.status.lastop = Instr.hmac.opcode) :
    exec .hmac s = .next (collect s) := by
  simp only [exec, execHmac, hp, (runs_eq_true .hmac s).2 ho, if_true]

theorem keyNormFirst_of_le {s : State} (h : s.klen.toNat ≤ 64) :
    keyNormFirst s = { s with pk := padKey (keyOperand s), phase := .kndone } := if_pos h

theorem keyNormFirst_of_gt {s : State} (h : 64 < s.klen.toNat) :
    keyNormFirst s = { startHash .u1 .key s.klen s with phase := .knhash } := if_neg (Nat.not_le.2 h)

theorem keyNormSecond_of_done {s : State} (h : s.hu1.phase = .done) :
    keyNormSecond s = { releaseUnit .u1 s with pk := padKeyDigest s.hu1.tag, phase := .kndone } := if_pos h

/-- Settles O34: the steps KN-1, for a short and a long key, and KN-2. -/
theorem keyNormalisationSteps : Obligations.KeyNormalisationSteps := by
  refine fun i s hi ho => ⟨fun hp hk => ?_, fun hp hk => ?_, fun hp hd => ?_⟩
  · rw [exec_keyed_of_exec hi ho hp, keyNormFirst_of_le hk, padKey, keyOperand, length_memRead]
  · rw [exec_keyed_of_exec hi ho hp, keyNormFirst_of_gt hk]
    rfl
  · rw [exec_keyed_of_knhash hi ho hp, keyNormSecond_of_done hd]
    rfl

/-- Settles O35: the completion of KEYNORM, and the job start and the collection of HMAC. -/
theorem keynormAndHmacSteps : Obligations.KeynormAndHmacSteps := by
  refine fun s => ⟨fun hp ho => ?_, fun hp ho => ?_, fun hp ho hd => ?_⟩
  · rw [exec_keynorm_of_kndone hp ho]
    rfl
  · rw [exec_hmac_of_kndone hp ho]
    rfl
  · rw [exec_hmac_of_run hp ho, collect_of_done hd]
    rfl

end Sys2Proof.Machine

/-! # Runs told move by move -/

namespace Sys2Proof.Machine

/-! ## The next move of a run -/

/-- From `s` the run takes `n` moves of the core and is then at rest in a state with `R`, whatever HOST does meanwhile
and whichever of the enabled agents takes each move (spec/44_mac.md R211). -/
inductive LeadsTo (R : State → Prop) : Nat → State → Prop
  | ended {s : State} (hp : s.phase = .idle) (hR : ∀ t, SameCore s t → R t) : LeadsTo R 0 s
  | move {n : Nat} {s : State} (hp : s.phase ≠ .idle) (hb : s.status.busy = true)
      (hen : ∃ a, a ≠ .host ∧ enabled s a = true)
      (hnext : ∀ t u a, SameCore s t → a ≠ .host → enabled s a = true → Machine.move a t = .next u → LeadsTo R n u) :
      LeadsTo R (n + 1) s

namespace SameCore

variable {s t : State} (h : SameCore s t)
include h

theorem phase : t.phase = s.phase := by obtain ⟨o, rfl⟩ := h; rfl
theorem busy : t.status.busy = s.status.busy := by obtain ⟨o, rfl⟩ := h; rfl
theorem lastop : t.status.lastop = s.status.lastop := by obtain ⟨o, rfl⟩ := h; rfl

end SameCore

namespace LeadsTo

variable {R : State → Prop} {n : Nat} {s : State}

theorem sameCore {t : State} (h : LeadsTo R n s) (hst : SameCore s t) : LeadsTo R n t := by
  cases h with
  | ended hp hR => exact .ended (hst.phase.trans hp) fun u hu => hR u (hst.trans hu)
  | move hp hb hen hnext =>
    refine .move (hst.phase ▸ hp) (hst.busy.trans hb) ?_ fun u v a hu ha hen hm =>
      hnext u v a (hst.trans hu) ha ((hst.enabled_eq ha).symm.trans hen) hm
    obtain ⟨a, ha, hen⟩ := hen
    exact ⟨a, ha, (hst.enabled_eq ha).trans hen⟩

/-- Such a run has a plan: the states that lead to `R`, with the number of their moves. -/
theorem plan (R : State → Prop) : RunPlan (LeadsTo R) where
  ended _ h := by cases h with | ended hp _ => exact hp
  inRun _ _ h := by cases h with | move hp hb _ _ => exact ⟨hp, hb⟩
  sameCore _ _ _ h hst := h.sameCore hst
  enabled _ _ h := by cases h with | move _ _ hen _ => exact hen
  move _ s u a h ha hen hm := by cases h with | move _ _ _ hnext => exact hnext s u a (.refl s) ha hen hm

theorem runsTo {result : State → State} (h : ∃ n, LeadsTo (fun t => t = result t) n s) (hr : NoReset s) :
    RunsTo s result := by
  obtain ⟨n, h⟩ := h
  exact (plan _).runsTo h hr fun t ht => by cases ht with | ended _ hR => exact hR t (.refl t)

/-- A move of CTRL alone: no unit has a job. -/
theorem of_ctrl {i : Instr} (hb : s.status.busy = true) (ho : s.status.lastop = i.opcode)
    (hen : ctrlEnabled s = true) (hunits : ∀ u, (s.unit u).active = false)
    (hnext : ∀ t, SameCore s t → ∃ u, exec i t = .next u ∧ LeadsTo R n u) : LeadsTo R (n + 1) s := by
  have hp : s.phase ≠ .idle := fun hp => by simp [ctrlEnabled, hp] at hen
  refine .move hp hb ⟨.ctrl, nofun, hen⟩ fun t v a hst ha hena hm => ?_
  rcases a with _ | _ | u
  · exact absurd rfl ha
  · obtain ⟨u, hu, hlead⟩ := hnext t hst
    rw [Machine.move_ctrl (hst.phase ▸ hp) (hst.lastop.trans ho), hu] at hm
    cases hm
    exact hlead
  · exact nomatch hena.symm.trans (hunits u)

/-- A move of HU1 alone: CTRL waits, and the other units have no job. -/
theorem of_hu1 (hp : s.phase ≠ .idle) (hb : s.status.busy = true) (hctrl : ctrlEnabled s = false)
    (h1 : s.hu1.active = true) (h2 : s.hu2.active = false) (h3 : s.hu3.active = false)
    (hnext : ∀ t, SameCore s t → LeadsTo R n (unitStep .u1 t)) : LeadsTo R (n + 1) s := by
  refine .move hp hb ⟨.hu .u1, nofun, h1⟩ fun t v a hst ha hena hm => ?_
  rcases a with _ | _ | u
  · exact absurd rfl ha
  · exact nomatch hena.symm.trans hctrl
  · cases u with
    | u1 => cases hm; exact hnext t hst
    | u2 => exact nomatch hena.symm.trans h2
    | u3 => exact nomatch hena.symm.trans h3

end LeadsTo

/-! ## A job of HU1 -/

/-- CTRL waits for HU1 in these phases (spec/45_system.md R221). -/
def Phase.AwaitsHu1 (ph : Phase) : Prop := ph = .knhash ∨ ph = .run ∨ ph = .final

theorem ctrlEnabled_of_awaitsHu1 {s : State} (h : s.phase.AwaitsHu1) :
    ctrlEnabled s = decide (s.hu1.phase = .done) := by
  rcases h with h | h | h <;> simp only [ctrlEnabled, h]

theorem Phase.AwaitsHu1.ne_idle {ph : Phase} (h : ph.AwaitsHu1) : ph ≠ .idle := by
  rcases h with rfl | rfl | rfl <;> decide

/-- HU1 and no other unit works for the command in progress in `s`, which is `i`. -/
structure Hu1Run (i : Instr) (s : State) : Prop where
  busy : s.status.busy = true
  lastop : s.status.lastop = i.opcode
  hu2 : s.hu2.phase = .idle
  hu3 : s.hu3.phase = .idle

theorem Hu1Run.inactive {i : Instr} {s : State} (h : Hu1Run i s) (h1 : s.hu1.phase = .idle ∨ s.hu1.phase = .done)
    (u : UnitId) : (s.unit u).active = false := by
  cases u with
  | u1 => exact active_eq_false h1
  | u2 => exact active_eq_false (.inl h.hu2)
  | u3 => exact active_eq_false (.inl h.hu3)

theorem Hu1Run.withHu1 {i : Instr} {s : State} (h : Hu1Run i s) (ph : Phase) (x : HashUnit) :
    Hu1Run i (s.withHu1 ph x) := ⟨h.busy, h.lastop, h.hu2, h.hu3⟩

/-- A step of CTRL while HU1 has no job in progress. -/
theorem Hu1Run.leadsTo_ctrl {i : Instr} {s : State} (hs : Hu1Run i s) (h1 : s.hu1.phase = .idle ∨ s.hu1.phase = .done)
    (hen : ctrlEnabled s = true) {R : State → Prop} {n : Nat}
    (hnext : ∀ o, ∃ u, exec i (s.withOutside o) = .next u ∧ LeadsTo R n u) : LeadsTo R (n + 1) s :=
  .of_ctrl hs.busy hs.lastop hen (hs.inactive h1) fun _ ⟨o, ht⟩ => ht ▸ hnext o

/-- A job of HU1 during a run that has the core of `s` for the rest: `J k x` says that HU1 in state `x` has made `k` of
its `N` steps. Its last step leaves the digest `d` in `TAG[1]` (spec/41_hash.md R151, spec/42_hmac.md R167). -/
structure Hu1Job (s : State) (ph : Phase) (J : Nat → HashUnit → Prop) (N : Nat) (d : Digest) : Prop where
  active : ∀ k x, J k x → x.active = true
  lt : ∀ k x, J k x → k < N
  step : ∀ k x t, J k x → SameCore (s.withHu1 ph x) t → ∃ y, SameCore (s.withHu1 ph y) (unitStep .u1 t) ∧
    (J (k + 1) y ∨ k + 1 = N ∧ y.phase = .done ∧ y.tag = d)

/-- The steps of HU1's job, and then CTRL goes on with the result. -/
theorem Hu1Job.leadsTo {s : State} {ph : Phase} {J : Nat → HashUnit → Prop} {N : Nat} {d : Digest}
    (hJ : Hu1Job s ph J N d) {i : Instr} (hs : Hu1Run i s) (hph : ph.AwaitsHu1) {R : State → Prop} {n : Nat}
    (hdone : ∀ y, y.phase = .done → y.tag = d → LeadsTo R n (s.withHu1 ph y)) {k : Nat} {x : HashUnit} (hx : J k x) :
    LeadsTo R (N - k + n) (s.withHu1 ph x) := by
  induction hm : N - k generalizing k x with
  | zero =>
    have hlt := hJ.lt k x hx
    omega
  | succ m ih =>
    have hact := hJ.active k x hx
    have hwait : ctrlEnabled (s.withHu1 ph x) = false := by
      rw [ctrlEnabled_of_awaitsHu1 (s := s.withHu1 ph x) hph]
      exact decide_eq_false fun hd => nomatch hact.symm.trans (active_eq_false (.inr hd))
    rw [Nat.add_right_comm]
    refine .of_hu1 hph.ne_idle hs.busy hwait hact (active_eq_false (.inl hs.hu2)) (active_eq_false (.inl hs.hu3))
      fun t hst => ?_
    obtain ⟨y, hcore, hy | ⟨hlast, hd, htag⟩⟩ := hJ.step k x t hx hst
    · exact (ih hy (by omega)).sameCore hcore
    · obtain rfl : m = 0 := by omega
      rw [Nat.zero_add]
      exact (hdone y hd htag).sameCore hcore

/-- A plain hash of written bytes (spec/41_hash.md R151). -/
theorem hu1Job_hash {s : State} (ph : Phase) {src : Space} {len : Word} (hw : Written s src len.toNat) :
    Hu1Job s ph (fun k x => x.HashJob src len (memRead s src 0 len.toNat) k) (nblocks len.toNat)
      (sha256 (memRead s src 0 len.toNat)) where
  active _ _ hx := active_of_hash hx.phase
  lt _ _ hx := length_memRead s src 0 len.toNat ▸ hx.block.lt
  step _ _ _ hx hst := hst.unitStep_hashJob hw hx

/-- What HU1 reads of written bytes during a run is what they were in `s`. -/
theorem SameCore.memRead_withHu1 {s t : State} {ph : Phase} {x : HashUnit} {src : Space} {n : Nat}
    (h : SameCore (s.withHu1 ph x) t) (hw : Written s src n) : memRead t src 0 n = memRead s src 0 n := by
  have hw' : Written (s.withHu1 ph x) src n := fun o ho => by cases src <;> exact hw o ho
  exact (h.memRead_eq hw').trans (by cases src <;> rfl)

/-- An HMAC over written bytes (spec/42_hmac.md R167). -/
theorem hu1Job_mac {s : State} (ph : Phase) {src : Space} {len : Word} (hw : Written s src len.toNat) :
    Hu1Job s ph (fun k x => x.MacJob s.pk src len (memRead s src 0 len.toNat) k) (nblocks (64 + len.toNat) + 2)
      (hmacPk (memRead s src 0 len.toNat) s.pk) where
  active _ _ hx := hx.active
  lt _ _ hx := by simpa using hx.lt
  step k x t hx hst := by
    have hread := hst.memRead_withHu1 hw
    obtain ⟨o, rfl⟩ := hst
    refine ⟨(unitStep .u1 ((s.withHu1 ph x).withOutside o)).unit .u1, ⟨o, unitStep_eq_setUnit ..⟩, ?_⟩
    have hstep := HashUnit.MacJob.unitStep (s := (s.withHu1 ph x).withOutside o) (u := .u1) hx hread
    rwa [length_memRead] at hstep

end Sys2Proof.Machine

/-! # The runs of KEYNORM and HMAC (spec/42_hmac.md R162, R168, R169) -/

namespace Sys2Proof.Machine

/-! ## Key normalisation -/

/-- `s` with `PK` the PaddedKey of its key (R161). -/
def State.normalised (s : State) : State := { s with pk := normalize (keyOperand s) }

theorem Hu1Run.normalised {i : Instr} {s : State} (h : Hu1Run i s) : Hu1Run i s.normalised :=
  ⟨h.busy, h.lastop, h.hu2, h.hu3⟩

theorem Accepted.hu1Run {i : Instr} {s : State} (ha : Accepted i s) (hidle : unitsIdle s) : Hu1Run i s := by
  obtain ⟨_, hb, ho, _⟩ := ha
  obtain ⟨_, h2, h3⟩ := hidle
  exact ⟨hb, ho, h2, h3⟩

section
variable {i : Instr} {s : State} {R : State → Prop} {n : Nat}

/-- Step KN-2: HU1 has hashed the key (R162). -/
theorem LeadsTo.of_keyHashed (hi : NormalisesKey i) (hs : Hu1Run i s) (hk : 64 < s.klen.toNat) {x : HashUnit}
    (hd : x.phase = .done) (htag : x.tag = sha256 (keyOperand s))
    (hnext : ∀ y, y.phase = .idle → LeadsTo R n (s.normalised.withHu1 .kndone y)) :
    LeadsTo R (n + 1) (s.withHu1 .knhash x) := by
  have hnorm : normalize (keyOperand s) = padKeyDigest x.tag := by
    rw [htag, normalize_of_gt _ (by rwa [keyOperand, length_memRead])]
  refine (hs.withHu1 .knhash x).leadsTo_ctrl (.inr hd) (decide_eq_true hd) fun o =>
    ⟨_, exec_keyed_of_knhash hi hs.lastop rfl, ?_⟩
  rw [keyNormSecond_of_done hd]
  exact (hnext { x with phase := .idle } rfl).sameCore ⟨o, by rw [State.normalised, hnorm]; rfl⟩

/-- Key normalisation, from the acceptance of a command that uses the key (R162). -/
theorem LeadsTo.of_accepted_keyed (hi : NormalisesKey i) (ha : Accepted i s) (hidle : unitsIdle s)
    (hw : Written s .key s.klen.toNat)
    (hnext : ∀ y, y.phase = .idle → LeadsTo R n (s.normalised.withHu1 .kndone y)) : ∃ m, LeadsTo R m s := by
  have hs := ha.hu1Run hidle
  obtain ⟨hp, _⟩ := ha
  obtain ⟨h1, _⟩ := hidle
  have hen : ctrlEnabled s = true := by rw [ctrlEnabled, hp]
  by_cases hk : s.klen.toNat ≤ 64
  · have hnorm : normalize (keyOperand s) = padKey (keyOperand s) :=
      normalize_of_le _ (by rwa [keyOperand, length_memRead])
    refine ⟨n + 1, hs.leadsTo_ctrl (.inl h1) hen fun o => ⟨_, exec_keyed_of_exec hi hs.lastop hp, ?_⟩⟩
    have hread : keyOperand (s.withOutside o) = keyOperand s := SameCore.memRead_eq ⟨o, rfl⟩ hw
    rw [keyNormFirst_of_le (s := s.withOutside o) hk, hread, ← hnorm]
    exact (hnext s.hu1 h1).sameCore ⟨o, rfl⟩
  · have hk := Nat.not_le.1 hk
    have hjob := (hu1Job_hash .knhash hw).leadsTo hs (.inl rfl)
      (fun x hd htag => .of_keyHashed hi hs hk hd htag hnext) (hashJob_startHash s .u1 .key s.klen _)
    refine ⟨nblocks s.klen.toNat + (n + 1) + 1, hs.leadsTo_ctrl (.inl h1) hen fun o =>
      ⟨_, exec_keyed_of_exec hi hs.lastop hp, ?_⟩⟩
    rw [keyNormFirst_of_gt (s := s.withOutside o) hk]
    exact hjob.sameCore ⟨o, rfl⟩

end

/-! ## KEYNORM and HMAC -/

/-- Settles O40: KEYNORM completes when the key is normalised. -/
theorem keynormRunDeliversThePaddedKey : Obligations.KeynormRunDeliversThePaddedKey := by
  intro s hinv ha hw
  have ⟨hp, _, _, hr⟩ := ha
  have hidle := phaseOk_exec hinv.phase hp
  have hs := (ha.hu1Run hidle).normalised
  refine LeadsTo.runsTo (LeadsTo.of_accepted_keyed (n := 1) (.inl rfl) ha hidle hw fun y hy => ?_) hr
  refine (hs.withHu1 .kndone y).leadsTo_ctrl (.inl hy) rfl fun o =>
    ⟨_, exec_keynorm_of_kndone rfl hs.lastop, .ended rfl ?_⟩
  rintro t ⟨o', rfl⟩
  simp only [State.withOutside, complete, State.withHu1, State.normalised]
  rfl

/-- CTRL's step at `KNDONE` starts the HMAC of the message on HU1, which runs to its end (R169). -/
theorem LeadsTo.of_kndone_hmac {s : State} (hs : Hu1Run .hmac s) (hw : Written s .msg s.mlen.toNat) {y : HashUnit}
    (hy : y.phase = .idle) {R : State → Prop} {n : Nat}
    (hdone : ∀ x, x.phase = .done → x.tag = hmacPk (msgOperand s) s.pk → LeadsTo R n (s.withHu1 .run x)) :
    LeadsTo R (nblocks (64 + s.mlen.toNat) + 2 + n + 1) (s.withHu1 .kndone y) := by
  have hjob := (hu1Job_mac .run hw).leadsTo hs (.inr (.inl rfl)) hdone
    (macJob_startHmac (s.withHu1 .kndone y) .u1 .msg s.mlen _ _)
  exact (hs.withHu1 .kndone y).leadsTo_ctrl (.inl hy) rfl fun o =>
    ⟨_, exec_hmac_of_kndone rfl hs.lastop, hjob.sameCore ⟨o, rfl⟩⟩

/-- Settles O41: after key normalisation, HU1 takes the HMAC of the message and CTRL collects it. -/
theorem hmacRunDeliversTheTag : Obligations.HmacRunDeliversTheTag := by
  intro s hinv ha hkey hmsg
  have ⟨hp, _, _, hr⟩ := ha
  have hidle := phaseOk_exec hinv.phase hp
  have hs := (ha.hu1Run hidle).normalised
  refine LeadsTo.runsTo (LeadsTo.of_accepted_keyed (.inr (.inl rfl)) ha hidle hkey fun y hy =>
    .of_kndone_hmac (n := 1) hs hmsg hy fun x hd htag => ?_) hr
  refine (hs.withHu1 .run x).leadsTo_ctrl (.inr hd) (decide_eq_true hd) fun o =>
    ⟨_, exec_hmac_of_run rfl hs.lastop, ?_⟩
  have htag : x.tag = hmac (msgOperand s) (keyOperand s) := htag
  rw [collect_of_done hd]
  refine .ended rfl ?_
  rintro t ⟨o', rfl⟩
  simp only [State.withOutside, State.withHu1, State.normalised, ← htag]
  rfl

end Sys2Proof.Machine

/-! # The lane splitter and the command SPLIT (spec/43_split.md) -/

namespace Sys2Proof.Machine

/-! ## The byte at an offset, zero past the end (R187) -/

theorem byteAt_append (s t : List Byte) (i : Nat) :
    byteAt (s ++ t) i = if i < s.length then byteAt s i else byteAt t (i - s.length) := by
  simp only [byteAt, List.getD_eq_getElem?_getD, List.getElem?_append]
  split <;> rfl

@[simp] theorem byteAt_drop (s : List Byte) (n i : Nat) : byteAt (s.drop n) i = byteAt s (n + i) := by
  simp [byteAt]

theorem byteAt_take_of_lt (s : List Byte) {n i : Nat} (h : i < n) : byteAt (s.take n) i = byteAt s i := by
  simp [byteAt, h]

@[simp] theorem byteAt_zeros (n i : Nat) : byteAt (zeros n) i = 0x00 := by
  by_cases h : i < n <;> simp [byteAt, zeros, rep, h]

@[simp] theorem byteAt_append_zeros (s : List Byte) (n i : Nat) : byteAt (s ++ zeros n) i = byteAt s i := by
  rw [byteAt_append]
  split
  · rfl
  · next h => rw [byteAt_zeros, byteAt_of_le s i (Nat.not_lt.1 h)]

theorem byteAt_xorBytes {s t : List Byte} (h : s.length = t.length) (i : Nat) :
    byteAt (xorBytes s t) i = byteAt s i ^^^ byteAt t i := by
  by_cases hi : i < s.length
  · simp [byteAt, xorBytes, hi, h ▸ hi]
  · have hi := Nat.not_lt.1 hi
    rw [byteAt_of_le _ i (by simpa using .inl hi), byteAt_of_le s i hi, byteAt_of_le t i (h ▸ hi)]
    rfl

/-- Two byte sequences of one length are equal when they agree at every offset. -/
theorem ext_byteAt {s t : List Byte} (hlen : s.length = t.length) (h : ∀ i < s.length, byteAt s i = byteAt t i) :
    s = t := by
  refine List.ext_getElem? fun i => ?_
  by_cases hi : i < s.length
  · rw [byteAt_of_lt s i hi, byteAt_of_lt t i (hlen ▸ hi), h i hi]
  · rw [List.getElem?_eq_none (by omega), List.getElem?_eq_none (by omega)]

theorem xorBytes_append {s s' t t' : List Byte} (h : s.length = t.length) :
    xorBytes (s ++ s') (t ++ t') = xorBytes s t ++ xorBytes s' t' := List.zipWith_append h

theorem xorBytes_zeros {s : List Byte} {n : Nat} (h : s.length = n) : xorBytes s (zeros n) = s := by
  have hlen : s.length = (zeros n).length := h.trans (length_zeros n).symm
  exact ext_byteAt (by simp [h]) fun i _ => by
    rw [byteAt_xorBytes hlen, byteAt_zeros]
    exact BitVec.xor_zero

/-! ## The chunks of the full macro-blocks and of the remainder -/

/-- In the full macro-blocks Lane3 is the XOR of the other two (R183). -/
theorem fullChunks_lane3 {q : Nat} {m : List Byte} (h : 128 * q ≤ m.length) :
    (fullChunks q m).lane3 = xorBytes (fullChunks q m).lane1 (fullChunks q m).lane2 := by
  induction q generalizing m with
  | zero => rfl
  | succ q ih =>
    have hx : (m.take 64).length = ((m.drop 64).take 64).length := by simp; omega
    simp only [fullChunks, ih (m := m.drop 128) (by rw [List.length_drop]; omega), xorBytes_append hx]

/-- The bytes that the full macro-blocks give to Lane1 and Lane2 (R183). -/
theorem byteAt_fullChunks {q : Nat} {m : List Byte} (h : 128 * q ≤ m.length) {o : Nat} (ho : o < 64 * q) :
    byteAt (fullChunks q m).lane1 o = byteAt m (128 * (o / 64) + o % 64) ∧
      byteAt (fullChunks q m).lane2 o = byteAt m (128 * (o / 64) + 64 + o % 64) := by
  induction q generalizing m o with
  | zero => omega
  | succ q ih =>
    have hx : (m.take 64).length = 64 := by simp; omega
    have hy : ((m.drop 64).take 64).length = 64 := by simp; omega
    simp only [fullChunks, byteAt_append, hx, hy]
    by_cases h64 : o < 64
    · rw [if_pos h64, if_pos h64, byteAt_take_of_lt _ h64, byteAt_take_of_lt _ h64, byteAt_drop]
      constructor <;> congr 1 <;> omega
    · obtain ⟨h1, h2⟩ := ih (m := m.drop 128) (o := o - 64) (by rw [List.length_drop]; omega) (by omega)
      rw [if_neg h64, if_neg h64, h1, h2, byteAt_drop, byteAt_drop]
      constructor <;> congr 1 <;> omega

/-- The chunks of a short remainder (R184). -/
theorem lastChunks_of_lt {r : List Byte} (h : r.length < 64) :
    lastChunks r = { lane1 := r ++ zeros (64 - r.length), lane2 := zeros 64, lane3 := r ++ zeros (64 - r.length) } :=
  if_pos h

/-- The chunks of a remainder of a chunk or more (R185). -/
theorem lastChunks_of_ge {r : List Byte} (h : 64 ≤ r.length) :
    lastChunks r =
      { lane1 := r.take 64, lane2 := r.drop 64 ++ zeros (128 - r.length)
        lane3 := xorBytes (r.take 64) (r.drop 64 ++ zeros (128 - r.length)) } :=
  if_neg (Nat.not_lt.2 h)

/-- In the remainder's chunk Lane3 is the XOR of the other two (R184, R185). -/
theorem lastChunks_lane3 (r : List Byte) :
    (lastChunks r).lane3 = xorBytes (lastChunks r).lane1 (lastChunks r).lane2 := by
  by_cases h : r.length < 64
  · rw [lastChunks_of_lt h]
    exact (xorBytes_zeros (by simp; omega)).symm
  · rw [lastChunks_of_ge (Nat.not_lt.1 h)]

/-- The two branches on the remainder are one rule (R187). -/
theorem byteAt_lastChunks (r : List Byte) {j : Nat} (hj : j < 64) :
    byteAt (lastChunks r).lane1 j = byteAt r j ∧ byteAt (lastChunks r).lane2 j = byteAt r (64 + j) := by
  by_cases h : r.length < 64
  · rw [lastChunks_of_lt h]
    exact ⟨byteAt_append_zeros .., by rw [byteAt_zeros, byteAt_of_le r _ (by omega)]⟩
  · rw [lastChunks_of_ge (Nat.not_lt.1 h)]
    exact ⟨byteAt_take_of_lt r hj, by rw [byteAt_append_zeros, byteAt_drop]⟩

/-! ## The split -/

/-- A non-empty message of full macro-blocks has no further chunk (R184). -/
theorem split_of_full {m : List Byte} (h : m.length % 128 = 0 ∧ m.length ≠ 0) :
    split m = fullChunks (m.length / 128) m := if_pos h

/-- The split of a message with a remainder, and of the empty one. -/
theorem split_of_rest {m : List Byte} (h : ¬ (m.length % 128 = 0 ∧ m.length ≠ 0)) :
    split m =
      let full := fullChunks (m.length / 128) m
      let last := lastChunks (m.drop (128 * (m.length / 128)))
      { lane1 := full.lane1 ++ last.lane1, lane2 := full.lane2 ++ last.lane2, lane3 := full.lane3 ++ last.lane3 } :=
  if_neg h

/-- The XOR invariant (R188). -/
theorem split_lane3 (m : List Byte) : (split m).lane3 = xorBytes (split m).lane1 (split m).lane2 := by
  have hq : 128 * (m.length / 128) ≤ m.length := Nat.mul_div_le ..
  by_cases h : m.length % 128 = 0 ∧ m.length ≠ 0
  · rw [split_of_full h, fullChunks_lane3 hq]
  · obtain ⟨f1, f2, -⟩ := length_fullChunks _ m hq
    rw [split_of_rest h]
    simp only [fullChunks_lane3 hq, lastChunks_lane3, xorBytes_append (f1.trans f2.symm)]

/-- The lane length in terms of the full macro-blocks and the remainder (R181). -/
theorem laneLength_eq (n : Nat) :
    laneLength n = if n % 128 = 0 ∧ 0 < n then 64 * (n / 128) else 64 * (n / 128 + 1) := by
  unfold laneLength
  split <;> split <;> omega

/-- The closed form of Lane1 and Lane2 (R187). -/
theorem byteAt_split {m : List Byte} {o : Nat} (ho : o < laneLength m.length) :
    byteAt (split m).lane1 o = byteAt m (128 * (o / 64) + o % 64) ∧
      byteAt (split m).lane2 o = byteAt m (128 * (o / 64) + 64 + o % 64) := by
  have hq : 128 * (m.length / 128) ≤ m.length := Nat.mul_div_le ..
  rw [laneLength_eq] at ho
  by_cases h : m.length % 128 = 0 ∧ m.length ≠ 0
  · rw [split_of_full h]
    rw [if_pos ⟨h.1, Nat.pos_of_ne_zero h.2⟩] at ho
    exact byteAt_fullChunks hq ho
  · rw [split_of_rest h]
    obtain ⟨f1, f2, -⟩ := length_fullChunks _ m hq
    simp only [byteAt_append, f1, f2]
    by_cases hfull : o < 64 * (m.length / 128)
    · rw [if_pos hfull, if_pos hfull]
      exact byteAt_fullChunks hq hfull
    · rw [if_neg (by omega)] at ho
      obtain ⟨h1, h2⟩ := byteAt_lastChunks (m.drop (128 * (m.length / 128)))
        (j := o - 64 * (m.length / 128)) (by omega)
      rw [if_neg hfull, if_neg hfull, h1, h2, byteAt_drop, byteAt_drop]
      constructor <;> congr 1 <;> omega

/-- Settles O42: the XOR holds in every chunk, and the two formulas of the length agree. -/
theorem lanesHaveOneLengthAndXor : Obligations.LanesHaveOneLengthAndXor := by
  intro m
  obtain ⟨h1, h2, h3⟩ := length_split m
  refine ⟨split_lane3 m, h1, h2, h3, rfl, laneLength_eq _, ?_⟩
  rw [laneLength_eq]
  split <;> omega

/-- Settles O43: the closed form of the first two lanes, and the XOR invariant. -/
theorem splitHasTheClosedForm : Obligations.SplitHasTheClosedForm := by
  intro m o ho
  obtain ⟨l1, l2, l3⟩ := length_split m
  obtain ⟨h1, h2⟩ := byteAt_split ho
  have h3 : byteAt (split m).lane3 o = byteAt (split m).lane1 o ^^^ byteAt (split m).lane2 o := by
    rw [split_lane3, byteAt_xorBytes (l1.trans l2.symm)]
  rw [byteAt_of_lt _ _ (l1 ▸ ho), byteAt_of_lt _ _ (l2 ▸ ho), byteAt_of_lt _ _ (l3 ▸ ho), h3, h1, h2]
  exact ⟨rfl, rfl, rfl⟩

/-! ## The boundary cases -/

/-- The empty message (R189). -/
theorem split_nil : split [] = { lane1 := zeros 64, lane2 := zeros 64, lane3 := zeros 64 } := rfl

/-- The lanes after the full macro-blocks are the remainder's chunks. -/
theorem drop_split {m : List Byte} {q r : Nat} (hm : m.length = 128 * q + r) (h0 : 0 < r) (hr : r < 128) :
    (split m).lane1.drop (64 * q) = (lastChunks (m.drop (128 * q))).lane1 ∧
      (split m).lane2.drop (64 * q) = (lastChunks (m.drop (128 * q))).lane2 ∧
      (split m).lane3.drop (64 * q) = (lastChunks (m.drop (128 * q))).lane3 := by
  have hq : m.length / 128 = q := by omega
  obtain ⟨f1, f2, f3⟩ := length_fullChunks q m (by omega)
  rw [split_of_rest (by omega), hq]
  exact ⟨List.drop_left' f1, List.drop_left' f2, List.drop_left' f3⟩

theorem drop_eq_singleton {s : List Byte} {n : Nat} (h : s.length = n + 1) : s.drop n = [byteAt s n] := by
  have hn : n < s.length := by omega
  rw [List.drop_eq_getElem_cons hn, List.drop_of_length_le h.le, byteAt, List.getD_eq_getElem _ _ hn]

/-- XOR with a chunk that is zero past its first byte changes the first byte alone (R186, a remainder of 65 bytes). -/
theorem xorBytes_singleton_zeros {s : List Byte} {b : Byte} {n : Nat} (hs : s.length = n + 1) :
    xorBytes s ([b] ++ zeros n) = [byteAt s 0 ^^^ b] ++ s.drop 1 := by
  obtain ⟨a, s, rfl⟩ := List.exists_cons_of_length_eq_add_one hs
  have hs : s.length = n := Nat.succ.inj hs
  exact congrArg ((a ^^^ b) :: ·) (xorBytes_zeros hs)

/-- Settles O44: past the full macro-blocks the lanes are the remainder's chunks, by the branch of its length. -/
theorem splitBoundaryCases : Obligations.SplitBoundaryCases := by
  refine ⟨split_nil, fun m q => ⟨fun hm => ?_, fun hm => ?_, fun hm => ?_⟩⟩
  all_goals
    obtain ⟨h1, h2, h3⟩ := drop_split hm (by decide) (by decide)
    rw [h1, h2, h3]
    have hr := List.length_drop (i := 128 * q) (l := m)
    rw [hm, Nat.add_sub_cancel_left] at hr
  · have htake : (m.drop (128 * q)).take 64 = m.drop (128 * q) := List.take_of_length_le hr.le
    have hdrop : (m.drop (128 * q)).drop 64 = [] := List.drop_of_length_le hr.le
    rw [lastChunks_of_ge hr.ge, htake, hdrop, hr]
    exact ⟨rfl, rfl, xorBytes_zeros hr⟩
  · rw [lastChunks_of_lt (by omega), hr]
    exact ⟨rfl, rfl, rfl⟩
  · rw [lastChunks_of_ge (by omega), drop_eq_singleton hr, hr, byteAt_drop]
    refine ⟨rfl, rfl, ?_⟩
    rw [xorBytes_singleton_zeros (by rw [List.length_take, hr]; rfl), byteAt_take_of_lt _ (by decide), byteAt_drop,
      List.drop_take, List.drop_drop]
    rfl

/-! ## Trailing zeros -/

/-- The lanes are fixed by the lane length and the message's zero-extension (R191). -/
theorem split_eq_of_extension {m n : List Byte} (hlen : laneLength m.length = laneLength n.length)
    (h : ∀ x < 2 * laneLength m.length, byteAt m x = byteAt n x) : split m = split n := by
  have hbytes : ∀ o < laneLength m.length,
      byteAt (split m).lane1 o = byteAt (split n).lane1 o ∧ byteAt (split m).lane2 o = byteAt (split n).lane2 o := by
    intro o ho
    have h64 : laneLength m.length % 64 = 0 := by rw [laneLength_eq]; split <;> omega
    obtain ⟨m1, m2⟩ := byteAt_split ho
    obtain ⟨n1, n2⟩ := byteAt_split (hlen ▸ ho)
    rw [m1, m2, n1, n2]
    exact ⟨h _ (by omega), h _ (by omega)⟩
  obtain ⟨lm1, lm2, -⟩ := length_split m
  obtain ⟨ln1, ln2, -⟩ := length_split n
  have h1 : (split m).lane1 = (split n).lane1 := ext_byteAt (by omega) fun o ho => (hbytes o (lm1 ▸ ho)).1
  have h2 : (split m).lane2 = (split n).lane2 := ext_byteAt (by omega) fun o ho => (hbytes o (lm2 ▸ ho)).2
  have h3 : (split m).lane3 = (split n).lane3 := by rw [split_lane3, split_lane3, h1, h2]
  calc split m = ⟨(split m).lane1, (split m).lane2, (split m).lane3⟩ := rfl
    _ = split n := by rw [h1, h2, h3]

/-- The message enters the tags through its lanes alone (R200). -/
theorem laneTags_congr {m n : List Byte} (h : split m = split n) (pk : PaddedKey) : laneTags m pk = laneTags n pk := by
  rw [laneTags, laneTags, h]

theorem computeMAC_congr {m n : List Byte} (h : split m = split n) (k : List Byte) :
    computeMAC m k = computeMAC n k := by
  rw [computeMAC, computeMAC, laneTags_congr h]

/-- Zeros appended within the last macro-block. -/
theorem split_append_zeros {m : List Byte} {z : Nat} (hm : m ≠ [])
    (hz : m.length + z ≤ 128 * ((m.length + 127) / 128)) : split (m ++ zeros z) = split m := by
  have hpos : 0 < m.length := List.length_pos_of_ne_nil hm
  refine split_eq_of_extension ?_ fun x _ => byteAt_append_zeros m z x
  rw [List.length_append, length_zeros, laneLength, laneLength, if_neg (by omega), if_neg (by omega)]
  omega

/-- Up to 128 zero bytes split as the empty message does. -/
theorem split_zeros {n : Nat} (h : n ≤ 128) : split (zeros n) = split [] := by
  refine split_eq_of_extension ?_ fun x _ => byteAt_zeros n x
  rw [length_zeros, laneLength]
  split
  · rfl
  · rw [show (n + 127) / 128 = 1 by omega]
    rfl

/-- Settles O45: the closed form reads the zero-extension alone, and the tags read the lanes alone. -/
theorem trailingZerosAreInvisible : Obligations.TrailingZerosAreInvisible := by
  refine ⟨fun m n k hlen hext => ?_, fun m k z hm hz => ?_, fun n hn => (split_zeros hn).trans split_nil⟩
  · have h := split_eq_of_extension hlen hext
    exact ⟨h, laneTags_congr h _, computeMAC_congr h k⟩
  · have h := split_append_zeros hm hz
    exact ⟨h, computeMAC_congr h k⟩

/-! ## The command SPLIT -/

/-- SPLIT's CTRL step (R190). -/
theorem exec_split_of_exec {s : State} (hp : s.phase = .exec) (ho : s.status.lastop = Instr.split.opcode) :
    exec .split s = .next (complete (doSplit s)) := by
  simp only [exec, execSplit, hp, (runs_eq_true .split s).2 ho, if_true]

namespace Memory

/-- A buffer written from its start on holds the bytes stored. -/
theorem get_write_zero_of_lt (m : Memory) {bs : List Byte} {o : Nat} (h : o < bs.length) :
    get (m.write 0 bs) o = some (byteAt bs o) := by
  rw [get_write, if_pos ⟨Nat.zero_le o, by omega⟩, Nat.sub_zero, byteAt_of_lt bs o h]

/-- Past the bytes stored from its start on, a buffer is kept. -/
theorem get_write_zero_of_le (m : Memory) {bs : List Byte} {o : Nat} (h : bs.length ≤ o) :
    get (m.write 0 bs) o = get m o := by
  rw [get_write, if_neg (by omega)]

end Memory

/-- The lanes of the message operand have the lane length of `MLEN`. -/
theorem length_split_msgOperand (s : State) :
    (split (msgOperand s)).lane1.length = laneLength s.mlen.toNat ∧
      (split (msgOperand s)).lane2.length = laneLength s.mlen.toNat ∧
      (split (msgOperand s)).lane3.length = laneLength s.mlen.toNat := by
  have h := length_split (msgOperand s)
  rwa [msgOperand, length_memRead] at h

/-- Settles O46: the one CTRL step is the split action and the completion. -/
theorem splitStepWritesTheLanes : Obligations.SplitStepWritesTheLanes := by
  intro s hp ho
  obtain ⟨l1, l2, l3⟩ := length_split_msgOperand s
  refine ⟨_, exec_split_of_exec hp ho, by rw [doSplit_eq]; rfl, fun o h => ?_, fun o h => ?_⟩ <;> rw [doSplit_eq]
  · exact ⟨Memory.get_write_zero_of_lt _ (l1 ▸ h), Memory.get_write_zero_of_lt _ (l2 ▸ h),
      Memory.get_write_zero_of_lt _ (l3 ▸ h)⟩
  · exact ⟨Memory.get_write_zero_of_le _ (l1 ▸ h), Memory.get_write_zero_of_le _ (l2 ▸ h),
      Memory.get_write_zero_of_le _ (l3 ▸ h)⟩

end Sys2Proof.Machine

/-! # The command MAC (spec/44_mac.md) -/

namespace Sys2Proof.Machine

/-! ## The CTRL steps of MAC -/

section
variable {s : State} (ho : s.status.lastop = Instr.mac.opcode)
include ho

theorem exec_mac_of_kndone (hp : s.phase = .kndone) : exec .mac s = .next (fanOut (doSplit s)) := by
  simp only [exec, execMac, hp, (runs_eq_true .mac s).2 ho, if_true]

theorem exec_mac_of_fanout (hp : s.phase = .fanout) : exec .mac s = .next (join s) := by
  simp only [exec, execMac, hp, (runs_eq_true .mac s).2 ho, if_true]

theorem exec_mac_of_final (hp : s.phase = .final) : exec .mac s = .next (collect s) := by
  simp only [exec, execMac, hp, (runs_eq_true .mac s).2 ho, if_true]

end

/-- The join, with its effect on the state written out (R209). -/
theorem join_of_allDone {s : State} (h : allDone s = true) :
    join s = { s with
      tagcat := catTags s.hu1.tag s.hu2.tag s.hu3.tag
      hu1 := { s.hu1 with src := .tagcat, blen := 96, bidx := 0, h := iv, phase := .inner }
      hu2 := { s.hu2 with phase := .idle }
      hu3 := { s.hu3 with phase := .idle }
      phase := .final } := by
  rcases join_cases s with ⟨_, e⟩ | ⟨h', _⟩
  · exact e
  · exact nomatch h.symm.trans h'

/-- Settles O47: the split and the fan-out, the join, and the collection. -/
theorem macSteps : Obligations.MacSteps := by
  intro s ho
  refine ⟨fun hp => ?_, fun hp h1 h2 h3 => ?_, fun hp hwait => ?_, fun hp hwait => ?_, fun hp hd => ?_⟩
  · rw [exec_mac_of_kndone ho hp, fanOut_eq, doSplit_eq]
    rfl
  · rw [exec_mac_of_fanout ho hp, join_of_allDone ((allDone_eq_true s).2 ⟨h1, h2, h3⟩)]
    rfl
  · rw [exec_mac_of_fanout ho hp, join_of_not_allDone (by simpa only [not_and_or] using hwait)]
  · rw [exec_mac_of_final ho hp, collect_of_not_done hwait]
  · rw [exec_mac_of_final ho hp, collect_of_done hd]
    rfl

/-! ## The blocks of a lane's HMAC -/

/-- The number of steps of the HMAC of a lane (R208). -/
theorem nblocks_lane {n : Nat} (h : n % 64 = 0) : nblocks (64 + n) + 2 = n / 64 + 4 := by
  unfold nblocks
  split <;> omega

/-- Settles O51: the count is that of every HMAC job, and the inner stream of a lane is `n + 1` full blocks with an
empty tail. -/
theorem laneHashShape : Obligations.LaneHashShape := by
  refine ⟨fun s u src blen hmod => ?_, fun m pk n hm => ?_⟩
  · obtain ⟨hrun, hdone, _⟩ := hmacJobComputesTheTag s u src blen
    rw [nblocks_lane hmod] at hrun hdone
    exact ⟨hrun, hdone⟩
  · have hlen : (ipad pk ++ m).length = 64 + m.length := by simp
    have hdiv : (64 + m.length) / 64 = n + 1 := by omega
    have hmod : (64 + m.length) % 64 = 0 := by omega
    refine ⟨nblocks_lane (by omega), ?_, ?_⟩
    · rw [toList_padBlock, padBytes_of_lt (by omega), Nat.mul_zero, List.drop_zero, List.take_left' (length_ipad pk)]
    · have hlast := padBytes_single (s := ipad pk ++ m) (by omega)
      rw [hlen, hdiv, hmod, List.drop_of_length_le (by omega)] at hlast
      rw [toList_padBlock, hlast]
      rfl

/-! ## The fan-out: three units side by side (spec/44_mac.md R203, R208, R211) -/

/-- `s` with the three units in the states `x`. -/
def State.withUnits (s : State) (x : UnitId → HashUnit) : State := { s with hu1 := x .u1, hu2 := x .u2, hu3 := x .u3 }

@[simp] theorem unit_withUnits (s : State) (x : UnitId → HashUnit) (u : UnitId) : (s.withUnits x).unit u = x u := by
  cases u <;> rfl

theorem setUnit_withUnits (s : State) (x : UnitId → HashUnit) (u : UnitId) (y : HashUnit) :
    (s.withUnits x).setUnit u y = s.withUnits (Function.update x u y) := by
  cases u <;> rfl

theorem held_withUnits (s : State) (x : UnitId → HashUnit) (sp : Space) (o : Nat) :
    (s.withUnits x).held sp o = s.held sp o := by
  cases sp <;> rfl

/-- The bytes of the lane that belongs to unit `u` (R206). -/
def laneBytes (s : State) (u : UnitId) : List Byte := memRead s (laneOf u) 0 s.lanelen.toNat

/-- The number of steps of the HMAC of a lane of `s` (R208). -/
def laneSteps (s : State) : Nat := nblocks (64 + s.lanelen.toNat) + 2

/-- The units work on the lanes of `s`, whose bytes are all written, and CTRL waits for them (R203, R209). -/
structure FannedOut (s : State) : Prop where
  phase : s.phase = .fanout
  busy : s.status.busy = true
  written : ∀ u, Written s (laneOf u) s.lanelen.toNat

/-- Unit `u` of the fan-out, in state `x`, has `k` steps of its HMAC still to make, or has ended it (R208). -/
inductive LaneWork (s : State) (u : UnitId) : Nat → HashUnit → Prop
  | working {j : Nat} {x : HashUnit} (h : x.MacJob s.pk (laneOf u) s.lanelen (laneBytes s u) j) :
      LaneWork s u (laneSteps s - j) x
  | ended {x : HashUnit} (hd : x.phase = .done) (ht : x.tag = hmacPk (laneBytes s u) s.pk) : LaneWork s u 0 x

namespace LaneWork

variable {s : State} {u : UnitId} {k : Nat} {x : HashUnit}

/-- A unit with a step to make is in the midst of its job. -/
theorem macJob (h : LaneWork s u (k + 1) x) :
    ∃ j, j + (k + 1) = laneSteps s ∧ x.MacJob s.pk (laneOf u) s.lanelen (laneBytes s u) j := by
  generalize hN : k + 1 = N at h
  cases h with
  | working h => exact ⟨_, by omega, h⟩
  | ended => omega

/-- A unit without a step to make has ended its job. -/
theorem done (h : LaneWork s u 0 x) : x.phase = .done ∧ x.tag = hmacPk (laneBytes s u) s.pk := by
  generalize hN : 0 = N at h
  cases h with
  | working h =>
    have hlt := h.lt
    rw [laneBytes, length_memRead, ← laneSteps] at hlt
    omega
  | ended hd ht => exact ⟨hd, ht⟩

/-- A unit has an enabled step as long as its job lasts (R26). -/
theorem active_eq (h : LaneWork s u k x) : x.active = decide (0 < k) := by
  cases k with
  | zero => exact active_eq_false (.inr h.done.1)
  | succ k =>
    obtain ⟨_, _, hjob⟩ := h.macJob
    exact hjob.active

end LaneWork

/-- CTRL waits for every unit of the fan-out (R209). -/
theorem ctrlEnabled_withUnits {s : State} (hp : s.phase = .fanout) {x : UnitId → HashUnit} {u : UnitId}
    (h : (x u).active = true) : ctrlEnabled (s.withUnits x) = false := by
  have hwait : ctrlEnabled (s.withUnits x) = allDone (s.withUnits x) := by simp only [ctrlEnabled, State.withUnits, hp]
  rw [hwait, Bool.eq_false_iff]
  intro hall
  obtain ⟨h1, h2, h3⟩ := (allDone_eq_true _).1 hall
  have hd : (x u).phase = .done := by cases u <;> assumption
  exact nomatch h.symm.trans (active_eq_false (.inr hd))

/-- The states of the fan-out agree in what a unit reads of its lane (R204). -/
theorem SameCore.laneBytes_eq {s t : State} {x : UnitId → HashUnit} (h : SameCore (s.withUnits x) t) {u : UnitId}
    (hw : Written s (laneOf u) s.lanelen.toNat) : memRead t (laneOf u) 0 s.lanelen.toNat = laneBytes s u := by
  have hw' : Written (s.withUnits x) (laneOf u) s.lanelen.toNat := fun o ho => by
    rw [held_withUnits]; exact hw o ho
  exact (h.memRead_eq hw').trans (memRead_congr _ _ _ _ _ rfl fun o _ _ => held_withUnits ..)

/-- A unit's step in the fan-out makes one step less of its own job and leaves the others' as they are (R79, R208). -/
theorem LaneWork.unitStep {s t : State} {x : UnitId → HashUnit} {u : UnitId} {k : Nat}
    (hx : LaneWork s u (k + 1) (x u)) (hw : Written s (laneOf u) s.lanelen.toNat)
    (hst : SameCore (s.withUnits x) t) :
    ∃ y, LaneWork s u k y ∧ SameCore (s.withUnits (Function.update x u y)) (Machine.unitStep u t) := by
  obtain ⟨j, hj, hjob⟩ := hx.macJob
  have hread := hst.laneBytes_eq hw
  obtain ⟨o, rfl⟩ := hst
  obtain ⟨y, hy⟩ : ∃ y, (Machine.unitStep u ((s.withUnits x).withOutside o)).unit u = y := ⟨_, rfl⟩
  have hcore : SameCore (s.withUnits (Function.update x u y)) (Machine.unitStep u ((s.withUnits x).withOutside o)) :=
    ⟨o, by rw [unitStep_eq_setUnit, hy, ← setUnit_withUnits]; cases u <;> rfl⟩
  have hstep := HashUnit.MacJob.unitStep (s := (s.withUnits x).withOutside o) (u := u)
    (by cases u <;> exact hjob) hread
  rw [hy] at hstep
  refine ⟨y, ?_, hcore⟩
  rcases hstep with hjob' | ⟨hlast, hd, ht⟩
  · obtain rfl : k = laneSteps s - (j + 1) := by omega
    exact .working hjob'
  · rw [laneBytes, length_memRead, ← laneSteps] at hlast
    obtain rfl : k = 0 := by omega
    exact .ended hd ht

/-- One term of a sum over the three units made one less. -/
theorem sum_update_pred {r : UnitId → Nat} {u : UnitId} {k m : Nat} (hr : r u = k + 1)
    (hm : r .u1 + r .u2 + r .u3 = m + 1) :
    Function.update r u k .u1 + Function.update r u k .u2 + Function.update r u k .u3 = m := by
  cases u <;> simp <;> omega

/-- The steps of the three units, in any order, and then CTRL goes on with their tags (R208, R211). -/
theorem FannedOut.leadsTo {s : State} (hs : FannedOut s) {R : State → Prop} {n : Nat}
    (hdone : ∀ x : UnitId → HashUnit, (∀ u, (x u).phase = .done ∧ (x u).tag = hmacPk (laneBytes s u) s.pk) →
      LeadsTo R n (s.withUnits x))
    {x : UnitId → HashUnit} {r : UnitId → Nat} (hx : ∀ u, LaneWork s u (r u) (x u)) :
    LeadsTo R (r .u1 + r .u2 + r .u3 + n) (s.withUnits x) := by
  induction hm : r .u1 + r .u2 + r .u3 generalizing x r with
  | zero =>
    have hzero : ∀ u, r u = 0 := fun u => by cases u <;> omega
    rw [Nat.zero_add]
    exact hdone x fun u => (hzero u ▸ hx u).done
  | succ m ih =>
    have hact : ∀ u, (x u).active = true ↔ 0 < r u := fun u => by rw [(hx u).active_eq, decide_eq_true_iff]
    obtain ⟨v, hv⟩ : ∃ v, 0 < r v := by
      by_contra! hno
      have h1 := hno .u1
      have h2 := hno .u2
      have h3 := hno .u3
      omega
    have hv := (hact v).2 hv
    rw [Nat.add_right_comm]
    refine .move (by simp [State.withUnits, hs.phase]) hs.busy
      ⟨.hu v, nofun, by rw [enabled, unit_withUnits, hv]⟩ fun t w a hst ha hen hstep => ?_
    rcases a with _ | _ | u
    · exact absurd rfl ha
    · exact nomatch hen.symm.trans (ctrlEnabled_withUnits hs.phase hv)
    · cases hstep
      rw [enabled, unit_withUnits, hact] at hen
      obtain ⟨k, hk⟩ := Nat.exists_eq_add_one.2 hen
      obtain ⟨y, hy, hcore⟩ := (hk ▸ hx u).unitStep (hs.written u) hst
      refine (ih (r := Function.update r u k) (fun w => ?_) (sum_update_pred hk hm)).sameCore hcore
      by_cases hw : w = u
      · subst hw
        simpa using hy
      · simpa [hw] using hx w

/-! ## The lanes -/

/-- The lane that belongs to a unit (R206). -/
def Lanes.lane (l : Lanes) : UnitId → List Byte
  | .u1 => l.lane1
  | .u2 => l.lane2
  | .u3 => l.lane3

theorem length_lane_split (m : List Byte) (u : UnitId) : ((split m).lane u).length = laneLength m.length := by
  obtain ⟨h1, h2, h3⟩ := length_split m
  cases u <;> assumption

/-- A read of a space that holds the bytes `bs` from its start on. -/
theorem memRead_of_held {s : State} {sp : Space} {bs : List Byte}
    (h : ∀ o, o < bs.length → s.held sp o = some (byteAt bs o)) : memRead s sp 0 bs.length = bs := by
  refine ext_byteAt (length_memRead ..) fun i hi => ?_
  rw [length_memRead] at hi
  simp [byteAt, memRead, readByte, hi, h]

/-- A read of the whole of `TAGCAT`. -/
theorem memRead_tagcat (s : State) : memRead s .tagcat 0 96 = s.tagcat.toList := by
  have h := memRead_of_held (s := s) (sp := .tagcat) (bs := s.tagcat.toList) fun _ _ => rfl
  rwa [Vector.length_toList] at h

/-! ## The run of MAC -/

/-- `s` with its message split over the lane buffers, and CTRL waiting for the units (R202, R203). -/
def State.fannedOut (s : State) : State :=
  { s with
    lane1 := s.lane1.write 0 (split (msgOperand s)).lane1
    lane2 := s.lane2.write 0 (split (msgOperand s)).lane2
    lane3 := s.lane3.write 0 (split (msgOperand s)).lane3
    lanelen := BitVec.ofNat 32 (laneLength s.mlen.toNat)
    phase := .fanout }

section
variable {s : State} (h32 : laneLength s.mlen.toNat < 2 ^ 32)
include h32

/-- `LANELEN` is the length of each lane (R181, R190). -/
theorem toNat_lanelen_fannedOut (u : UnitId) :
    s.fannedOut.lanelen.toNat = ((split (msgOperand s)).lane u).length := by
  rw [length_lane_split, msgOperand, length_memRead]
  exact (BitVec.toNat_ofNat ..).trans (Nat.mod_eq_of_lt h32)

theorem held_fannedOut (u : UnitId) {o : Nat} (ho : o < s.fannedOut.lanelen.toNat) :
    s.fannedOut.held (laneOf u) o = some (byteAt ((split (msgOperand s)).lane u) o) := by
  rw [toNat_lanelen_fannedOut h32 u] at ho
  cases u <;> exact Memory.get_write_zero_of_lt _ ho

/-- Each unit of the fan-out reads the lane of the message that belongs to it (R204, R206). -/
theorem laneBytes_fannedOut (u : UnitId) : laneBytes s.fannedOut u = (split (msgOperand s)).lane u := by
  have hlen := toNat_lanelen_fannedOut h32 u
  rw [laneBytes, hlen]
  exact memRead_of_held fun o ho => held_fannedOut h32 u (hlen ▸ ho)

theorem Hu1Run.fannedOut (hs : Hu1Run .mac s) : FannedOut s.fannedOut :=
  ⟨rfl, hs.busy, fun u _ ho => by rw [held_fannedOut h32 u ho]; nofun⟩

end

/-- CTRL's step at `KNDONE` splits the message, and the units take the HMACs of its lanes (R202, R203, R208). -/
theorem LeadsTo.of_kndone_mac {s : State} (hs : Hu1Run .mac s) (hw : Written s .msg s.mlen.toNat)
    (h32 : laneLength s.mlen.toNat < 2 ^ 32) {y : HashUnit} (hy : y.phase = .idle) {R : State → Prop} {n : Nat}
    (hdone : ∀ x : UnitId → HashUnit,
      (∀ u, (x u).phase = .done ∧ (x u).tag = hmacPk ((split (msgOperand s)).lane u) s.pk) →
      LeadsTo R n (s.fannedOut.withUnits x)) :
    LeadsTo R (laneSteps s.fannedOut + laneSteps s.fannedOut + laneSteps s.fannedOut + n + 1)
      (s.withHu1 .kndone y) := by
  have hrun := (hs.fannedOut h32).leadsTo (fun x hx => hdone x fun u => laneBytes_fannedOut h32 u ▸ hx u)
    (x := fun u => (startHmac u (laneOf u) s.fannedOut.lanelen (s.withHu1 .kndone y)).unit u)
    (r := fun _ => laneSteps s.fannedOut) fun u => .working (j := 0) (macJob_startHmac ..)
  refine (hs.withHu1 .kndone y).leadsTo_ctrl (.inl hy) rfl fun o =>
    ⟨_, exec_mac_of_kndone hs.lastop rfl, hrun.sameCore ⟨o, ?_⟩⟩
  have hread : msgOperand ((s.withHu1 .kndone y).withOutside o) = msgOperand s :=
    SameCore.memRead_withHu1 ⟨o, rfl⟩ hw
  rw [fanOut_eq, doSplit_eq, hread]
  rfl

/-- `s` after the join: the tags are in `TAGCAT`, and HU2 and HU3 are released (R209). -/
def State.joined (s : State) (x : UnitId → HashUnit) : State :=
  { s.fannedOut with
    tagcat := laneTags (msgOperand s) s.pk
    hu2 := { x .u2 with phase := .idle }
    hu3 := { x .u3 with phase := .idle } }

/-- The final HMAC over `TAGCAT` on HU1, and the completion (R209, R210). -/
theorem LeadsTo.of_final {s : State} (hs : Hu1Run .mac s) {R : State → Prop} {x : HashUnit}
    (hx : x.MacJob s.pk .tagcat 96 s.tagcat.toList 0)
    (hR : ∀ y t, SameCore { s with
      out := hmacPk s.tagcat.toList s.pk, hu1 := y, status := s.status.completed, phase := .idle } t → R t) :
    LeadsTo R (nblocks (64 + 96) + 2 + 1) (s.withHu1 .final x) := by
  have hw : Written s .tagcat (96 : Word).toNat := fun _ _ => nofun
  have hread : memRead s .tagcat 0 (96 : Word).toNat = s.tagcat.toList := memRead_tagcat s
  refine (hread ▸ hu1Job_mac .final hw).leadsTo hs (.inr (.inr rfl)) (fun z hd ht => ?_) hx
  refine (hs.withHu1 .final z).leadsTo_ctrl (.inr hd) (decide_eq_true hd) fun o =>
    ⟨_, exec_mac_of_final hs.lastop rfl, ?_⟩
  rw [collect_of_done hd]
  refine .ended rfl fun t ht' => hR { z with phase := .idle } t (.trans ⟨o, ?_⟩ ht')
  rw [← ht]
  rfl

/-- From the end of the three lanes' HMACs on: the join, the final HMAC and the completion (R209, R210). -/
theorem LeadsTo.of_tagged {s : State} (hs : Hu1Run .mac s) {x : UnitId → HashUnit}
    (hx : ∀ u, (x u).phase = .done ∧ (x u).tag = hmacPk ((split (msgOperand s)).lane u) s.pk) {R : State → Prop}
    (hR : ∀ y t, SameCore { s.joined x with
      out := hmacPk (laneTags (msgOperand s) s.pk).toList s.pk
      hu1 := y, status := s.status.completed, phase := .idle } t → R t) :
    LeadsTo R (nblocks (64 + 96) + 2 + 1 + 1) (s.fannedOut.withUnits x) := by
  have hs' : Hu1Run .mac (s.joined x) := ⟨hs.busy, hs.lastop, rfl, rfl⟩
  have hall : allDone (s.fannedOut.withUnits x) = true := by
    rw [allDone_eq_true, ← unit_u1, ← unit_u2, ← unit_u3]
    simp only [unit_withUnits, hx, and_self]
  have hunits : ∀ u, ((s.fannedOut.withUnits x).unit u).active = false := fun u => by
    rw [unit_withUnits]; exact active_eq_false (.inr (hx u).1)
  have htags : catTags (x .u1).tag (x .u2).tag (x .u3).tag = laneTags (msgOperand s) s.pk := by
    rw [(hx .u1).2, (hx .u2).2, (hx .u3).2]
    rfl
  have hfinal := of_final hs' (macJob_startHmac (s.fannedOut.withUnits x) .u1 .tagcat 96 _ _) hR
  refine .of_ctrl hs.busy hs.lastop hall hunits fun t ⟨o, ht⟩ => ?_
  subst ht
  refine ⟨_, exec_mac_of_fanout hs.lastop rfl, hfinal.sameCore ⟨o, ?_⟩⟩
  rw [join_of_allDone (s := (s.fannedOut.withUnits x).withOutside o) hall, State.joined, ← htags]
  rfl

/-- Settles O52: after key normalisation, the three units take the HMACs of the lanes, HU1 that of their tags, and CTRL
collects it. -/
theorem macRunDeliversTheFinalMac : Obligations.MacRunDeliversTheFinalMac := by
  intro s hinv ha hkey hmsg
  have ⟨hp, hb, ho, hr⟩ := ha
  have hidle := phaseOk_exec hinv.phase hp
  have hs := (ha.hu1Run hidle).normalised
  have h32 := (laneLength_fits s.params _ hinv.params (hinv.msgFits hb .mac ho rfl)).2.2
  refine LeadsTo.runsTo (LeadsTo.of_accepted_keyed (.inr (.inr rfl)) ha hidle hkey fun y hy =>
    .of_kndone_mac hs hmsg h32 hy fun x hx => .of_tagged hs hx ?_) hr
  rintro z t ⟨o, rfl⟩
  simp only [State.withOutside, State.joined, State.fannedOut, State.normalised]
  rfl

/-! ## Two runs of MAC -/

/-- The results of MAC in `t` are those of message `m` and key `k` (R200, R207). -/
structure MacResults (m k : List Byte) (t : State) : Prop where
  out : t.out = computeMAC m k
  tagcat : t.tagcat = laneTags m (normalize k)
  pk : t.pk = normalize k
  lanelen : t.lanelen = BitVec.ofNat 32 (laneLength m.length)
  lane : ∀ u o, o < laneLength m.length → t.held (laneOf u) o = some (byteAt ((split m).lane u) o)

/-- A run of MAC ends with the results of its own operands (R207). -/
theorem macResults_of_firstIdle {s t : State} {k : Nat} (hinv : Inv s) (ha : Accepted .mac s)
    (hkey : Written s .key s.klen.toNat) (hmsg : Written s .msg s.mlen.toNat) (hf : FirstIdle k s t) :
    MacResults (msgOperand s) (keyOperand s) t := by
  have hlen : (msgOperand s).length = s.mlen.toNat := length_memRead ..
  rw [((macRunDeliversTheFinalMac s hinv ha hkey hmsg).1 k t hf).2]
  refine ⟨rfl, rfl, rfl, by rw [hlen], fun u o ho => ?_⟩
  have hlane : o < ((split (msgOperand s)).lane u).length := (length_lane_split ..).symm ▸ ho
  cases u <;> exact Memory.get_write_zero_of_lt _ hlane

/-- Settles O53: the results are a matter of the operands. -/
theorem macDependsOnlyOnKeyAndMessage : Obligations.MacDependsOnlyOnKeyAndMessage := by
  intro s s' hinv hinv' ha ha' hkey hmsg hkey' hmsg' hk hm k t k' t' hf hf'
  have h := macResults_of_firstIdle hinv ha hkey hmsg hf
  have h' := macResults_of_firstIdle hinv' ha' hkey' hmsg' hf'
  rw [← hk, ← hm] at h'
  refine ⟨h.out.trans h'.out.symm, h.tagcat.trans h'.tagcat.symm, h.pk.trans h'.pk.symm,
    h.lanelen.trans h'.lanelen.symm, fun o ho => ?_⟩
  have ho : o < laneLength (msgOperand s).length := by
    rw [h.lanelen, BitVec.toNat_ofNat] at ho
    exact ho.trans_le (Nat.mod_le ..)
  have hlane : ∀ u, t.held (laneOf u) o = t'.held (laneOf u) o := fun u => (h.lane u o ho).trans (h'.lane u o ho).symm
  exact ⟨hlane .u1, hlane .u2, hlane .u3⟩

end Sys2Proof.Machine

/-! # Command acceptance, CLEAR, and what a running command writes (spec/45_system.md) -/

namespace Sys2Proof.Machine

/-! ## Acceptance: the first case of R220 that applies -/

/-- A word other than those of the eight commands is 0 or above 8 (R94). -/
theorem illegal_iff (w : Word) : (w = 0 ∨ 8 < w.toNat) ↔ ¬ ∃ i, w = encode i := by
  have hzero : w = 0 ↔ w.toNat = 0 := BitVec.toNat_inj.symm
  rw [exists_eq_encode_iff, hzero]
  omega

/-- The commands that R220 names in case 5 are those that use the key. -/
theorem encode_usesKey (i : Instr) : (encode i = 4 ∨ encode i = 5 ∨ encode i = 7) ↔ usesKey i = true := by
  cases i <;> decide

/-- The commands that R220 names in case 6 are those that use the message. -/
theorem encode_usesMsg (i : Instr) :
    (encode i = 3 ∨ encode i = 5 ∨ encode i = 6 ∨ encode i = 7) ↔ usesMsg i = true := by
  cases i <;> decide

theorem encode_eq_clear (i : Instr) : encode i = 0x00000008 ↔ i = .clear := by
  cases i <;> decide

/-- The low four bits of a command's word are its opcode (R90). -/
theorem extractLsb'_encode (i : Instr) : (encode i).extractLsb' 0 4 = i.opcode :=
  congrArg CmdWord.op (ofWord_toWord ⟨0, i.opcode⟩)

/-- At `IDLE` the word of a command is its issue. -/
theorem command_encode (i : Instr) {s : State} (hp : s.phase = .idle) :
    command (encode i) s = .next (if i = .clear then issueClear s else issue i s) := by
  rw [command, decodeOfEncodeIsTheCommand i]
  exact exec_of_idle i s hp

/-- Any other word is the issue of an illegal word (R94). -/
theorem command_of_illegal {w : Word} (h : ¬ ∃ i, w = encode i) (s : State) :
    command w s = .next (issueIllegal s) := by
  rcases command_cases w s with ⟨i, hd, _⟩ | ⟨_, _, e⟩
  · exact absurd ⟨i, eq_encode_of_decode w i hd⟩ h
  · exact e

/-- R220 with the shared operations by name: what the first case that applies to the word `w` makes of `s`. -/
def firstCase (w : Word) (s : State) : State :=
  if s.status.busy = true then hazard s
  else if w = 0x00000008 then clearStatus s
  else if s.status.err = true then s
  else if w = 0 ∨ 8 < w.toNat then raiseErr .illegalCmd s
  else if (w = 4 ∨ w = 5 ∨ w = 7) ∧ s.params.keyMax < s.keylen.toNat then raiseErr .keyLen s
  else if (w = 3 ∨ w = 5 ∨ w = 6 ∨ w = 7) ∧ s.params.msgMax < s.msglen.toNat then raiseErr .msgLen s
  else { s with klen := s.keylen, mlen := s.msglen, status := s.status.accepted (w.extractLsb' 0 4), phase := .exec }

theorem issueClear_eq_firstCase (s : State) : issueClear s = firstCase (encode .clear) s := by
  simp only [issueClear, firstCase, encode_eq_clear, if_true]

theorem issue_eq_firstCase {i : Instr} (hi : i ≠ .clear) (s : State) : issue i s = firstCase (encode i) s := by
  have hlegal : ¬ (encode i = 0 ∨ 8 < (encode i).toNat) := fun h => (illegal_iff _).1 h ⟨i, rfl⟩
  simp only [issue, firstCase, accept, encode_eq_clear, hi, hlegal, encode_usesKey, encode_usesMsg, extractLsb'_encode,
    Bool.and_eq_true, decide_eq_true_eq, if_false]

theorem issueIllegal_eq_firstCase {w : Word} (h : ¬ ∃ i, w = encode i) (s : State) :
    issueIllegal s = firstCase w s := by
  have hclear : w ≠ 0x00000008 := fun e => h ⟨.clear, e⟩
  simp only [issueIllegal, firstCase, hclear, (illegal_iff w).2 h, if_false, if_true]

/-- The issue of a word at `IDLE` is the first case that applies. -/
theorem command_eq_firstCase (w : Word) {s : State} (hp : s.phase = .idle) : command w s = .next (firstCase w s) := by
  by_cases hw : ∃ i, w = encode i
  · obtain ⟨i, rfl⟩ := hw
    rw [command_encode i hp]
    split
    next hi => rw [hi, issueClear_eq_firstCase]
    next hi => rw [issue_eq_firstCase hi]
  · rw [command_of_illegal hw, issueIllegal_eq_firstCase hw]

/-- Settles O8: a busy core takes case 1, whatever the word; else the write is the issue of its word at `IDLE`. -/
theorem commandWriteTakesFirstCase : Obligations.CommandWriteTakesFirstCase := by
  intro s rest w turn hwf hidle
  suffices hstep : step s = .next (firstCase w ((s.taken rest).answer .okay none)) from hstep
  cases hb : s.status.busy
  · have hcmd : locate s.params 0 = .cmd := (locate_eq_cmd _ _).2 rfl
    rw [step_of_write (o := 0) turn hwf hb (by decide) rfl, hcmd]
    exact command_eq_firstCase w (hidle hb)
  · have hroute : route s.params s.params.base = .offset 0 := route_offset s.params 0 hwf (by decide) rfl
    rw [step_of_hostTurn s _ rest turn]
    simp [event, hostWrite, hroute, firstCase, hb]

/-! ## CLEAR -/

/-- Settles O54: at `IDLE` the command is its issue, which clears the flags while `BUSY = 0`. -/
theorem clearClearsTheFlags : Obligations.ClearClearsTheFlags := by
  intro s hp hb
  rw [exec_of_idle .clear s hp, if_pos rfl]
  rcases issueClear_cases s with ⟨hb', _⟩ | ⟨_, e⟩
  · exact nomatch hb.symm.trans hb'
  · rw [e]
    rfl

/-! ## What a running command writes -/

/-- `s` with the control state of `c`: `BUSY`, `DONE`, `PHASE` and the units, and the bookkeeping of moves. -/
def State.withControl (s c : State) : State :=
  { s with
    status := { s.status with busy := c.status.busy, done := c.status.done }
    phase := c.phase
    hu1 := c.hu1
    hu2 := c.hu2
    hu3 := c.hu3
    schedule := c.schedule
    tick := c.tick }

/-- Everything a step of CTRL or of a unit can do: control, and the one write set of the phase (R221). -/
inductive RunEffect (s t : State) : Prop
  | control (e : t = s.withControl t)
  | hreg (hp : s.phase = .exec) (ho : s.status.lastop = Instr.init.opcode ∨ s.status.lastop = Instr.compress.opcode)
      (e : t = State.withControl { s with hreg := t.hreg } t)
  | pk (hp : s.phase = .exec ∨ s.phase = .knhash) (ho : keyed s) (e : t = State.withControl { s with pk := t.pk } t)
  | lanes (hp : s.phase = .exec ∧ s.status.lastop = Instr.split.opcode ∨
        s.phase = .kndone ∧ s.status.lastop = Instr.mac.opcode)
      (m : List Byte) (hm : m.length = s.mlen.toNat)
      (e : t = State.withControl { s with
        lane1 := s.lane1.write 0 (split m).lane1
        lane2 := s.lane2.write 0 (split m).lane2
        lane3 := s.lane3.write 0 (split m).lane3
        lanelen := t.lanelen } t)
  | tagcat (hp : s.phase = .fanout) (ho : s.status.lastop = Instr.mac.opcode)
      (e : t = State.withControl { s with tagcat := t.tagcat } t)
  | out (hp : s.phase = .run ∧ (s.status.lastop = Instr.hash.opcode ∨ s.status.lastop = Instr.hmac.opcode) ∨
        s.phase = .final ∧ s.status.lastop = Instr.mac.opcode)
      (e : t = State.withControl { s with out := t.out } t)

namespace RunEffect

/-- CTRL's step, the move being counted before it. -/
theorem of_ctrlAction {s t : State} (h : CtrlAction s.begun t) : RunEffect s t := by
  cases h with
  | wait | hashStart | complete | hmacStart => exact .control rfl
  | init hp ho => exact .hreg hp (.inl ho) rfl
  | compress hp ho => exact .hreg hp (.inr ho) rfl
  | keyNormFirst hp ho =>
    rcases keyNormFirst_cases s.begun with ⟨_, e⟩ | ⟨_, e⟩ <;> rw [e]
    · exact .pk (.inl hp) ho rfl
    · exact .control rfl
  | keyNormSecond hp ho =>
    rcases keyNormSecond_cases s.begun with ⟨_, e⟩ | ⟨_, e⟩ <;> rw [e]
    · exact .pk (.inr hp) ho rfl
    · exact .control rfl
  | split hp ho =>
    refine .lanes (.inl ⟨hp, ho⟩) (msgOperand s.begun) (length_memRead ..) ?_
    rw [doSplit_eq]
    rfl
  | fanOut hp ho =>
    refine .lanes (.inr ⟨hp, ho⟩) (msgOperand s.begun) (length_memRead ..) ?_
    rw [fanOut_eq, doSplit_eq]
    rfl
  | join hp ho =>
    rcases join_cases s.begun with ⟨_, e⟩ | ⟨_, e⟩ <;> rw [e]
    · exact .tagcat hp ho rfl
    · exact .control rfl
  | collect hp =>
    rcases collect_cases s.begun with ⟨_, e⟩ | ⟨_, e⟩ <;> rw [e]
    · exact .out hp rfl
    · exact .control rfl

/-- A unit's step changes that unit alone. -/
theorem of_unitStep (u : UnitId) (s : State) : RunEffect s (unitStep u s.begun) := by
  rw [unitStep_eq_setUnit]
  cases u <;> exact .control rfl

theorem of_step {s t : State} {a : Agent} (ha : nextAgent s = some a) (hhost : a ≠ .host) (h : step s = .next t) :
    RunEffect s t := by
  cases StepEffect.of_step h with
  | waited | passed => exact .control rfl
  | host e rest turn => exact absurd (Option.some.inj (ha.symm.trans turn.1)) hhost
  | ctrl _ hc => exact of_ctrlAction hc
  | unit u => exact of_unitStep u s

end RunEffect

/-- Settles O55: each effect of a step of CTRL or of a unit writes one location's set, in its phase; the split writes
lanes of the lane length. -/
theorem runsKeepToTheirWriteSets : Obligations.RunsKeepToTheirWriteSets := by
  intro s t a ha hhost h
  cases RunEffect.of_step ha hhost h with
  | control e => rw [e]; simp [State.withControl, State.held]
  | hreg hp ho e => rw [e]; simpa [State.withControl, State.held, Instr.opcode] using fun _ => ⟨hp, ho⟩
  | pk hp ho e => rw [e]; simpa [State.withControl, State.held, keyed, Instr.opcode] using fun _ => ⟨hp, ho⟩
  | lanes hp m hm e =>
    obtain ⟨l1, l2, l3⟩ := length_split m
    rw [hm] at l1 l2 l3
    have hkept : ∀ o, laneLength s.mlen.toNat ≤ o →
        (s.lane1.write 0 (split m).lane1).get o = s.lane1.get o ∧
        (s.lane2.write 0 (split m).lane2).get o = s.lane2.get o ∧
        (s.lane3.write 0 (split m).lane3).get o = s.lane3.get o := fun o ho =>
      ⟨Memory.get_write_zero_of_le _ (l1 ▸ ho), Memory.get_write_zero_of_le _ (l2 ▸ ho),
        Memory.get_write_zero_of_le _ (l3 ▸ ho)⟩
    rw [e]
    simpa [State.withControl, State.held, Instr.opcode] using And.intro (fun _ => hp) hkept
  | tagcat hp ho e => rw [e]; simpa [State.withControl, State.held, Instr.opcode] using fun _ => ⟨hp, ho⟩
  | out hp e => rw [e]; simpa [State.withControl, State.held, Instr.opcode] using fun _ => hp

end Sys2Proof.Machine

/-! # Exceptions: where an error arises (spec/60_exceptions.md) -/

namespace Sys2Proof.Machine

@[simp] theorem reset_err : State.reset.status.err = false := rfl

/-- Settles O9, by the cases of what a step does to `STATUS`: of them only `raised` takes `ERR` from 0 to 1. -/
theorem errorsAriseOnlyAtCommandWrites : Obligations.ErrorsAriseOnlyAtCommandWrites := by
  intro s t h he herr
  cases StatusChange.of_step h with
  | raised _ w rest turn hb => exact ⟨hb, w, rest, turn⟩
  | kept hs | completed hs | hazarded _ _ _ _ _ hs | accepted _ _ _ _ _ _ hs => simp [hs, he] at herr
  | cleared _ _ _ hs | reset _ _ hs => simp [hs] at herr

end Sys2Proof.Machine

/-! # The hardware reset and the core at rest (spec/70_reset_and_hazards.md) -/

namespace Sys2Proof.Machine

/-! ## The hardware reset -/

/-- HOST's turn with a reset is the hardware reset, whatever the core is doing (R260). -/
theorem step_of_reset {s : State} {rest : List HostEvent} (turn : HostTurn s .rst rest) :
    step s = .next (hardReset (s.taken rest)) :=
  step_of_hostTurn s .rst rest turn

/-- Of the spaces only `TAGCAT`, a register array, holds bytes after the hardware reset (R59, R261). -/
theorem held_hardReset (s : State) {space : Space} (h : space ≠ .tagcat) (o : Nat) :
    (hardReset s).held space o = none := by
  cases space with
  | tagcat => exact absurd rfl h
  | key | msg | lane1 | lane2 | lane3 => rfl

/-- Settles O57: HOST's turn is the hardware reset, which empties the buffers. -/
theorem resetAbandonsTheRun : Obligations.ResetAbandonsTheRun := fun s rest turn =>
  ⟨hardReset (s.taken rest), step_of_reset turn, rfl, rfl, rfl, rfl, fun _ o h => held_hardReset _ h o⟩

/-! ## The core at rest -/

/-- The machine waits when nothing is scheduled and nothing is enabled (log 19). -/
theorem step_of_nextAgent_eq_none {s : State} (h : nextAgent s = none) : step s = .next s := by
  rw [step, nextMove, h]

/-- At rest no agent has an enabled step (R262). -/
theorem enabled_of_idle {s : State} (hp : s.phase = .idle) (hu : unitsIdle s) (hh : s.host = []) (a : Agent) :
    enabled s a = false := by
  obtain ⟨h1, h2, h3⟩ := hu
  rcases a with _ | _ | u
  · rw [enabled, hh]; rfl
  · rw [enabled, ctrlEnabled, hp]
  · cases u with
    | u1 => exact active_eq_false (.inl h1)
    | u2 => exact active_eq_false (.inl h2)
    | u3 => exact active_eq_false (.inl h3)

theorem nextAgent_of_idle {s : State} (hp : s.phase = .idle) (hu : unitsIdle s) (hh : s.host = [])
    (hs : s.schedule = []) : nextAgent s = none :=
  (nextAgent_eq_none s).2 ⟨hs, by simp [enabledAgents, enabled_of_idle hp hu hh]⟩

/-- A state that its step leaves as it is stays for ever. -/
theorem steps_of_step_self {s : State} (h : step s = .next s) (k : Nat) : steps k s = .next s := by
  induction k with
  | zero => rfl
  | succ k ih => rw [steps_succ h, ih]

/-- Settles O58: at rest no agent is scheduled or enabled, so the machine waits; and the reset state is at rest. -/
theorem idleCoreWaits : Obligations.IdleCoreWaits := by
  have hwaits : ∀ s : State, s.phase = .idle → unitsIdle s → s.host = [] → s.schedule = [] → step s = .next s :=
    fun s hp hu hh hs => step_of_nextAgent_eq_none (nextAgent_of_idle hp hu hh hs)
  exact ⟨hwaits, steps_of_step_self (hwaits State.reset rfl ⟨rfl, rfl, rfl⟩ rfl rfl)⟩

end Sys2Proof.Machine
